-- ==== Sys2Proof/Word.lean ====
section
/-! DEFINITION. The word types of the engine: the byte, and the group of eight words that both the
WorkingState `H[0..7]` and the locals `a..h` are (spec R12, R36, R37). A word of the variant in use is a
`BitVec w` with `w` 32 or 64; the one width of a group is in its type, so that no value of one width can be
used at the other (R46). -/

namespace Sys2Proof

/-- R12, R60: a byte is 8 bits; it is the unit of addressing in all three spaces. -/
abbrev Byte := BitVec 8

/-- Eight `w`-bit words. For the WorkingState the field `r<j>` is `H[j]` (R36); for the locals of one
compression `r0, r1, …, r7` are `a, b, c, d, e, f, g, h` (R37). -/
structure Eight (w : Nat) where
  r0 : BitVec w
  r1 : BitVec w
  r2 : BitVec w
  r3 : BitVec w
  r4 : BitVec w
  r5 : BitVec w
  r6 : BitVec w
  r7 : BitVec w
deriving DecidableEq, Repr, Inhabited

end Sys2Proof
end

