-- ==== Sys2Proof/Syntax.lean ====
section
/-! DEFINITION. The syntax: the two operations, the six variants, the twelve commands of the opcode table
(`Instr`, one constructor per row of spec/opcode_table.json, R95), the two error names (R240), and the closed
list of fourteen host transactions (`Transaction`, R21). A command has no operand field (R99), so the
constructors of `Instr` take no argument. -/

namespace Sys2Proof

/-- R94: the operation, the `OP` bit of a command word: `0` HASH, `1` HMAC. It has no reserved value. -/
inductive Operation where
  | hash
  | hmac
deriving DecidableEq, Repr, Inhabited

/-- R2, R93: the six variants, in the order of their codes 0 to 5. -/
inductive Variant where
  | sha224
  | sha256
  | sha384
  | sha512
  | sha512_224
  | sha512_256
deriving DecidableEq, Repr, Inhabited

/-- R95: the twelve commands, one constructor per row of the opcode table, in the table's order. -/
inductive Instr where
  | hashSha224
  | hashSha256
  | hashSha384
  | hashSha512
  | hashSha512_224
  | hashSha512_256
  | hmacSha224
  | hmacSha256
  | hmacSha384
  | hmacSha512
  | hmacSha512_224
  | hmacSha512_256
deriving DecidableEq, Repr, Inhabited

/-- R240: the two errors, the whole taxonomy. An error is this hardware's exception: the command that raises it
ends in a next state with the error recorded in `STATUS.ERR` (R246). -/
inductive Err where
  | messageTooLong
  | unsupportedVariant
deriving DecidableEq, Repr, Inhabited

/-- R60: the three address spaces. -/
inductive Space where
  | msg
  | key
  | digest
deriving DecidableEq, Repr, Inhabited

/-- R21: the host's moves, a closed list of fourteen. Arguments are natural numbers and may lie outside the
stated range; a transaction whose argument is out of range does not exist and its step is refused (R21). -/
inductive Transaction where
  /-- `WR_MSG(i, b)` -/
  | wrMsg (i : Nat) (b : Byte)
  /-- `RD_MSG(i)` -/
  | rdMsg (i : Nat)
  /-- `WR_KEY(i, b)` -/
  | wrKey (i : Nat) (b : Byte)
  /-- `RD_KEY(i)` -/
  | rdKey (i : Nat)
  /-- `WR_MSG_LEN(v)` -/
  | wrMsgLen (v : Nat)
  /-- `RD_MSG_LEN` -/
  | rdMsgLen
  /-- `WR_KEY_LEN(v)` -/
  | wrKeyLen (v : Nat)
  /-- `RD_KEY_LEN` -/
  | rdKeyLen
  /-- `CMD(c)`: the engine executes command word `c` to its end -/
  | cmd (c : Nat)
  /-- `RD_STATUS` -/
  | rdStatus
  /-- `RD_CAPS` -/
  | rdCaps
  /-- `RD_DIGEST_LEN` -/
  | rdDigestLen
  /-- `RD_DIGEST(j)` -/
  | rdDigest (j : Nat)
  /-- `RESET` -/
  | reset
deriving DecidableEq, Repr, Inhabited

/-- What a transaction returns to the host (the last column of R21's table). -/
inductive Reply where
  /-- the transaction returns nothing -/
  | nothing
  /-- a byte of `MSG`, `KEY` or `DIGEST` -/
  | byte (b : Byte)
  /-- `MSG_LEN` or `KEY_LEN`, 64 bits -/
  | length (v : BitVec 64)
  /-- `STATUS`, 3 bits -/
  | status (v : BitVec 3)
  /-- `CAPS`, 6 bits -/
  | caps (v : BitVec 6)
  /-- `DIGEST_LEN`, 7 bits -/
  | digestLen (v : BitVec 7)
deriving DecidableEq, Repr, Inhabited

end Sys2Proof
end

