-- ==== Sys2Proof/Machine/Registers.lean ====
section
/-! DEFINITION. The types of the engine's registers and stores, as plain data: the byte stores (R22, R23, R29),
the sequencer (R45), the digest computation in progress (R42) and the internal registers (R35 to R41). Only
types stand here; State.lean puts them together. -/

namespace Sys2Proof.Machine

/-- A byte store: the (index, byte) pairs that hold a value, indices strictly rising (`Memory.wf`, Ops.lean).
An index that is not listed holds NO VALUE (R50, R65): the spec forbids substituting zero or any other byte. -/
abbrev Memory := List Host.Cell

/-- R42: which digest computation of a command is in progress, and so where the stream's bytes come from. -/
inductive Pass where
  /-- a HASH command: the message -/
  | plain
  /-- HMAC, hashing a key longer than a block -/
  | keyHash
  /-- HMAC, the inner pass -/
  | innerPass
  /-- HMAC, the outer pass -/
  | outerPass
deriving DecidableEq, Repr, Inhabited

/-- R45: the micro-operation that is next. Outside a command it is `idle`. -/
inductive Phase where
  | idle
  | check
  | init
  | fill
  | pack
  | sched
  | load
  | round
  | fold
  | trunc
deriving DecidableEq, Repr, Inhabited

/-- R45: the sequencer `seq = (phase, blk, t)`, the engine's program counter. -/
structure Sequencer where
  phase : Phase
  /-- the index of the block in the padded stream -/
  blk : Nat
  /-- the schedule index in phase SCHED, the round index in phase ROUND -/
  t : Nat
deriving DecidableEq, Repr, Inhabited

/-- R45, R50: `(IDLE, 0, 0)`. -/
def Sequencer.idle : Sequencer := ⟨.idle, 0, 0⟩

/-- The word registers of one compression, at one word width `w` (R36, R37, R38, R46). -/
structure Bank (w : Nat) where
  /-- R36: the WorkingState `H[0..7]` -/
  H : Eight w
  /-- R37: the locals `a, b, c, d, e, f, g, h` -/
  loc : Eight w
  /-- R38: the MessageSchedule: the words `W[0], W[1], …` written so far for the current block. PACK begins it
  anew with 16 words and each SCHED adds the next one, so an index that is not yet written has no word (R47). -/
  W : List (BitVec w)
deriving DecidableEq, Repr, Inhabited

/-- R35 to R42: the internal registers but for the sequencer. There is one bank of word registers per word width:
the bank of the variant's width is the one a command uses, and no value crosses from one to the other (R46). -/
structure Internal where
  /-- R35: `OPR`, 1 bit -/
  opr : Operation
  /-- R35: `VAR`, 3 bits, as the variant it names (the codes 6 and 7 are turned away at decode, R100) -/
  var : Variant
  /-- R42: `PASS` -/
  pass : Pass
  /-- R36 to R38 at 32 bits -/
  bank32 : Bank 32
  /-- R36 to R38 at 64 bits -/
  bank64 : Bank 64
  /-- R39: the block buffer `BLK[0..B-1]` -/
  BLK : List Byte
  /-- R40: the derived HMAC key `KP[0..B-1]` -/
  KP : List Byte
  /-- R41: the digest of the inner pass, `INNER[0..D-1]` -/
  INNER : List Byte
deriving DecidableEq, Repr, Inhabited

end Sys2Proof.Machine
end

