-- ==== Sys2Proof/Config.lean ====
section
/-! DEFINITION. What an implementation fixes, and the one free value. The parameters `ENABLED`, `MSG_CAP` and
`KEY_CAP` are arguments of a model (R9, R10); since `exec` and `step` take only a state, a state carries them in
its field `params`, which no step changes (log entry 1). -/

namespace Sys2Proof

/-- R9, R10: the parameters of an engine, fixed for its life. -/
structure Params where
  /-- R9: `ENABLED`, the variants the engine was built with -/
  enabled : List Variant
  /-- R10: `MSG_CAP`, the bytes the message space can hold -/
  msgCap : Nat
  /-- R10: `KEY_CAP`, the bytes the key space can hold -/
  keyCap : Nat
deriving DecidableEq, Repr, Inhabited

/-- The parameters of `State.reset`: all six variants, both capacities `2^64`, the values that R64 says leave no
capacity case. DESIGN CHOICE (log entry 2); statements quantify over every `params`. -/
def Params.full : Params :=
  { enabled := [.sha224, .sha256, .sha384, .sha512, .sha512_224, .sha512_256],
    msgCap := 2 ^ 64, keyCap := 2 ^ 64 }

/-- What the internal registers hold once a command has ended: a FREE VALUE (R47 "discarded", spec
93_implementation_defined.md U6 "any value"). It has no body, so nothing can be proved of it; it is applied to
`State.draws`, a counter that every end of a command advances (log entry 4). -/
opaque Config.discarded : Nat → Sys2Proof.Machine.Internal

end Sys2Proof
end

