-- ==== Sys2Proof/WellFormed.lean ====
section
/-! DEFINITION. Well-formedness. A command has no operands (R99), so every `Instr` is well formed and there is no
check on it to fail; what can be ill formed is a parameter set (R9, R10) and the argument of a host transaction
(R21). The one range that depends on the state, `RD_DIGEST(j)` with `j < DIGEST_LEN`, is checked where the
transaction is performed (Machine/Transactions.lean), beside the same checks as these. -/

namespace Sys2Proof

/-- R99: no operand field and no immediate, so nothing of a command can be out of range. -/
def Instr.wellFormed : Instr → Bool
  | .hashSha224 => true
  | .hashSha256 => true
  | .hashSha384 => true
  | .hashSha512 => true
  | .hashSha512_224 => true
  | .hashSha512_256 => true
  | .hmacSha224 => true
  | .hmacSha256 => true
  | .hmacSha384 => true
  | .hmacSha512 => true
  | .hmacSha512_224 => true
  | .hmacSha512_256 => true

/-- R9: `ENABLED` names at least one variant. -/
def Params.someEnabled (p : Params) : Bool := !p.enabled.isEmpty

/-- R9: `ENABLED` is a set: no variant is listed twice. -/
def Params.noRepeat (p : Params) : Bool := decide p.enabled.Nodup

/-- R10: each capacity is at most `2^64`. -/
def Params.capsInRange (p : Params) : Bool := decide (p.msgCap ≤ 2 ^ 64) && decide (p.keyCap ≤ 2 ^ 64)

/-- R9, R10: a legal set of parameters. -/
def Params.wf (p : Params) : Bool := p.someEnabled && p.noRepeat && p.capsInRange

/-- R21: the argument of a transaction is in its stated range, as far as the parameters alone decide it. -/
def Transaction.wellFormed (p : Params) : Transaction → Bool
  | .wrMsg i _ => decide (i < p.msgCap)
  | .rdMsg i => decide (i < p.msgCap)
  | .wrKey i _ => decide (i < p.keyCap)
  | .rdKey i => decide (i < p.keyCap)
  | .wrMsgLen v => decide (v < 2 ^ 64)
  | .rdMsgLen => true
  | .wrKeyLen v => decide (v < 2 ^ 64)
  | .rdKeyLen => true
  | .cmd c => decide (c < 16)
  | .rdStatus => true
  | .rdCaps => true
  | .rdDigestLen => true
  | .rdDigest j => decide (j < 64)
  | .reset => true

end Sys2Proof
end

