-- ==== Sys2Proof/Decode.lean ====
section
/-! DEFINITION. Decoding of the 4-bit command word (R90, R92, R93, R95, R100), total on every number, rejecting by
name; the encoder after it; and the opcode map as a table of match and mask (R95). Whether an accepted variant is in
`ENABLED` is not decoding's to know: the command itself tests it first (R100, R245). -/

namespace Sys2Proof

/-- Why a word is no command of the opcode table. -/
inductive DecodeReject where
  /-- R96: the four words whose `VAR` is 6 or 7 name no variant: they fail with UnsupportedVariant -/
  | reservedVariant (op : Operation) (var : BitVec 3)
  /-- R21: a command word is 4 bits; `CMD(c)` with `c >= 16` does not exist -/
  | notACommandWord (c : Nat)
deriving DecidableEq, Repr

/-- R92: `OP = c[3]`, R94: `0` HASH, `1` HMAC. -/
def opField (c : BitVec 4) : Operation := if c.getLsbD 3 then .hmac else .hash

/-- R92: `VAR = c[2:0]`. -/
def varField (c : BitVec 4) : BitVec 3 := c.extractLsb' 0 3

/-- R93: the variant of a code; 6 and 7 name none. -/
def variantOfCode (v : BitVec 3) : Option Variant :=
  if v = 0#3 then some .sha224
  else if v = 1#3 then some .sha256
  else if v = 2#3 then some .sha384
  else if v = 3#3 then some .sha512
  else if v = 4#3 then some .sha512_224
  else if v = 5#3 then some .sha512_256
  else none

/-- R191 to R196, R218 to R223: the command that names an operation and a variant. -/
def instrOf : Operation → Variant → Instr
  | .hash, .sha224 => .hashSha224
  | .hash, .sha256 => .hashSha256
  | .hash, .sha384 => .hashSha384
  | .hash, .sha512 => .hashSha512
  | .hash, .sha512_224 => .hashSha512_224
  | .hash, .sha512_256 => .hashSha512_256
  | .hmac, .sha224 => .hmacSha224
  | .hmac, .sha256 => .hmacSha256
  | .hmac, .sha384 => .hmacSha384
  | .hmac, .sha512 => .hmacSha512
  | .hmac, .sha512_224 => .hmacSha512_224
  | .hmac, .sha512_256 => .hmacSha512_256

/-- R100: decoding of a command word. -/
def decode (c : BitVec 4) : Except DecodeReject Instr :=
  match variantOfCode (varField c) with
  | some v => .ok (instrOf (opField c) v)
  | none => .error (.reservedVariant (opField c) (varField c))

/-- R21, R100: decoding of the argument of `CMD`, total on the natural numbers. -/
def decodeWord (c : Nat) : Except DecodeReject Instr :=
  if c < 16 then decode (BitVec.ofNat 4 c) else .error (.notACommandWord c)

/-- R94, R99: the operation a command's row names. -/
def operationOf : Instr → Operation
  | .hashSha224 => .hash
  | .hashSha256 => .hash
  | .hashSha384 => .hash
  | .hashSha512 => .hash
  | .hashSha512_224 => .hash
  | .hashSha512_256 => .hash
  | .hmacSha224 => .hmac
  | .hmacSha256 => .hmac
  | .hmacSha384 => .hmac
  | .hmacSha512 => .hmac
  | .hmacSha512_224 => .hmac
  | .hmacSha512_256 => .hmac

/-- R93, R95: the variant a command's row names. -/
def variantOf : Instr → Variant
  | .hashSha224 => .sha224
  | .hashSha256 => .sha256
  | .hashSha384 => .sha384
  | .hashSha512 => .sha512
  | .hashSha512_224 => .sha512_224
  | .hashSha512_256 => .sha512_256
  | .hmacSha224 => .sha224
  | .hmacSha256 => .sha256
  | .hmacSha384 => .sha384
  | .hmacSha512 => .sha512
  | .hmacSha512_224 => .sha512_224
  | .hmacSha512_256 => .sha512_256

/-- R93: the code of a variant. -/
def codeOf : Variant → BitVec 3
  | .sha224 => 0b000#3
  | .sha256 => 0b001#3
  | .sha384 => 0b010#3
  | .sha512 => 0b011#3
  | .sha512_224 => 0b100#3
  | .sha512_256 => 0b101#3

/-- R94: the `OP` bit of an operation. -/
def opBit : Operation → BitVec 1
  | .hash => 0#1
  | .hmac => 1#1

/-- R92: `c = OP*8 + VAR`: the command word of a command. -/
def encode (i : Instr) : BitVec 4 := opBit (operationOf i) ++ codeOf (variantOf i)

/-- R95: a row of the opcode map: a word `c` selects it when `c & mask = match`. -/
structure OpcodeRow where
  pattern : BitVec 4
  mask : BitVec 4
  instr : Instr
deriving DecidableEq, Repr

/-- R95: the word selects the row. -/
def OpcodeRow.selects (r : OpcodeRow) (c : BitVec 4) : Bool := decide (c &&& r.mask = r.pattern)

/-- R95: the opcode map, the rows of the twelve commands. -/
def opcodeMap : List OpcodeRow :=
  [⟨0x0#4, 0xF#4, .hashSha224⟩, ⟨0x1#4, 0xF#4, .hashSha256⟩, ⟨0x2#4, 0xF#4, .hashSha384⟩,
   ⟨0x3#4, 0xF#4, .hashSha512⟩, ⟨0x4#4, 0xF#4, .hashSha512_224⟩, ⟨0x5#4, 0xF#4, .hashSha512_256⟩,
   ⟨0x8#4, 0xF#4, .hmacSha224⟩, ⟨0x9#4, 0xF#4, .hmacSha256⟩, ⟨0xA#4, 0xF#4, .hmacSha384⟩,
   ⟨0xB#4, 0xF#4, .hmacSha512⟩, ⟨0xC#4, 0xF#4, .hmacSha512_224⟩, ⟨0xD#4, 0xF#4, .hmacSha512_256⟩]

/-- The command the decoder reads from a word of the opcode table. The table gives a row 4 bits, one unit with bit 0 its
least significant bit (R92); `nbits` is that rounded up to whole bytes, and the bits above the word are 0. -/
def decodeTableWord (_nbits w : Nat) : Option Instr :=
  match decodeWord w with
  | .ok i => some i
  | .error _ => none

end Sys2Proof
end

