-- ==== Sys2Proof/Machine/ByteOrder.lean ====
section
/-! DEFINITION. Byte sequences and byte order (R15, R68): every multi-byte quantity is big-endian, the most
significant byte at the lowest index. -/

namespace Sys2Proof.Machine

/-- R15: `zeros(k)`, `k` bytes of `0x00`. -/
def zeros (k : Nat) : List Byte := List.replicate k 0#8

/-- R15: byte `i` of `be_k(v)`: `(v div 2^(8(k-1-i))) mod 256`. -/
def beByte (k v i : Nat) : Byte := BitVec.ofNat 8 (v / 2 ^ (8 * (k - 1 - i)))

/-- R15: `be_k(v)`, the `k`-byte big-endian encoding of `v`. -/
def beBytes (k v : Nat) : List Byte := (List.range k).map (beByte k v)

/-- R15: `word_be(s)`: the number whose big-endian bytes are `s`. -/
def beNat (s : List Byte) : Nat := s.foldl (fun acc b => acc * 256 + b.toNat) 0

/-- R15, R158: `word_be(s)` as a `w`-bit word. -/
def wordBE (w : Nat) (s : List Byte) : BitVec w := BitVec.ofNat w (beNat s)

/-- R15: `s[i..i+k)`. -/
def slice (s : List Byte) (i k : Nat) : List Byte := (s.drop i).take k

/-- R15: `s xor rep(c, len(s))`: each byte of `s` with the byte `c`. -/
def xorByte (c : Byte) (s : List Byte) : List Byte := s.map (· ^^^ c)

end Sys2Proof.Machine
end

