-- ==== Sys2Proof/Machine/Variants.lean ====
section
/-! DEFINITION. The VariantDescriptor (R110): the parameters of the six variants (R111, R113), the rotation and
shift amounts (R119), and the six mixing functions (R115 to R121). -/

namespace Sys2Proof.Machine

/-- R112: the two classes of variants, by word width. -/
inductive WordClass where
  /-- 32-bit words: SHA-224, SHA-256 -/
  | narrow
  /-- 64-bit words: SHA-384, SHA-512, SHA-512/224, SHA-512/256 -/
  | wide
deriving DecidableEq, Repr

/-- R111, R112: the word class of a variant. -/
def wordClass : Variant → WordClass
  | .sha224 => .narrow
  | .sha256 => .narrow
  | .sha384 => .wide
  | .sha512 => .wide
  | .sha512_224 => .wide
  | .sha512_256 => .wide

/-- R111: `wb`, the word size in bytes. -/
def wordBytes (v : Variant) : Nat :=
  match wordClass v with
  | .narrow => 4
  | .wide => 8

/-- R111: `w`, the word width in bits; `wb = w/8` (R113). -/
def wordBits (v : Variant) : Nat := 8 * wordBytes v

/-- R111: `B`, the block size in bytes; always 16 words (R113). -/
def blockBytes (v : Variant) : Nat :=
  match wordClass v with
  | .narrow => 64
  | .wide => 128

/-- R111: `R`, the round count. -/
def rounds (v : Variant) : Nat :=
  match wordClass v with
  | .narrow => 64
  | .wide => 80

/-- R111: `F`, the length-field size in bytes, twice the word size (R113). -/
def lenBytes (v : Variant) : Nat :=
  match wordClass v with
  | .narrow => 8
  | .wide => 16

/-- R111: `D`, the digest length in bytes. -/
def digestBytes : Variant → Nat
  | .sha224 => 28
  | .sha256 => 32
  | .sha384 => 48
  | .sha512 => 64
  | .sha512_224 => 28
  | .sha512_256 => 32

/-- An initial state `H0`, with the word width of its variant. -/
inductive InitialState where
  | narrow (h : Eight 32)
  | wide (h : Eight 64)
deriving DecidableEq, Repr

/-- R111, R126 to R131: the `H0` table of a variant. -/
def initialState : Variant → InitialState
  | .sha224 => .narrow h0Sha224
  | .sha256 => .narrow h0Sha256
  | .sha384 => .wide h0Sha384
  | .sha512 => .wide h0Sha512
  | .sha512_224 => .wide h0Sha512_224
  | .sha512_256 => .wide h0Sha512_256

/-- R119: three amounts of one sigma. -/
structure Amounts where
  x : Nat
  y : Nat
  z : Nat
deriving DecidableEq, Repr

/-- The constants of one word class (R110, R114, R119): the amounts of the four sigmas and the K table. -/
structure CoreConsts (w : Nat) where
  smallSigma0 : Amounts
  smallSigma1 : Amounts
  bigSigma0 : Amounts
  bigSigma1 : Amounts
  K : List (BitVec w)
deriving DecidableEq, Repr

/-- R119, R123: the constants of the 32-bit variants. -/
def core32 : CoreConsts 32 :=
  { smallSigma0 := ⟨7, 18, 3⟩, smallSigma1 := ⟨17, 19, 10⟩,
    bigSigma0 := ⟨2, 13, 22⟩, bigSigma1 := ⟨6, 11, 25⟩, K := k256 }

/-- R119, R124: the constants of the 64-bit variants. -/
def core64 : CoreConsts 64 :=
  { smallSigma0 := ⟨1, 8, 7⟩, smallSigma1 := ⟨19, 61, 6⟩,
    bigSigma0 := ⟨28, 34, 39⟩, bigSigma1 := ⟨14, 18, 41⟩, K := k512 }

/-- R14: `rotr(x, n)`, rotate right by `n`, `0 < n < w`. -/
def rotr {w : Nat} (x : BitVec w) (n : Nat) : BitVec w := (x >>> n) ||| (x <<< (w - n))

/-- R14: `shr(x, n)`, logical shift right by `n`. -/
def shr {w : Nat} (x : BitVec w) (n : Nat) : BitVec w := x >>> n

/-- R115, R116: a small sigma: two rotations and one shift. -/
def smallSigma {w : Nat} (m : Amounts) (x : BitVec w) : BitVec w := rotr x m.x ^^^ rotr x m.y ^^^ shr x m.z

/-- R117, R118: a capital sigma: three rotations. -/
def bigSigma {w : Nat} (m : Amounts) (x : BitVec w) : BitVec w := rotr x m.x ^^^ rotr x m.y ^^^ rotr x m.z

/-- R120: `Choice(e, f, g)`. -/
def choice {w : Nat} (e f g : BitVec w) : BitVec w := (e &&& f) ^^^ (~~~e &&& g)

/-- R121: `Majority(a, b, c)`. -/
def majority {w : Nat} (a b c : BitVec w) : BitVec w := (a &&& b) ^^^ (a &&& c) ^^^ (b &&& c)

end Sys2Proof.Machine
end

