-- ==== Sys2Proof/Machine/Compression.lean ====
section
/-! DEFINITION. The CompressionCore (R155 to R166). First the micro-operations PACK, SCHED, LOAD, ROUND and FOLD on
one bank of word registers (R158 to R162), in the form the engine runs them; then the whole compression as one
function of the state on entry and the block (R166). All additions are modulo `2^w` and nothing records a
carry (R163). -/

namespace Sys2Proof.Machine

/-- R36, R37: the eight words in index order, `H[0]` first. -/
def eightList {w : Nat} (x : Eight w) : List (BitVec w) :=
  [x.r0, x.r1, x.r2, x.r3, x.r4, x.r5, x.r6, x.r7]

/-- R162: word-by-word addition, each sum modulo `2^w`. -/
def eightAdd {w : Nat} (x y : Eight w) : Eight w :=
  ⟨x.r0 + y.r0, x.r1 + y.r1, x.r2 + y.r2, x.r3 + y.r3,
   x.r4 + y.r4, x.r5 + y.r5, x.r6 + y.r6, x.r7 + y.r7⟩

/-- R158: the first 16 words of the schedule: word `i` is `word_be(BLK[i*wb .. i*wb + wb))`, `wb = w/8`. -/
def packWords (w : Nat) (block : List Byte) : List (BitVec w) :=
  (List.range 16).map fun i => wordBE w (slice block (i * (w / 8)) (w / 8))

/-- R159: `W[i-16] + σ0(W[i-15]) + W[i-7] + σ1(W[i-2])`. -/
def schedWord {w : Nat} (c : CoreConsts w) (W : List (BitVec w)) (i : Nat) : BitVec w :=
  W.getD (i - 16) 0 + smallSigma c.smallSigma0 (W.getD (i - 15) 0) + W.getD (i - 7) 0
    + smallSigma c.smallSigma1 (W.getD (i - 2) 0)

/-- R161: `T1 = h + Σ1(e) + Choice(e, f, g) + K[i] + W[i]`. -/
def roundT1 {w : Nat} (c : CoreConsts w) (k wi : BitVec w) (l : Eight w) : BitVec w :=
  l.r7 + bigSigma c.bigSigma1 l.r4 + choice l.r4 l.r5 l.r6 + k + wi

/-- R161: `T2 = Σ0(a) + Majority(a, b, c)`. -/
def roundT2 {w : Nat} (c : CoreConsts w) (l : Eight w) : BitVec w :=
  bigSigma c.bigSigma0 l.r0 + majority l.r0 l.r1 l.r2

/-- R161: `(a, …, h) <- (T1 + T2, a, b, c, d + T1, e, f, g)`, all read before any is written. -/
def roundStep {w : Nat} (c : CoreConsts w) (k wi : BitVec w) (l : Eight w) : Eight w :=
  ⟨roundT1 c k wi l + roundT2 c l, l.r0, l.r1, l.r2, l.r3 + roundT1 c k wi l, l.r4, l.r5, l.r6⟩

/-- R158: PACK. -/
def bankPack {w : Nat} (block : List Byte) (b : Bank w) : Bank w := { b with W := packWords w block }

/-- R159: SCHED `i`: writes `W[i]`, the next word of the schedule. -/
def bankSched {w : Nat} (c : CoreConsts w) (i : Nat) (b : Bank w) : Bank w :=
  { b with W := b.W ++ [schedWord c b.W i] }

/-- R160: LOAD: the locals become a copy of `H`. -/
def bankLoad {w : Nat} (b : Bank w) : Bank w := { b with loc := b.H }

/-- R161: ROUND `i`. -/
def bankRound {w : Nat} (c : CoreConsts w) (i : Nat) (b : Bank w) : Bank w :=
  { b with loc := roundStep c (c.K.getD i 0) (b.W.getD i 0) b.loc }

/-- R162: FOLD: `H[j] <- H[j] + (a..h)[j]`. -/
def bankFold {w : Nat} (b : Bank w) : Bank w := { b with H := eightAdd b.H b.loc }

/-- R158, R159: the first `16 + k` words of the schedule of a block. -/
def schedule {w : Nat} (c : CoreConsts w) (block : List Byte) : Nat → List (BitVec w)
  | 0 => packWords w block
  | k + 1 => schedule c block k ++ [schedWord c (schedule c block k) (16 + k)]

/-- R161: the locals after the rounds `0` to `k - 1`. -/
def roundsFrom {w : Nat} (c : CoreConsts w) (W : List (BitVec w)) (l : Eight w) : Nat → Eight w
  | 0 => l
  | k + 1 => roundStep c (c.K.getD k 0) (W.getD k 0) (roundsFrom c W l k)

/-- R166: `Compress_v(Hin, block)`, with `r` rounds. -/
def compress {w : Nat} (c : CoreConsts w) (r : Nat) (Hin : Eight w) (block : List Byte) : Eight w :=
  eightAdd Hin (roundsFrom c (schedule c block (r - 16)) Hin r)

/-- R186: `be_wb(H[0]) || … || be_wb(H[7])`, before truncation. -/
def outputBytes {w : Nat} (H : Eight w) : List Byte :=
  (eightList H).flatMap fun x => beBytes (w / 8) x.toNat

/-- R186, byte by byte: byte `j` of the digest is byte `j mod wb` of `H[j div wb]`. -/
def digestByte {w : Nat} (H : Eight w) (j : Nat) : Byte :=
  beByte (w / 8) ((eightList H).getD (j / (w / 8)) 0).toNat (j % (w / 8))

/-- R186: TRUNC: the first `d` bytes of the output. -/
def truncBytes {w : Nat} (d : Nat) (H : Eight w) : List Byte := (List.range d).map (digestByte H)

end Sys2Proof.Machine
end

