-- ==== Sys2Proof/Machine/State.lean ====
section
/-! DEFINITION. The state of the engine and its port (R20), the reasons a step can stop, and the state after
reset (R50). INVENTORY.md lists every field with its rule and its reset value. -/

namespace Sys2Proof.Machine

/-- The state: the host-visible registers and spaces (R22 to R31), the internal state (R35 to R45), the
parameters, and three fields of the model's own (`pending`, `reply`, `draws`). -/
structure State where
  /-- R9, R10: `ENABLED`, `MSG_CAP`, `KEY_CAP`; no step changes them. `CAPS` (R30) is read from them. -/
  params : Params
  /-- R22: the message space `MSG` -/
  msg : Memory
  /-- R23: the key space `KEY` -/
  key : Memory
  /-- R24: `MSG_LEN` -/
  msgLen : BitVec 64
  /-- R25: `KEY_LEN` -/
  keyLen : BitVec 64
  /-- R26: `STATUS`, `ERR` in bits 1:0 and `VALID` in bit 2 -/
  status : BitVec 3
  /-- R28: `DIGEST_LEN` -/
  digestLen : BitVec 7
  /-- R29: the digest space `DIGEST`; only indices below `DIGEST_LEN` exist -/
  digest : Memory
  /-- R45: the sequencer -/
  seq : Sequencer
  /-- R35 to R42: the internal registers -/
  internal : Internal
  /-- MODEL'S OWN (log entry 3): the transactions the host will still issue, next one first (R11, R21, R75) -/
  pending : List Transaction
  /-- MODEL'S OWN (log entry 3): what the last transaction returned to the host (R21) -/
  reply : Reply
  /-- MODEL'S OWN (log entry 4): how many free values have been drawn -/
  draws : Nat
deriving DecidableEq, Repr

/-- The reasons a step can stop with a fault: NONE. The spec's two errors are taken as next states (R246), and "no
other failure modes exist" (R240, R244); what lies outside the rules is refused (R21, R64, R65). -/
inductive Fault where
deriving DecidableEq, Repr

/-- The reasons a step has no next state. All are safe: the spec says that the model gives these cases no step
("refused, and the refusal errs toward unprovable", R21). -/
inductive Refusal where
  /-- an instruction of the opcode table that has no meaning yet; raised by an arm of `exec` only. Safe. -/
  | notModelled (mnemonic : String)
  /-- R21: `WR_MSG`, `RD_MSG`, `WR_KEY`, `RD_KEY` at an index at or beyond the capacity, `RD_DIGEST(j)` with
  `j >= DIGEST_LEN`; raised by the transactions and by the engine's reads of `MSG` and `KEY`. Safe. -/
  | indexOutOfRange
  /-- R65: a byte of `MSG` or `KEY` that the host has not written since reset is read; raised by `RD_MSG`, `RD_KEY`
  and by a command that reads such a byte. Safe. -/
  | unwrittenByte
  /-- R64: a command that passes its checks but whose message or key exceeds its capacity; raised by CHECK. Safe. -/
  | capacityExceeded
  /-- R21: `WR_MSG_LEN(v)` or `WR_KEY_LEN(v)` with `v >= 2^64`; raised by those transactions. Safe. -/
  | lengthOutOfRange
  /-- R21: `CMD(c)` with `c >= 16`; raised by that transaction. Safe. -/
  | commandOutOfRange
  /-- R272, R275: a host transaction while a command runs, that is, while the sequencer is not idle; raised by
  `step`. No state at the end of a step is such a state. Safe. -/
  | commandRunning
deriving DecidableEq, Repr

/-- The internal registers of `State.reset`. R50 gives them no value and no command reads one before writing it
(R47); the zeros and empty buffers here are a DESIGN CHOICE (log entry 5). -/
def Internal.atReset : Internal :=
  { opr := .hash, var := .sha224, pass := .plain,
    bank32 := ⟨⟨0, 0, 0, 0, 0, 0, 0, 0⟩, ⟨0, 0, 0, 0, 0, 0, 0, 0⟩, []⟩,
    bank64 := ⟨⟨0, 0, 0, 0, 0, 0, 0, 0⟩, ⟨0, 0, 0, 0, 0, 0, 0, 0⟩, []⟩,
    BLK := [], KP := [], INNER := [] }

/-- R50, R271: the state after reset of an engine with parameters `p`. Power-on and `RESET` leave the same state. -/
def State.powerOn (p : Params) : State :=
  { params := p,
    msg := [], key := [],
    msgLen := 0#64, keyLen := 0#64,
    status := 0b000#3,
    digestLen := 0#7,
    digest := [],
    seq := Sequencer.idle,
    internal := Internal.atReset,
    pending := [],
    reply := .nothing,
    draws := 0 }

/-- The machine right after reset, with every variant enabled and both capacities at `2^64` (log entry 2). -/
def State.reset : State := State.powerOn Params.full

end Sys2Proof.Machine
end

