-- ==== Sys2Proof/Machine/Flags.lean ====
section
/-! DEFINITION. The only flags of the engine, `STATUS.VALID` and `STATUS.ERR` (R26, R33), with the codes of the
errors (R241), and the constant register `CAPS` (R30). No carry, overflow, zero or sign is kept of any
addition (R33). -/

namespace Sys2Proof.Machine

/-- R241: the code that `STATUS.ERR` holds after a command that raised the error. -/
def Err.code : Err → BitVec 2
  | .messageTooLong => 1#2
  | .unsupportedVariant => 2#2

/-- R26: `STATUS[1:0]`, the field `ERR`. -/
def statusErr (status : BitVec 3) : BitVec 2 := status.extractLsb' 0 2

/-- R26: `STATUS[2]`, the field `VALID`. -/
def statusValid (status : BitVec 3) : Bool := status.getLsbD 2

/-- R26: `STATUS` with the field `VALID` in bit 2 and `ERR` in bits 1:0. -/
def statusOf (valid : Bool) (err : BitVec 2) : BitVec 3 := BitVec.ofBool valid ++ err

/-- R190, R217: `STATUS` after a command that succeeded: `VALID = 1`, `ERR = 0`. -/
def statusSuccess : BitVec 3 := statusOf true 0#2

/-- R246: `STATUS` after a command that raised `e`: `VALID = 0`, `ERR = code(e)`. -/
def statusError (e : Err) : BitVec 3 := statusOf false (Err.code e)

/-- R9, R97: the variant is in `ENABLED`. -/
def isEnabled (p : Params) (v : Variant) : Bool := p.enabled.contains v

/-- R30: `CAPS`: bit `v` is 1 when the variant of code `v` is in `ENABLED`. -/
def capsOf (p : Params) : BitVec 6 :=
  BitVec.ofBool (isEnabled p .sha512_256) ++ BitVec.ofBool (isEnabled p .sha512_224) ++
  BitVec.ofBool (isEnabled p .sha512) ++ BitVec.ofBool (isEnabled p .sha384) ++
  BitVec.ofBool (isEnabled p .sha256) ++ BitVec.ofBool (isEnabled p .sha224)

end Sys2Proof.Machine
end

