-- ==== Sys2Proof/Machine/Ops.lean ====
section
/-! DEFINITION. The named operations over the byte spaces and the registers (R60 to R67), TAKING AN ERROR as one
shared operation (R246, the engine's trap entry), and the successful end of a command beside it (R190, R217). There
is no return from an error: an error needs no acknowledgement and nothing is to be restored, the next command or
`RESET` overwrites what it wrote (R248). -/

namespace Sys2Proof.Machine

/-- The three outcomes of a step, at this machine's types. -/
abbrev Outcome := Host.Outcome State Fault Refusal

/-- The byte at index `i`, or none where the index holds no value (R65). -/
def Memory.read : Memory → Nat → Option Byte
  | [], _ => none
  | (a, b) :: m, i => if a = i then some b else Memory.read m i

/-- The memory with byte `v` at index `i` (R67). -/
def Memory.write : Memory → Nat → Byte → Memory
  | [], i, v => [(i, v)]
  | (a, b) :: m, i, v =>
    if i < a then (i, v) :: (a, b) :: m
    else if i = a then (i, v) :: m
    else (a, b) :: Memory.write m i v

/-- Every index listed in the memory is at least `lo`, and indices are strictly rising. -/
def Memory.risingFrom : Memory → Nat → Bool
  | [], _ => true
  | (a, _) :: m, lo => decide (lo ≤ a) && Memory.risingFrom m (a + 1)

/-- The canonical form: indices strictly rising. An unlisted index holds no value, so no entry can equal what an
unlisted index reads as. -/
def Memory.wf (m : Memory) : Bool := Memory.risingFrom m 0

/-- The memory whose bytes at `i, i+1, …` are `bs`, written one by one in rising order into `m` (R67, R190). -/
def Memory.writeBytes (m : Memory) (i : Nat) : List Byte → Memory
  | [] => m
  | b :: bs => Memory.writeBytes (Memory.write m i b) (i + 1) bs

/-- R60: the bytes of a space. -/
def spaceOf (sp : Space) (s : State) : Memory :=
  match sp with
  | .msg => s.msg
  | .key => s.key
  | .digest => s.digest

/-- R61, R62, R63: the indices of a space are those below this bound. -/
def spaceCap (sp : Space) (s : State) : Nat :=
  match sp with
  | .msg => s.params.msgCap
  | .key => s.params.keyCap
  | .digest => s.digestLen.toNat

/-- R66: `MemRead(S, a, 1)`: defined for an index below the bound whose byte holds a value (R21, R65). It changes
nothing. -/
def memRead (sp : Space) (a : Nat) (s : State) : Except Refusal Byte :=
  if a < spaceCap sp s then
    match Memory.read (spaceOf sp s) a with
    | some b => .ok b
    | none => .error .unwrittenByte
  else .error .indexOutOfRange

/-- R67: `MemWrite(S, a, 1, v)` to one space; the other spaces keep their bytes. -/
def memWrite (sp : Space) (a : Nat) (v : Byte) (s : State) : State :=
  match sp with
  | .msg => { s with msg := Memory.write s.msg a v }
  | .key => { s with key := Memory.write s.key a v }
  | .digest => { s with digest := Memory.write s.digest a v }

/-- The bytes `f i, f (i+1), …, f (i+k-1)`, in that order; the first that has no value ends it (R65, R184). -/
def gather (f : Nat → Except Refusal Byte) : Nat → Nat → Except Refusal (List Byte)
  | _, 0 => .ok []
  | i, k + 1 =>
    match f i with
    | .error r => .error r
    | .ok b =>
      match gather f (i + 1) k with
      | .error r => .error r
      | .ok bs => .ok (b :: bs)

/-- R47, R189: the end of a command: the sequencer is idle, what the internal registers held is discarded and what
they hold from now on is a free value (log entry 4). -/
def endCommand (s : State) : State :=
  { s with seq := Sequencer.idle, internal := Config.discarded s.draws, draws := s.draws + 1 }

/-- R246: `raise E`, the error entry: `STATUS` holds the code with `VALID = 0`, `DIGEST_LEN` is 0, so no index of
`DIGEST` exists, and the command ends. Nothing else changes. -/
def raise (e : Err) (s : State) : State :=
  endCommand { s with status := statusError e, digestLen := 0#7, digest := [] }

/-- R190, R217: a command succeeds with the digest `dg`: its bytes are written to `DIGEST` from index 0 on, none of
an earlier digest is left (R29), `DIGEST_LEN` is their number, `STATUS` is `0b100`, and the command ends. -/
def succeed (dg : List Byte) (s : State) : State :=
  endCommand { s with
    digest := Memory.writeBytes [] 0 dg,
    digestLen := BitVec.ofNat 7 dg.length,
    status := statusSuccess }

end Sys2Proof.Machine
end

