-- ==== Sys2Proof/Machine/Padder.lean ====
section
/-! DEFINITION. The Padder (R140 to R150): a pure function of the length `n` of a stream in bytes and of the
variant's `B` and `F`. It reads no byte of the stream. Lengths are natural numbers and never wrap (R12). -/

namespace Sys2Proof.Machine

/-- R142: the stream of `n` bytes is too long: `8*n >= 2^61`, the same limit for every variant. -/
def tooLong (n : Nat) : Bool := decide (2 ^ 61 ≤ 8 * n)

/-- R144: `z`, the number of zero bytes: `((B - 1 - F) - (n mod B)) mod B`, written over the natural numbers by
adding one `B` before the subtraction. -/
def zeroFill (v : Variant) (n : Nat) : Nat :=
  (blockBytes v - 1 - lenBytes v + blockBytes v - n % blockBytes v) % blockBytes v

/-- R145: `P = 0x80 || zeros(z) || be_F(8n)`. -/
def padding (v : Variant) (n : Nat) : List Byte :=
  0x80#8 :: (zeros (zeroFill v n) ++ beBytes (lenBytes v) (8 * n))

/-- R145: `N = n + 1 + z + F`, the length of the padded stream. -/
def paddedLength (v : Variant) (n : Nat) : Nat := n + 1 + zeroFill v n + lenBytes v

/-- R148: `NB = N / B`, the number of blocks of the padded stream. -/
def blockCount (v : Variant) (n : Nat) : Nat := paddedLength v n / blockBytes v

/-- R145, index by index: the byte `PM[j]` of the padded stream for `n <= j < N`. -/
def padByte (v : Variant) (n j : Nat) : Byte :=
  if j = n then 0x80#8
  else if j < paddedLength v n - lenBytes v then 0x00#8
  else beByte (lenBytes v) (8 * n) (j - (paddedLength v n - lenBytes v))

end Sys2Proof.Machine
end

