-- ==== Sys2Proof/Machine/Operands.lean ====
section
/-! DEFINITION. The operands of a command. They are implicit and fixed by the operation (R99): HASH reads `MSG_LEN`
and `MSG[0..MSG_LEN)`; HMAC reads `KEY_LEN`, `KEY[0..KEY_LEN)`, `MSG_LEN` and `MSG[0..MSG_LEN)`. Here are the
digest computations a command makes, in order (R190, R214), the stream of each (R216), and the tests on the
lengths (R64, R182, R215). Lengths are natural numbers; no sum wraps (R12). -/

namespace Sys2Proof.Machine

/-- R24, R61: the length of the message in bytes. -/
def msgBytes (s : State) : Nat := s.msgLen.toNat

/-- R25, R62: the length of the key in bytes. -/
def keyBytes (s : State) : Nat := s.keyLen.toNat

/-- R212: the key is longer than a block, so it is to be hashed. -/
def longKey (v : Variant) (s : State) : Bool := decide (blockBytes v < keyBytes s)

/-- R190, R212, R214: the digest computations of a command, in order. -/
def commandPasses (op : Operation) (v : Variant) (s : State) : List Pass :=
  match op with
  | .hash => [.plain]
  | .hmac => if longKey v s then [.keyHash, .innerPass, .outerPass] else [.innerPass, .outerPass]

/-- R42, R190, R212: the first digest computation of a command. -/
def firstPass (op : Operation) (v : Variant) (s : State) : Pass :=
  match op with
  | .hash => .plain
  | .hmac => if longKey v s then .keyHash else .innerPass

/-- R190, R216: `n`, the length in bytes of the stream of a pass. -/
def passLen (v : Variant) (s : State) : Pass → Nat
  | .plain => msgBytes s
  | .keyHash => keyBytes s
  | .innerPass => blockBytes v + msgBytes s
  | .outerPass => blockBytes v + digestBytes v

/-- R182, R215, R242: some stream the command would hash is `2^61` bits or longer. -/
def commandTooLong (op : Operation) (v : Variant) (s : State) : Bool :=
  (commandPasses op v s).any fun p => tooLong (passLen v s p)

/-- R64: the message, and for HMAC the key, fit their spaces. -/
def commandFits (op : Operation) (s : State) : Bool :=
  match op with
  | .hash => decide (msgBytes s ≤ s.params.msgCap)
  | .hmac => decide (msgBytes s ≤ s.params.msgCap) && decide (keyBytes s ≤ s.params.keyCap)

/-- R213, R216: byte `j` of `K' xor pad` followed by `rest`. -/
def paddedKeyByte (v : Variant) (pad : Byte) (s : State) (rest : Nat → Except Refusal Byte) (j : Nat) :
    Except Refusal Byte :=
  if j < blockBytes v then .ok (s.internal.KP.getD j 0 ^^^ pad) else rest (j - blockBytes v)

/-- R190, R216: `S[j]`, byte `j` of the stream of the pass in progress, for `j` below its length. -/
def streamByte (v : Variant) (s : State) (j : Nat) : Except Refusal Byte :=
  match s.internal.pass with
  | .plain => memRead .msg j s
  | .keyHash => memRead .key j s
  | .innerPass => paddedKeyByte v 0x36#8 s (fun i => memRead .msg i s) j
  | .outerPass => paddedKeyByte v 0x5c#8 s (fun i => .ok (s.internal.INNER.getD i 0)) j

/-- R145, R184: `PM[j]`, byte `j` of the padded stream of the pass in progress. -/
def paddedByte (v : Variant) (s : State) (j : Nat) : Except Refusal Byte :=
  if j < passLen v s s.internal.pass then streamByte v s j
  else .ok (padByte v (passLen v s s.internal.pass) j)

/-- R148: `NB`, the number of blocks of the pass in progress. -/
def passBlocks (v : Variant) (s : State) : Nat := blockCount v (passLen v s s.internal.pass)

end Sys2Proof.Machine
end

