-- ==== Sys2Proof/Machine/Engine.lean ====
section
/-! DEFINITION. The engine: the micro-operations CHECK, INIT, FILL, PACK, SCHED, LOAD, ROUND, FOLD and TRUNC on the
state (R158 to R162, R182 to R186), the sequencer that says which is next (R45, R189), and a command as their run
from the first to the last (R91). The command is atomic for the host: only its end is the state after a step. -/

namespace Sys2Proof.Machine

/-- R189: the order of the phases within one digest computation of `r` rounds and `nb` blocks, but for the end of the
computation, which TRUNC decides. -/
def nextSeq (r nb : Nat) (q : Sequencer) : Sequencer :=
  match q.phase with
  | .idle => Sequencer.idle
  | .check => ⟨.init, 0, 0⟩
  | .init => ⟨.fill, 0, 0⟩
  | .fill => ⟨.pack, q.blk, 0⟩
  | .pack => ⟨.sched, q.blk, 16⟩
  | .sched => if q.t + 1 < r then ⟨.sched, q.blk, q.t + 1⟩ else ⟨.load, q.blk, 0⟩
  | .load => ⟨.round, q.blk, 0⟩
  | .round => if q.t + 1 < r then ⟨.round, q.blk, q.t + 1⟩ else ⟨.fold, q.blk, 0⟩
  | .fold => if q.blk + 1 < nb then ⟨.fill, q.blk + 1, 0⟩ else ⟨.trunc, q.blk, 0⟩
  | .trunc => Sequencer.idle

/-- R189: the state with the sequencer moved on to the next micro-operation. -/
def advance (s : State) : State :=
  { s with seq := nextSeq (rounds s.internal.var) (passBlocks s.internal.var s) s.seq }

/-- R46: a micro-operation on the bank of word registers of the variant's width; the other bank is not touched. -/
def onBank (f : {w : Nat} → CoreConsts w → Bank w → Bank w) (s : State) : State :=
  match wordClass s.internal.var with
  | .narrow => { s with internal := { s.internal with bank32 := f core32 s.internal.bank32 } }
  | .wide => { s with internal := { s.internal with bank64 := f core64 s.internal.bank64 } }

/-- R212, second branch: `KP <- KEY[0..kn) || zeros(B - kn)`, before the inner pass of a command whose key is not
longer than a block (where in the sequence it happens: log entry 6). -/
def deriveShortKey (s : State) : Except Refusal State :=
  match gather (fun i => memRead .key i s) 0 (keyBytes s) with
  | .error r => .error r
  | .ok ks =>
    .ok { s with internal := { s.internal with KP := ks ++ zeros (blockBytes s.internal.var - keyBytes s) } }

/-- R182, R215, R247: CHECK. The lengths alone decide: a stream that is too long raises MessageTooLong before any byte
is read; a message or key that does not fit its space has no step (R64). Before the inner pass of an HMAC whose key
is not hashed it takes the key as it is (R212). -/
def microCheck (s : State) : Outcome :=
  if commandTooLong s.internal.opr s.internal.var s then .next (raise .messageTooLong s)
  else if commandFits s.internal.opr s then
    if s.internal.pass = .innerPass ∧ longKey s.internal.var s = false then
      match deriveShortKey s with
      | .error r => .refused r
      | .ok s' => .next (advance s')
    else .next (advance s)
  else .refused .capacityExceeded

/-- R183: INIT. `H[j] <- H0_v[j]`. -/
def microInit (s : State) : State :=
  match initialState s.internal.var with
  | .narrow h =>
    advance { s with internal := { s.internal with bank32 := { s.internal.bank32 with H := h } } }
  | .wide h =>
    advance { s with internal := { s.internal with bank64 := { s.internal.bank64 with H := h } } }

/-- R184: FILL. `BLK[k] <- PM[blk*B + k]` for `k` in `[0, B)`. -/
def microFill (s : State) : Outcome :=
  match gather (paddedByte s.internal.var s) (s.seq.blk * blockBytes s.internal.var)
      (blockBytes s.internal.var) with
  | .error r => .refused r
  | .ok bs => .next (advance { s with internal := { s.internal with BLK := bs } })

/-- R158: PACK. -/
def microPack (s : State) : State := advance (onBank (fun _ b => bankPack s.internal.BLK b) s)

/-- R159: SCHED `t`. -/
def microSched (s : State) : State := advance (onBank (fun c b => bankSched c s.seq.t b) s)

/-- R160: LOAD. -/
def microLoad (s : State) : State := advance (onBank (fun _ b => bankLoad b) s)

/-- R161: ROUND `t`. -/
def microRound (s : State) : State := advance (onBank (fun c b => bankRound c s.seq.t b) s)

/-- R162: FOLD. -/
def microFold (s : State) : State := advance (onBank (fun _ b => bankFold b) s)

/-- R186: the `D` bytes that TRUNC takes from `H[0..7]`. -/
def resultBytes (s : State) : List Byte :=
  match wordClass s.internal.var with
  | .narrow => truncBytes (digestBytes s.internal.var) s.internal.bank32.H
  | .wide => truncBytes (digestBytes s.internal.var) s.internal.bank64.H

/-- R189, R214: the next digest computation of the same command begins. -/
def beginPass (p : Pass) (s : State) : State :=
  { s with internal := { s.internal with pass := p }, seq := ⟨.check, 0, 0⟩ }

/-- R186, R190, R212, R214: TRUNC. The digest goes to `DIGEST`, which ends the command, or to `KP` with zeros behind it,
or to `INNER`, and the next pass begins. -/
def microTrunc (s : State) : State :=
  match s.internal.pass with
  | .plain => succeed (resultBytes s) s
  | .keyHash =>
    beginPass .innerPass { s with internal := { s.internal with
      KP := resultBytes s ++ zeros (blockBytes s.internal.var - digestBytes s.internal.var) } }
  | .innerPass =>
    beginPass .outerPass { s with internal := { s.internal with INNER := resultBytes s } }
  | .outerPass => succeed (resultBytes s) s

/-- R45: one move of the engine: the micro-operation the sequencer names. Idle, the engine does nothing (R258). -/
def engineStep (s : State) : Outcome :=
  match s.seq.phase with
  | .idle => .next s
  | .check => microCheck s
  | .init => .next (microInit s)
  | .fill => microFill s
  | .pack => .next (microPack s)
  | .sched => .next (microSched s)
  | .load => .next (microLoad s)
  | .round => .next (microRound s)
  | .fold => .next (microFold s)
  | .trunc => .next (microTrunc s)

/-- `k` moves of the engine; a refusal ends them. -/
def runEngine : Nat → State → Outcome
  | 0, s => .next s
  | k + 1, s =>
    match engineStep s with
    | .next s' => runEngine k s'
    | .fault r => .fault r
    | .refused r => .refused r

/-- R157, R281: the micro-operations of one block: FILL, and one compression, which is PACK, `R - 16` times SCHED, LOAD,
`R` times ROUND, and FOLD. -/
def opsPerBlock (v : Variant) : Nat := 1 + (1 + (rounds v - 16) + 1 + rounds v + 1)

/-- R281: the micro-operations of one digest computation on a stream of `n` bytes: CHECK, INIT, the blocks, TRUNC. -/
def opsOfDigest (v : Variant) (n : Nat) : Nat := 2 + blockCount v n * opsPerBlock v + 1

/-- R281, R282: the micro-operations of a command, a function of the lengths alone: those of its digest computations, and
CHECK alone when that ends it with MessageTooLong. -/
def opsOfCommand (op : Operation) (v : Variant) (s : State) : Nat :=
  if commandTooLong op v s then 1
  else ((commandPasses op v s).map fun p => opsOfDigest v (passLen v s p)).sum

/-- R91, R100: an accepted command begins: the fields of the command word are held, the first pass is named, and the
sequencer stands at CHECK. -/
def startCommand (op : Operation) (v : Variant) (s : State) : State :=
  { s with internal := { s.internal with opr := op, var := v, pass := firstPass op v s },
           seq := ⟨.check, 0, 0⟩ }

/-- R91, R100: the command `op` with variant `v`, from its decoding to its end. The variant is tested first (R245). -/
def runCommand (op : Operation) (v : Variant) (s : State) : Outcome :=
  if isEnabled s.params v then runEngine (opsOfCommand op v s) (startCommand op v s)
  else .next (raise .unsupportedVariant s)

end Sys2Proof.Machine
end

