-- ==== Sys2Proof/Machine/Hash.lean ====
section
/-! DEFINITION. The six HASH commands (R190 to R196): `HASH(v)` with the variant of the row. -/

namespace Sys2Proof.Machine

/-- R191: `HASH.SHA224`, `HASH(v)` with `v = 0`. -/
def execHashSha224 (s : State) : Outcome := runCommand .hash .sha224 s

/-- R192: `HASH.SHA256`, `HASH(v)` with `v = 1`. -/
def execHashSha256 (s : State) : Outcome := runCommand .hash .sha256 s

/-- R193: `HASH.SHA384`, `HASH(v)` with `v = 2`. -/
def execHashSha384 (s : State) : Outcome := runCommand .hash .sha384 s

/-- R194: `HASH.SHA512`, `HASH(v)` with `v = 3`. -/
def execHashSha512 (s : State) : Outcome := runCommand .hash .sha512 s

/-- R195: `HASH.SHA512_224`, `HASH(v)` with `v = 4`. -/
def execHashSha512_224 (s : State) : Outcome := runCommand .hash .sha512_224 s

/-- R196: `HASH.SHA512_256`, `HASH(v)` with `v = 5`. -/
def execHashSha512_256 (s : State) : Outcome := runCommand .hash .sha512_256 s

end Sys2Proof.Machine
end

