-- ==== Sys2Proof/Machine/Hmac.lean ====
section
/-! DEFINITION. The six HMAC commands (R217 to R223): `HMAC(v)` with the variant of the row. -/

namespace Sys2Proof.Machine

/-- R218: `HMAC.SHA224`, `HMAC(v)` with `v = 0`. -/
def execHmacSha224 (s : State) : Outcome := runCommand .hmac .sha224 s

/-- R219: `HMAC.SHA256`, `HMAC(v)` with `v = 1`. -/
def execHmacSha256 (s : State) : Outcome := runCommand .hmac .sha256 s

/-- R220: `HMAC.SHA384`, `HMAC(v)` with `v = 2`. -/
def execHmacSha384 (s : State) : Outcome := runCommand .hmac .sha384 s

/-- R221: `HMAC.SHA512`, `HMAC(v)` with `v = 3`. -/
def execHmacSha512 (s : State) : Outcome := runCommand .hmac .sha512 s

/-- R222: `HMAC.SHA512_224`, `HMAC(v)` with `v = 4`. -/
def execHmacSha512_224 (s : State) : Outcome := runCommand .hmac .sha512_224 s

/-- R223: `HMAC.SHA512_256`, `HMAC(v)` with `v = 5`. -/
def execHmacSha512_256 (s : State) : Outcome := runCommand .hmac .sha512_256 s

end Sys2Proof.Machine
end

