-- ==== Sys2Proof/Machine/Dispatch.lean ====
section
/-! DEFINITION. The dispatch: one arm per command of the opcode table (R95, R100). -/

namespace Sys2Proof.Machine

def exec (i : Instr) (s : State) : Host.Outcome State Fault Refusal :=
  match i with
  | .hashSha224 => Sys2Proof.Machine.execHashSha224 s
  | .hashSha256 => Sys2Proof.Machine.execHashSha256 s
  | .hashSha384 => Sys2Proof.Machine.execHashSha384 s
  | .hashSha512 => Sys2Proof.Machine.execHashSha512 s
  | .hashSha512_224 => Sys2Proof.Machine.execHashSha512_224 s
  | .hashSha512_256 => Sys2Proof.Machine.execHashSha512_256 s
  | .hmacSha224 => Sys2Proof.Machine.execHmacSha224 s
  | .hmacSha256 => Sys2Proof.Machine.execHmacSha256 s
  | .hmacSha384 => Sys2Proof.Machine.execHmacSha384 s
  | .hmacSha512 => Sys2Proof.Machine.execHmacSha512 s
  | .hmacSha512_224 => Sys2Proof.Machine.execHmacSha512_224 s
  | .hmacSha512_256 => Sys2Proof.Machine.execHmacSha512_256 s

end Sys2Proof.Machine
end

