-- ==== Sys2Proof/Machine/Transactions.lean ====
section
/-! DEFINITION. The host's transactions (R21), a closed list: each with its effect, what it returns, and the range of its
argument outside which it does not exist and is refused. The pseudo-instructions of host scripts (R102) stand after
them: each expands to plain transactions and the engine knows none of them. -/

namespace Sys2Proof.Machine

/-- R21: the transaction returns `r` and has no other effect. -/
def replyWith (r : Reply) (s : State) : Outcome := .next { s with reply := r }

/-- R21, R65, R66: `RD_MSG`, `RD_KEY`, `RD_DIGEST`: the byte at index `a` of a space is returned; nothing changes. -/
def readTransaction (sp : Space) (a : Nat) (s : State) : Outcome :=
  match memRead sp a s with
  | .ok b => replyWith (.byte b) s
  | .error r => .refused r

/-- R21, R67: `WR_MSG`, `WR_KEY`: the byte is written at an index below the capacity. -/
def writeTransaction (sp : Space) (a : Nat) (b : Byte) (s : State) : Outcome :=
  if a < spaceCap sp s then .next (memWrite sp a b s) else .refused .indexOutOfRange

/-- R21, R24: `WR_MSG_LEN(v)`. -/
def writeMsgLen (v : Nat) (s : State) : Outcome :=
  if v < 2 ^ 64 then .next { s with msgLen := BitVec.ofNat 64 v } else .refused .lengthOutOfRange

/-- R21, R25: `WR_KEY_LEN(v)`. -/
def writeKeyLen (v : Nat) (s : State) : Outcome :=
  if v < 2 ^ 64 then .next { s with keyLen := BitVec.ofNat 64 v } else .refused .lengthOutOfRange

/-- R91, R96, R100: `CMD(c)`: the engine runs the command `c` names, from its first micro-operation to its last. A
reserved word is a command that fails with UnsupportedVariant; `c >= 16` does not exist. -/
def commandTransaction (c : Nat) (s : State) : Outcome :=
  match decodeWord c with
  | .ok i => exec i s
  | .error (.reservedVariant _ _) => .next (raise .unsupportedVariant s)
  | .error (.notACommandWord _) => .refused .commandOutOfRange

/-- R270, R271: `RESET`: the state of R50; the parameters are unchanged. The transactions still pending are the host's and
are kept, and so is the count of free values drawn. -/
def resetTransaction (s : State) : Outcome :=
  .next { State.powerOn s.params with pending := s.pending, draws := s.draws }

/-- R21: one transaction. -/
def transact (x : Transaction) (s : State) : Outcome :=
  match x with
  | .wrMsg i b => writeTransaction .msg i b s
  | .rdMsg i => readTransaction .msg i s
  | .wrKey i b => writeTransaction .key i b s
  | .rdKey i => readTransaction .key i s
  | .wrMsgLen v => writeMsgLen v s
  | .rdMsgLen => replyWith (.length s.msgLen) s
  | .wrKeyLen v => writeKeyLen v s
  | .rdKeyLen => replyWith (.length s.keyLen) s
  | .cmd c => commandTransaction c s
  | .rdStatus => replyWith (.status s.status) s
  | .rdCaps => replyWith (.caps (capsOf s.params)) s
  | .rdDigestLen => replyWith (.digestLen s.digestLen) s
  | .rdDigest j => readTransaction .digest j s
  | .reset => resetTransaction s

/-- R31: the number of the register, space or port that a transaction uses; it is only a name. `RESET` uses none. -/
def portOf : Transaction → Option Nat
  | .cmd _ => some 0
  | .rdStatus => some 1
  | .rdCaps => some 2
  | .wrMsgLen _ => some 3
  | .rdMsgLen => some 3
  | .wrKeyLen _ => some 4
  | .rdKeyLen => some 4
  | .rdDigestLen => some 5
  | .wrMsg _ _ => some 6
  | .rdMsg _ => some 6
  | .wrKey _ _ => some 7
  | .rdKey _ => some 7
  | .rdDigest _ => some 8
  | .reset => none

/-- R75, R258, R275: one step: the next transaction of the host takes effect. While a command runs the host has no move;
with no transaction pending the engine is idle and holds its state. -/
def hostStep (s : State) : Outcome :=
  if s.seq.phase = .idle then
    match s.pending with
    | [] => .next s
    | x :: rest => transact x { s with pending := rest, reply := .nothing }
  else .refused .commandRunning

/-- The host's script with command word `w` as its next transaction. -/
def scriptWith (w : Nat) (script : List Transaction) : List Transaction := .cmd w :: script

/-- R102: `WR_MSG(i, s[0])`, `WR_MSG(i+1, s[1])`, … -/
def writeMsgFrom : Nat → List Byte → List Transaction
  | _, [] => []
  | i, b :: bs => .wrMsg i b :: writeMsgFrom (i + 1) bs

/-- R102: `WR_KEY(i, s[0])`, `WR_KEY(i+1, s[1])`, … -/
def writeKeyFrom : Nat → List Byte → List Transaction
  | _, [] => []
  | i, b :: bs => .wrKey i b :: writeKeyFrom (i + 1) bs

/-- R102: `LDMSG s`. -/
def ldMsg (bs : List Byte) : List Transaction := writeMsgFrom 0 bs ++ [.wrMsgLen bs.length]

/-- R102: `LDKEY s`. -/
def ldKey (bs : List Byte) : List Transaction := writeKeyFrom 0 bs ++ [.wrKeyLen bs.length]

/-- R102: `HASH.x`, `HMAC.x`. -/
def issue (i : Instr) : List Transaction := [.cmd (encode i).toNat]

/-- R102: `RDDIGEST`, where `RD_DIGEST_LEN` gives `k`. -/
def rdDigestAll (k : Nat) : List Transaction := .rdDigestLen :: (List.range k).map .rdDigest

/-- R102: `MOVDK`, where the digest read is `d`: for each `j`, `RD_DIGEST(j)` giving `d[j]`, then `WR_KEY(j, d[j])`. -/
def movDigestToKey (d : List Byte) : List Transaction :=
  .rdDigestLen ::
    ((List.range d.length).flatMap fun j => [.rdDigest j, .wrKey j (d.getD j 0)]) ++ [.wrKeyLen d.length]

end Sys2Proof.Machine
end

