-- ==== Sys2Proof/Machine/Step.lean ====
section
/-! DEFINITION. The step of the machine, one transaction of the host (R75, R91), and the placing of a command word where
the next step takes it. -/

namespace Sys2Proof.Machine

/-- One step: the host's next transaction (Machine/Transactions.lean). -/
def step (s : State) : Host.Outcome State Fault Refusal := hostStep s

/-- The state with the command word `w` as the host's next transaction. The engine fetches no instruction: the host hands
over one command word at a time (R45, R78), so nothing but the host's script changes (log entry 3). -/
def State.withFetchWord (s : State) (_nbits w : Nat) : State := { s with pending := scriptWith w s.pending }

end Sys2Proof.Machine
end

