-- ==== Sys2Proof/Machine/Algorithm.lean ====
section
/-! DEFINITION. The digest and the HMAC as mathematical functions of byte sequences, as R181 and R217 write them.
The engine does not call them: it runs the micro-operations of Machine/Engine.lean. Statements compare the two. -/

namespace Sys2Proof.Machine

/-- R145: the padded stream `PM = S || P`. -/
def padded (v : Variant) (S : List Byte) : List Byte := S ++ padding v S.length

/-- R184: block number `blk` of the padded stream, `PM[blk*B .. blk*B + B)`. -/
def streamBlock (v : Variant) (S : List Byte) (blk : Nat) : List Byte :=
  slice (padded v S) (blk * blockBytes v) (blockBytes v)

/-- R185: the state after the blocks `0` to `k - 1`, from the state `H`. -/
def foldBlocks {w : Nat} (c : CoreConsts w) (v : Variant) (S : List Byte) (H : Eight w) : Nat → Eight w
  | 0 => H
  | k + 1 => compress c (rounds v) (foldBlocks c v S H k) (streamBlock v S k)

/-- R181: `trunc_D(fold over the blocks of PM, from H0_v, of Compress_v)`: the digest of an accepted stream. -/
def digestOf (v : Variant) (S : List Byte) : List Byte :=
  match initialState v with
  | .narrow h => (outputBytes (foldBlocks core32 v S h (blockCount v S.length))).take (digestBytes v)
  | .wide h => (outputBytes (foldBlocks core64 v S h (blockCount v S.length))).take (digestBytes v)

/-- R180, R181: `Digest_v(S)`: the digest, or MessageTooLong. -/
def digestFn (v : Variant) (S : List Byte) : Except Err (List Byte) :=
  if tooLong S.length then .error .messageTooLong else .ok (digestOf v S)

/-- R212: `K'`, exactly `B` bytes: the key, or its digest when it is longer than a block, with zeros at the end. -/
def derivedKey (v : Variant) (key : List Byte) : List Byte :=
  if blockBytes v < key.length then digestOf v key ++ zeros (blockBytes v - digestBytes v)
  else key ++ zeros (blockBytes v - key.length)

/-- R213, R214: `Digest_v((K' xor opad) || Digest_v((K' xor ipad) || m))`, for an accepted key and message. -/
def hmacOf (v : Variant) (key m : List Byte) : List Byte :=
  digestOf v (xorByte 0x5c#8 (derivedKey v key) ++ digestOf v (xorByte 0x36#8 (derivedKey v key) ++ m))

/-- R215, R217: `Hmac_v(key, m)`: the digest, or MessageTooLong when the key is to be hashed and is too long or the
inner stream is too long. -/
def hmacFn (v : Variant) (key m : List Byte) : Except Err (List Byte) :=
  if (decide (blockBytes v < key.length) && tooLong key.length) || tooLong (blockBytes v + m.length) then
    .error .messageTooLong
  else .ok (hmacOf v key m)

end Sys2Proof.Machine
end

