-- ==== Sys2Proof/Machine/Reference.lean ====
section
/-! DEFINITION. What a command does, as one function of the state before it, without the engine's micro-operations: the
pseudocode of R190 (HASH) and R217 (HMAC) with the decode of R100, the error entry of R246 and the cases the spec gives
no step (R64, R65). `exec` does not use it; statements say that the two agree. -/

namespace Sys2Proof.Machine

/-- R61: the message `MSG[0..MSG_LEN)`, when every byte of it holds a value. -/
def messageOf (s : State) : Except Refusal (List Byte) := gather (fun j => memRead .msg j s) 0 (msgBytes s)

/-- R62: the key `KEY[0..KEY_LEN)`, when every byte of it holds a value. -/
def keyOf (s : State) : Except Refusal (List Byte) := gather (fun j => memRead .key j s) 0 (keyBytes s)

/-- R190: `HASH(v)`, from decoding to end. -/
def hashReference (v : Variant) (s : State) : Outcome :=
  if isEnabled s.params v = false then .next (raise .unsupportedVariant s)
  else if tooLong (msgBytes s) then .next (raise .messageTooLong s)
  else if s.params.msgCap < msgBytes s then .refused .capacityExceeded
  else
    match messageOf s with
    | .ok m => .next (succeed (digestOf v m) s)
    | .error r => .refused r

/-- R217: `HMAC(v)`, from decoding to end. -/
def hmacReference (v : Variant) (s : State) : Outcome :=
  if isEnabled s.params v = false then .next (raise .unsupportedVariant s)
  else if (blockBytes v < keyBytes s ∧ tooLong (keyBytes s)) ∨ tooLong (blockBytes v + msgBytes s) then
    .next (raise .messageTooLong s)
  else if s.params.msgCap < msgBytes s ∨ s.params.keyCap < keyBytes s then .refused .capacityExceeded
  else
    match keyOf s, messageOf s with
    | .ok k, .ok m => .next (succeed (hmacOf v k m) s)
    | .error r, _ => .refused r
    | .ok _, .error r => .refused r

end Sys2Proof.Machine
end

