-- ==== Sys2Proof/Safety.lean ====
section
/-! DEFINITION. What counts as a safe run, in the words statements use: the host's duties before a command (R259, R274), how
a command ends (R190, R217, R246), what no command changes (R32), on what its result may depend (R48), and the invariant
that every step keeps. -/

namespace Sys2Proof.Machine

/-- R61, R64, R65: `m` is the message of a command: it has `MSG_LEN` bytes, it fits, and `MSG[j]` holds byte `j` of it. -/
def holdsMessage (s : State) (m : List Byte) : Prop :=
  m.length = msgBytes s ∧ msgBytes s ≤ s.params.msgCap ∧ ∀ j, j < m.length → Memory.read s.msg j = m[j]?

/-- R62, R64, R65: `k` is the key of an HMAC command. -/
def holdsKey (s : State) (k : List Byte) : Prop :=
  k.length = keyBytes s ∧ keyBytes s ≤ s.params.keyCap ∧ ∀ j, j < k.length → Memory.read s.key j = k[j]?

/-- R259, R274: the host has met its duties towards the message, and for HMAC towards the key. -/
def inputsReady (op : Operation) (s : State) : Prop :=
  (∃ m, holdsMessage s m) ∧ (op = .hmac → ∃ k, holdsKey s k)

/-- R190, R217: the state after a command that succeeds with digest `dg`: `DIGEST` holds it and nothing else,
`DIGEST_LEN` is its length, `STATUS` is `0b100`. -/
def delivers (t : State) (dg : List Byte) : Prop :=
  t.status = 0b100#3 ∧ t.digestLen.toNat = dg.length ∧ ∀ j, Memory.read t.digest j = dg[j]?

/-- R241, R246: the state after a command that raises `e`: the code in `STATUS.ERR`, `VALID = 0`, no digest. -/
def failedWith (t : State) (e : Err) : Prop :=
  t.status = (match e with
    | .messageTooLong => 0b001#3
    | .unsupportedVariant => 0b010#3) ∧
  t.digestLen = 0#7 ∧ ∀ j, Memory.read t.digest j = none

/-- R32, R190, R217, R246: what a command leaves as it was, and that the engine is idle after it. That `pending` and `reply`
are among it is the model's bookkeeping (log entry 3). -/
def commandFrame (s t : State) : Prop :=
  (∀ a, Memory.read t.msg a = Memory.read s.msg a) ∧ (∀ a, Memory.read t.key a = Memory.read s.key a) ∧
  t.msg = s.msg ∧ t.key = s.key ∧ t.msgLen = s.msgLen ∧ t.keyLen = s.keyLen ∧ t.params = s.params ∧
  t.pending = s.pending ∧ t.reply = s.reply ∧ t.seq = Sequencer.idle

/-- R48: the states agree on everything that the result of a command may depend on: `ENABLED` and the capacities, the
message, and for HMAC the key. A byte that holds no value in one holds none in the other. -/
def sameInputs (op : Operation) (s t : State) : Prop :=
  t.params = s.params ∧ t.msgLen = s.msgLen ∧ (∀ j, j < msgBytes s → Memory.read t.msg j = Memory.read s.msg j) ∧
  (op = .hmac → t.keyLen = s.keyLen ∧ ∀ j, j < keyBytes s → Memory.read t.key j = Memory.read s.key j)

/-- R26, R28: the host sees the same result in both states. -/
def sameResult (s t : State) : Prop :=
  t.status = s.status ∧ t.digestLen = s.digestLen ∧ ∀ j, Memory.read t.digest j = Memory.read s.digest j

/-- R64, R65, R190: outside the rules, `HASH(v)` past its checks has no step: a message that does not fit its space, or that
has a byte that was not written. The spec says that there is no step; the names of the reasons, and that the capacity is
looked at first, are the model's (log entry 17). -/
def hashOutsideRules (v : Variant) : Prop :=
  (∀ s : State, isEnabled s.params v = true → msgBytes s < 2 ^ 58 → s.params.msgCap < msgBytes s →
    exec (instrOf .hash v) s = .refused .capacityExceeded) ∧
  (∀ (s : State) (j : Nat), isEnabled s.params v = true → msgBytes s < 2 ^ 58 → msgBytes s ≤ s.params.msgCap →
    j < msgBytes s → Memory.read s.msg j = none → exec (instrOf .hash v) s = .refused .unwrittenByte)

/-- R64, R65, R217: the same of `HMAC(v)`, for the message and the key (names and order: log entry 17). -/
def hmacOutsideRules (v : Variant) : Prop :=
  (∀ s : State, isEnabled s.params v = true → keyBytes s < 2 ^ 58 → blockBytes v + msgBytes s < 2 ^ 58 →
    s.params.msgCap < msgBytes s ∨ s.params.keyCap < keyBytes s → exec (instrOf .hmac v) s = .refused .capacityExceeded) ∧
  (∀ (s : State) (j : Nat), isEnabled s.params v = true → keyBytes s < 2 ^ 58 → blockBytes v + msgBytes s < 2 ^ 58 →
    msgBytes s ≤ s.params.msgCap → keyBytes s ≤ s.params.keyCap →
    (j < msgBytes s ∧ Memory.read s.msg j = none) ∨ (j < keyBytes s ∧ Memory.read s.key j = none) →
    exec (instrOf .hmac v) s = .refused .unwrittenByte)

/-- R27, R28: the legal pairs of `STATUS` and `DIGEST_LEN`. -/
def legalResult (status : BitVec 3) (digestLen : BitVec 7) : Prop :=
  (status = 0b000#3 ∧ digestLen = 0#7) ∨ (status = 0b001#3 ∧ digestLen = 0#7) ∨ (status = 0b010#3 ∧ digestLen = 0#7) ∨
  (status = 0b100#3 ∧ (digestLen = 28#7 ∨ digestLen = 32#7 ∨ digestLen = 48#7 ∨ digestLen = 64#7))

/-- What holds at reset and after every step: the parameters are legal (R9, R10), the three spaces have their canonical
form and hold bytes only at indices that exist (R29, R61, R62), `DIGEST` is readable exactly below `DIGEST_LEN` (R29, R63),
`STATUS` and `DIGEST_LEN` are a legal pair (R27, R28), and no command is running (R45, R91). -/
structure Inv (s : State) : Prop where
  params_wf : s.params.wf = true
  msg_wf : Memory.wf s.msg = true
  key_wf : Memory.wf s.key = true
  digest_wf : Memory.wf s.digest = true
  msg_below : ∀ a, (Memory.read s.msg a).isSome = true → a < s.params.msgCap
  key_below : ∀ a, (Memory.read s.key a).isSome = true → a < s.params.keyCap
  digest_exact : ∀ j, (Memory.read s.digest j).isSome = true ↔ j < s.digestLen.toNat
  result_legal : legalResult s.status s.digestLen
  idle : s.seq = Sequencer.idle

/-- R190, R216: `S` is the stream of the pass in progress: the message, the key, or the derived key xor a pad with the
message or the inner digest behind it. -/
def holdsStream (s : State) (S : List Byte) : Prop :=
  match s.internal.pass with
  | .plain => holdsMessage s S
  | .keyHash => holdsKey s S
  | .innerPass => s.internal.KP.length = blockBytes s.internal.var ∧
      ∃ m, holdsMessage s m ∧ S = xorByte 0x36#8 s.internal.KP ++ m
  | .outerPass => s.internal.KP.length = blockBytes s.internal.var ∧
      s.internal.INNER.length = digestBytes s.internal.var ∧ S = xorByte 0x5c#8 s.internal.KP ++ s.internal.INNER

/-- R184: the next micro-operation copies block `blk` of the padded stream `PM` to `BLK`, names PACK next, and changes
nothing else. -/
def fillsBlock (s : State) (blk : Nat) (PM : List Byte) : Prop :=
  ∃ u, engineStep s = .next u ∧ u.seq = ⟨.pack, blk, 0⟩ ∧
    { u with internal := { u.internal with BLK := s.internal.BLK }, seq := s.seq } = s ∧
    u.internal.BLK.length = blockBytes s.internal.var ∧
    ∀ k, k < blockBytes s.internal.var → u.internal.BLK[k]? = PM[blk * blockBytes s.internal.var + k]?

/-- R45: the sequencer is within its bounds, while a command runs: `blk` below the number of blocks of the pass from FILL to
FOLD, `t` from 16 to `R - 1` in SCHED and from 0 to `R - 1` in ROUND, `blk = NB - 1` in TRUNC. -/
def sequencerInBounds (s : State) : Prop :=
  match s.seq.phase with
  | .idle => s.seq = Sequencer.idle
  | .check => s.seq.blk = 0 ∧ s.seq.t = 0
  | .init => s.seq.blk = 0 ∧ s.seq.t = 0
  | .fill => s.seq.blk < passBlocks s.internal.var s ∧ s.seq.t = 0
  | .pack => s.seq.blk < passBlocks s.internal.var s ∧ s.seq.t = 0
  | .sched => s.seq.blk < passBlocks s.internal.var s ∧ 16 ≤ s.seq.t ∧ s.seq.t < rounds s.internal.var
  | .load => s.seq.blk < passBlocks s.internal.var s ∧ s.seq.t = 0
  | .round => s.seq.blk < passBlocks s.internal.var s ∧ s.seq.t < rounds s.internal.var
  | .fold => s.seq.blk < passBlocks s.internal.var s ∧ s.seq.t = 0
  | .trunc => s.seq.blk + 1 = passBlocks s.internal.var s ∧ s.seq.t = 0

end Sys2Proof.Machine
end

