-- ==== Sys2Proof/Certificates/Slice0/Obligations.lean ====
section
/-! DEFINITION. The statements, in the order of OBLIGATIONS.json. A statement that has hypotheses has a witness in
Sys2Proof/Tests/Slice0.lean, under the name `witness_<Name>`. -/

open Sys2Proof Sys2Proof.Machine

/-! ## Encoding (30_encoding.md) -/

/-- R92, R93, R94, R95: the two fields of a command word and `c = OP*8 + VAR`; the codes of the variants, of which 6 and 7 name none;
the sixteen words: the twelve rows of the opcode map by match and mask, and the four reserved words. -/
def Obligations.OpcodeMapDecodes : Prop :=
  (∀ c : BitVec 4, c.toNat = 8 * (opBit (opField c)).toNat + (varField c).toNat) ∧
  (∀ c : BitVec 4, opField c = .hmac ↔ c.getLsbD 3 = true) ∧
  (∀ c : BitVec 4, (varField c).toNat = c.toNat % 8) ∧
  (∀ i : Instr, opField (encode i) = operationOf i ∧ varField (encode i) = codeOf (variantOf i)) ∧
  variantOfCode 0b000#3 = some .sha224 ∧ variantOfCode 0b001#3 = some .sha256 ∧ variantOfCode 0b010#3 = some .sha384 ∧
  variantOfCode 0b011#3 = some .sha512 ∧ variantOfCode 0b100#3 = some .sha512_224 ∧
  variantOfCode 0b101#3 = some .sha512_256 ∧ variantOfCode 0b110#3 = none ∧ variantOfCode 0b111#3 = none ∧
  (∀ (c : BitVec 4) (i : Instr), decode c = .ok i ↔ ∃ r ∈ opcodeMap, r.instr = i ∧ c &&& r.mask = r.pattern) ∧
  opcodeMap.length = 12 ∧ (∀ r ∈ opcodeMap, r.mask = 0xF#4) ∧
  decode 0x0#4 = .ok .hashSha224 ∧ decode 0x1#4 = .ok .hashSha256 ∧ decode 0x2#4 = .ok .hashSha384 ∧
  decode 0x3#4 = .ok .hashSha512 ∧ decode 0x4#4 = .ok .hashSha512_224 ∧ decode 0x5#4 = .ok .hashSha512_256 ∧
  decode 0x6#4 = .error (.reservedVariant .hash 6#3) ∧ decode 0x7#4 = .error (.reservedVariant .hash 7#3) ∧
  decode 0x8#4 = .ok .hmacSha224 ∧ decode 0x9#4 = .ok .hmacSha256 ∧ decode 0xA#4 = .ok .hmacSha384 ∧
  decode 0xB#4 = .ok .hmacSha512 ∧ decode 0xC#4 = .ok .hmacSha512_224 ∧ decode 0xD#4 = .ok .hmacSha512_256 ∧
  decode 0xE#4 = .error (.reservedVariant .hmac 6#3) ∧ decode 0xF#4 = .error (.reservedVariant .hmac 7#3)

/-- R90, R95: decoding and encoding agree on every natural number: a word decodes to a command exactly when it is that
command's word, and every other number is rejected by name. -/
def Obligations.DecodeAndEncodeAgree : Prop :=
  (∀ (c : Nat) (i : Instr), decodeWord c = .ok i ↔ c = (encode i).toNat) ∧
  (∀ c : Nat, decodeWord c = .error (.notACommandWord c) ↔ 16 ≤ c) ∧
  (∀ (c : Nat) (op : Operation) (x : BitVec 3),
    decodeWord c = .error (.reservedVariant op x) ↔ c = 8 * (opBit op).toNat + x.toNat ∧ 6 ≤ x.toNat)

/-! ## The step and the host's transactions (10_state.md, 20_memory.md) -/

/-- R75, R91, R100: with the engine idle, a step takes the host's next transaction; when that is `CMD(c)` and `c` decodes to `i`,
the step is `exec i`. The model's own bookkeeping around it (log entry 3): the transaction leaves `pending`, and `reply` is
cleared first. -/
def Obligations.StepRunsTheDecodedCommand : Prop :=
  (∀ (s : State) (c : Nat) (rest : List Transaction) (i : Instr), s.seq.phase = .idle → s.pending = .cmd c :: rest →
    decodeWord c = .ok i → step s = exec i { s with pending := rest, reply := .nothing }) ∧
  (∀ (s : State) (x : Transaction) (rest : List Transaction), s.seq.phase = .idle → s.pending = x :: rest →
    step s = transact x { s with pending := rest, reply := .nothing }) ∧
  (∀ (s : State) (nbits : Nat) (i : Instr), s.seq.phase = .idle →
    step (s.withFetchWord nbits (encode i).toNat) = exec i { s with reply := .nothing })

/-- R258: with no transaction pending an idle engine holds its state; R275: while a command runs the host has no move. (That the
one is a step without change and the other a refusal is read from these rules: log entries 8, 9.) -/
def Obligations.IdleHoldsAndRunningBlocks : Prop :=
  (∀ s : State, s.seq.phase = .idle → s.pending = [] → step s = .next s) ∧
  (∀ s : State, s.seq.phase ≠ .idle → step s = .refused .commandRunning)

/-- R21: the table of transactions: the effect and the return value of each, and the arguments outside which it is refused. (What
`CMD` does for each command is stated by the statements on commands.) -/
def Obligations.TransactionTable : Prop :=
  (∀ (s : State) (i : Nat) (b : Byte),
    transact (.wrMsg i b) s =
      if i < s.params.msgCap then .next { s with msg := Memory.write s.msg i b } else .refused .indexOutOfRange) ∧
  (∀ (s : State) (i : Nat) (b : Byte),
    transact (.wrKey i b) s =
      if i < s.params.keyCap then .next { s with key := Memory.write s.key i b } else .refused .indexOutOfRange) ∧
  (∀ (s : State) (i : Nat) (b : Byte), i < s.params.msgCap → Memory.read s.msg i = some b →
    transact (.rdMsg i) s = .next { s with reply := .byte b }) ∧
  (∀ (s : State) (i : Nat), s.params.msgCap ≤ i → transact (.rdMsg i) s = .refused .indexOutOfRange) ∧
  (∀ (s : State) (i : Nat) (b : Byte), i < s.params.keyCap → Memory.read s.key i = some b →
    transact (.rdKey i) s = .next { s with reply := .byte b }) ∧
  (∀ (s : State) (i : Nat), s.params.keyCap ≤ i → transact (.rdKey i) s = .refused .indexOutOfRange) ∧
  (∀ (s : State) (v : BitVec 64),
    transact (.wrMsgLen v.toNat) s = .next { s with msgLen := v } ∧
    transact (.wrKeyLen v.toNat) s = .next { s with keyLen := v }) ∧
  (∀ (s : State) (v : Nat), 2 ^ 64 ≤ v →
    transact (.wrMsgLen v) s = .refused .lengthOutOfRange ∧ transact (.wrKeyLen v) s = .refused .lengthOutOfRange) ∧
  (∀ s : State,
    transact .rdMsgLen s = .next { s with reply := .length s.msgLen } ∧
    transact .rdKeyLen s = .next { s with reply := .length s.keyLen } ∧
    transact .rdStatus s = .next { s with reply := .status s.status } ∧
    transact .rdCaps s = .next { s with reply := .caps (capsOf s.params) } ∧
    transact .rdDigestLen s = .next { s with reply := .digestLen s.digestLen }) ∧
  (∀ (s : State) (j : Nat) (b : Byte), j < s.digestLen.toNat → Memory.read s.digest j = some b →
    transact (.rdDigest j) s = .next { s with reply := .byte b }) ∧
  (∀ (s : State) (j : Nat), s.digestLen.toNat ≤ j → transact (.rdDigest j) s = .refused .indexOutOfRange) ∧
  (∀ (s : State) (i : Instr), transact (.cmd (encode i).toNat) s = exec i s) ∧
  (∀ (s : State) (c : Nat), 16 ≤ c → transact (.cmd c) s = .refused .commandOutOfRange)

/-- R21: no transaction but `CMD` and `RESET` changes `STATUS`, `CAPS`, `DIGEST_LEN`, `DIGEST` or any internal register, none at
all changes the parameters, and none but the writes and `RESET` changes `MSG`, `KEY` or the lengths. That no transaction, `CMD` and
`RESET` included, changes `pending` is the model's bookkeeping, not the spec's (log entries 3, 14). -/
def Obligations.TransactionsLeaveTheResultAlone : Prop :=
  (∀ (x : Transaction) (s t : State), (∀ c, x ≠ .cmd c) → x ≠ .reset → transact x s = .next t →
    t.status = s.status ∧ t.digestLen = s.digestLen ∧ (∀ j, Memory.read t.digest j = Memory.read s.digest j) ∧
    t.internal = s.internal ∧ t.seq = s.seq) ∧
  (∀ (x : Transaction) (s t : State), transact x s = .next t → t.params = s.params ∧ t.pending = s.pending) ∧
  (∀ (x : Transaction) (s t : State), (∀ i b, x ≠ .wrMsg i b) → x ≠ .reset → transact x s = .next t →
    ∀ a, Memory.read t.msg a = Memory.read s.msg a) ∧
  (∀ (x : Transaction) (s t : State), (∀ i b, x ≠ .wrKey i b) → x ≠ .reset → transact x s = .next t →
    ∀ a, Memory.read t.key a = Memory.read s.key a) ∧
  (∀ (x : Transaction) (s t : State), (∀ v, x ≠ .wrMsgLen v) → x ≠ .reset → transact x s = .next t →
    t.msgLen = s.msgLen) ∧
  (∀ (x : Transaction) (s t : State), (∀ v, x ≠ .wrKeyLen v) → x ≠ .reset → transact x s = .next t →
    t.keyLen = s.keyLen)

/-- R66, R67: a byte written by `WR_MSG` or `WR_KEY` is the byte that `RD_MSG` or `RD_KEY` of that index returns; every other index of
the space and the other spaces read as before; the other capacity, lengths and registers are untouched. -/
def Obligations.ReadReturnsTheByteLastWritten : Prop :=
  (∀ (s : State) (i : Nat) (b : Byte), i < s.params.msgCap →
    ∃ t, transact (.wrMsg i b) s = .next t ∧ transact (.rdMsg i) t = .next { t with reply := .byte b } ∧
      (∀ j, j ≠ i → memRead .msg j t = memRead .msg j s) ∧ (∀ j, memRead .key j t = memRead .key j s) ∧
      (∀ j, memRead .digest j t = memRead .digest j s) ∧ { t with msg := s.msg } = s) ∧
  (∀ (s : State) (i : Nat) (b : Byte), i < s.params.keyCap →
    ∃ t, transact (.wrKey i b) s = .next t ∧ transact (.rdKey i) t = .next { t with reply := .byte b } ∧
      (∀ j, j ≠ i → memRead .key j t = memRead .key j s) ∧ (∀ j, memRead .msg j t = memRead .msg j s) ∧
      (∀ j, memRead .digest j t = memRead .digest j s) ∧ { t with key := s.key } = s)

/-- R29, R63: `RD_DIGEST(j)` answers exactly for `j < DIGEST_LEN`; after a command that delivers `dg` it answers byte `j` of `dg`. -/
def Obligations.DigestReadableBelowDigestLen : Prop :=
  (∀ (s : State) (j : Nat), Inv s → ((∃ t, transact (.rdDigest j) s = .next t) ↔ j < s.digestLen.toNat)) ∧
  (∀ (s : State) (dg : List Byte) (j : Nat) (b : Byte), delivers s dg → dg[j]? = some b →
    transact (.rdDigest j) s = .next { s with reply := .byte b }) ∧
  (∀ (s : State) (dg : List Byte) (j : Nat), delivers s dg → dg.length ≤ j →
    transact (.rdDigest j) s = .refused .indexOutOfRange)

/-- R50, R271: after `RESET`, and after power-on, of an engine with any parameters: the values that the spec gives, no byte of
`MSG` or `KEY` readable, also one written before, and the parameters unchanged. (Nothing is stated of the internal registers, whose
reset values are the model's choice: log entry 5; that `pending` is kept and `reply` cleared is the model's: log entry 14.) -/
def Obligations.ResetValues : Prop :=
  (∀ s : State, ∃ t, transact .reset s = .next t ∧
    t.status = 0b000#3 ∧ t.digestLen = 0#7 ∧ (∀ j, memRead .digest j t = .error .indexOutOfRange) ∧ t.msgLen = 0#64 ∧
    t.keyLen = 0#64 ∧ (∀ i, Memory.read t.msg i = none) ∧ (∀ i, Memory.read t.key i = none) ∧
    (∀ i, ∀ u, transact (.rdMsg i) t ≠ .next u) ∧ (∀ i, ∀ u, transact (.rdKey i) t ≠ .next u) ∧
    t.seq = Sequencer.idle ∧ t.params = s.params ∧ capsOf t.params = capsOf s.params ∧ t.reply = .nothing ∧
    t.pending = s.pending) ∧
  (∀ p : Params, let t := State.powerOn p
    t.status = 0b000#3 ∧ t.digestLen = 0#7 ∧ (∀ j, memRead .digest j t = .error .indexOutOfRange) ∧ t.msgLen = 0#64 ∧
    t.keyLen = 0#64 ∧ (∀ i, Memory.read t.msg i = none) ∧ (∀ i, Memory.read t.key i = none) ∧
    t.seq = Sequencer.idle ∧ t.params = p)

/-- R50, R273: a command issued straight after reset hashes the empty message, with the empty key for HMAC. (`commandFrame`: of
`pending` and `reply` log entry 3.) -/
def Obligations.FirstCommandAfterReset : Prop :=
  ∀ (p : Params) (v : Variant), isEnabled p v = true →
    (∃ t, exec (instrOf .hash v) (State.powerOn p) = .next t ∧ delivers t (digestOf v []) ∧
      commandFrame (State.powerOn p) t) ∧
    (∃ t, exec (instrOf .hmac v) (State.powerOn p) = .next t ∧ delivers t (hmacOf v [] []) ∧
      commandFrame (State.powerOn p) t)

/-- R30: `CAPS[v]` is 1 exactly when the variant of code `v` is enabled; legal parameters enable at least one; no step changes
`CAPS`. -/
def Obligations.CapsIsConstant : Prop :=
  (∀ (p : Params) (v : Variant), (capsOf p).getLsbD (codeOf v).toNat = true ↔ v ∈ p.enabled) ∧
  (∀ p : Params, p.wf = true → capsOf p ≠ 0#6) ∧
  (∀ s t : State, step s = .next t → t.params = s.params ∧ capsOf t.params = capsOf s.params)

/-! ## The HASH commands (43_digest_engine_hash.md)

In the statements on commands two things are the model's choice, not the spec's: that a command leaves `pending` and `reply` as they
were (in `commandFrame`: log entry 3), and, outside the rules, the names of the refusals and that the capacity is looked at before the
bytes (in `hashOutsideRules`, `hmacOutsideRules`: log entry 17). -/

/-- R191, R190: `HASH.SHA224`. (`pending` and `reply`: log entry 3; names and order of the refusals: log entry 17.) -/
def Obligations.HashSha224Command : Prop :=
  encode .hashSha224 = 0x0#4 ∧ wordBits .sha224 = 32 ∧ blockBytes .sha224 = 64 ∧ rounds .sha224 = 64 ∧
  lenBytes .sha224 = 8 ∧ core32.K = k256 ∧ initialState .sha224 = .narrow h0Sha224 ∧
  (∀ (s : State) (m : List Byte), isEnabled s.params .sha224 = true → holdsMessage s m → m.length < 2 ^ 58 →
    ∃ t, exec .hashSha224 s = .next t ∧ t.status = 0b100#3 ∧ t.digestLen = 28#7 ∧ delivers t (digestOf .sha224 m) ∧
      commandFrame s t) ∧
  (∀ s : State, isEnabled s.params .sha224 = false →
    ∃ t, exec .hashSha224 s = .next t ∧ failedWith t .unsupportedVariant ∧ commandFrame s t) ∧
  (∀ s : State, isEnabled s.params .sha224 = true → 2 ^ 58 ≤ msgBytes s →
    ∃ t, exec .hashSha224 s = .next t ∧ failedWith t .messageTooLong ∧ commandFrame s t) ∧
  hashOutsideRules .sha224 ∧
  digestOf .sha224 [] = beBytes 28 0xd14a028c2a3a2bc9476102bb288234c415a2b01f828ea62ac5b3e42f ∧
  digestOf .sha224 [0x61#8, 0x62#8, 0x63#8] = beBytes 28 0x23097d223405d8228642a477bda255b32aadbce4bda0b3f7e36c9da7

/-- R192, R190: `HASH.SHA256`. (`pending` and `reply`: log entry 3; names and order of the refusals: log entry 17.) -/
def Obligations.HashSha256Command : Prop :=
  encode .hashSha256 = 0x1#4 ∧ wordBits .sha256 = 32 ∧ blockBytes .sha256 = 64 ∧ rounds .sha256 = 64 ∧
  lenBytes .sha256 = 8 ∧ core32.K = k256 ∧ initialState .sha256 = .narrow h0Sha256 ∧
  (∀ (s : State) (m : List Byte), isEnabled s.params .sha256 = true → holdsMessage s m → m.length < 2 ^ 58 →
    ∃ t, exec .hashSha256 s = .next t ∧ t.status = 0b100#3 ∧ t.digestLen = 32#7 ∧ delivers t (digestOf .sha256 m) ∧
      commandFrame s t) ∧
  (∀ s : State, isEnabled s.params .sha256 = false →
    ∃ t, exec .hashSha256 s = .next t ∧ failedWith t .unsupportedVariant ∧ commandFrame s t) ∧
  (∀ s : State, isEnabled s.params .sha256 = true → 2 ^ 58 ≤ msgBytes s →
    ∃ t, exec .hashSha256 s = .next t ∧ failedWith t .messageTooLong ∧ commandFrame s t) ∧
  hashOutsideRules .sha256 ∧
  digestOf .sha256 [0x61#8, 0x62#8, 0x63#8] =
    beBytes 32 0xba7816bf8f01cfea414140de5dae2223b00361a396177a9cb410ff61f20015ad ∧
  digestOf .sha256 [] = beBytes 32 0xe3b0c44298fc1c149afbf4c8996fb92427ae41e4649b934ca495991b7852b855

/-- R193, R190: `HASH.SHA384`. (`pending` and `reply`: log entry 3; names and order of the refusals: log entry 17.) -/
def Obligations.HashSha384Command : Prop :=
  encode .hashSha384 = 0x2#4 ∧ wordBits .sha384 = 64 ∧ blockBytes .sha384 = 128 ∧ rounds .sha384 = 80 ∧
  lenBytes .sha384 = 16 ∧ core64.K = k512 ∧ initialState .sha384 = .wide h0Sha384 ∧
  (∀ (s : State) (m : List Byte), isEnabled s.params .sha384 = true → holdsMessage s m → m.length < 2 ^ 58 →
    ∃ t, exec .hashSha384 s = .next t ∧ t.status = 0b100#3 ∧ t.digestLen = 48#7 ∧ delivers t (digestOf .sha384 m) ∧
      commandFrame s t) ∧
  (∀ s : State, isEnabled s.params .sha384 = false →
    ∃ t, exec .hashSha384 s = .next t ∧ failedWith t .unsupportedVariant ∧ commandFrame s t) ∧
  (∀ s : State, isEnabled s.params .sha384 = true → 2 ^ 58 ≤ msgBytes s →
    ∃ t, exec .hashSha384 s = .next t ∧ failedWith t .messageTooLong ∧ commandFrame s t) ∧
  hashOutsideRules .sha384 ∧
  digestOf .sha384 [0x61#8, 0x62#8, 0x63#8] =
    beBytes 48 0xcb00753f45a35e8bb5a03d699ac65007272c32ab0eded1631a8b605a43ff5bed8086072ba1e7cc2358baeca134c825a7

/-- R194, R190: `HASH.SHA512`. (`pending` and `reply`: log entry 3; names and order of the refusals: log entry 17.) -/
def Obligations.HashSha512Command : Prop :=
  encode .hashSha512 = 0x3#4 ∧ wordBits .sha512 = 64 ∧ blockBytes .sha512 = 128 ∧ rounds .sha512 = 80 ∧
  lenBytes .sha512 = 16 ∧ core64.K = k512 ∧ initialState .sha512 = .wide h0Sha512 ∧
  (∀ (s : State) (m : List Byte), isEnabled s.params .sha512 = true → holdsMessage s m → m.length < 2 ^ 58 →
    ∃ t, exec .hashSha512 s = .next t ∧ t.status = 0b100#3 ∧ t.digestLen = 64#7 ∧ delivers t (digestOf .sha512 m) ∧
      commandFrame s t) ∧
  (∀ s : State, isEnabled s.params .sha512 = false →
    ∃ t, exec .hashSha512 s = .next t ∧ failedWith t .unsupportedVariant ∧ commandFrame s t) ∧
  (∀ s : State, isEnabled s.params .sha512 = true → 2 ^ 58 ≤ msgBytes s →
    ∃ t, exec .hashSha512 s = .next t ∧ failedWith t .messageTooLong ∧ commandFrame s t) ∧
  hashOutsideRules .sha512 ∧
  digestOf .sha512 [0x61#8, 0x62#8, 0x63#8] =
    beBytes 64 0xddaf35a193617abacc417349ae20413112e6fa4e89a97ea20a9eeee64b55d39a2192992a274fc1a836ba3c23a3feebbd454d4423643ce80e2a9ac94fa54ca49f

/-- R195, R190: `HASH.SHA512_224`; the last four bytes of the digest are the high half of `H[3]`.
(`pending` and `reply`: log entry 3; names and order of the refusals: log entry 17.) -/
def Obligations.HashSha512_224Command : Prop :=
  encode .hashSha512_224 = 0x4#4 ∧ wordBits .sha512_224 = 64 ∧ blockBytes .sha512_224 = 128 ∧ rounds .sha512_224 = 80 ∧
  lenBytes .sha512_224 = 16 ∧ core64.K = k512 ∧ initialState .sha512_224 = .wide h0Sha512_224 ∧
  (∀ (s : State) (m : List Byte), isEnabled s.params .sha512_224 = true → holdsMessage s m → m.length < 2 ^ 58 →
    ∃ t, exec .hashSha512_224 s = .next t ∧ t.status = 0b100#3 ∧ t.digestLen = 28#7 ∧
      delivers t (digestOf .sha512_224 m) ∧ commandFrame s t) ∧
  (∀ m : List Byte, (digestOf .sha512_224 m).drop 24 = beBytes 4
    ((foldBlocks core64 .sha512_224 m h0Sha512_224 (blockCount .sha512_224 m.length)).r3.extractLsb' 32 32).toNat) ∧
  (∀ s : State, isEnabled s.params .sha512_224 = false →
    ∃ t, exec .hashSha512_224 s = .next t ∧ failedWith t .unsupportedVariant ∧ commandFrame s t) ∧
  (∀ s : State, isEnabled s.params .sha512_224 = true → 2 ^ 58 ≤ msgBytes s →
    ∃ t, exec .hashSha512_224 s = .next t ∧ failedWith t .messageTooLong ∧ commandFrame s t) ∧
  hashOutsideRules .sha512_224 ∧
  digestOf .sha512_224 [0x61#8, 0x62#8, 0x63#8] =
    beBytes 28 0x4634270f707b6a54daae7530460842e20e37ed265ceee9a43e8924aa

/-- R196, R190: `HASH.SHA512_256`. (`pending` and `reply`: log entry 3; names and order of the refusals: log entry 17.) -/
def Obligations.HashSha512_256Command : Prop :=
  encode .hashSha512_256 = 0x5#4 ∧ wordBits .sha512_256 = 64 ∧ blockBytes .sha512_256 = 128 ∧ rounds .sha512_256 = 80 ∧
  lenBytes .sha512_256 = 16 ∧ core64.K = k512 ∧ initialState .sha512_256 = .wide h0Sha512_256 ∧
  (∀ (s : State) (m : List Byte), isEnabled s.params .sha512_256 = true → holdsMessage s m → m.length < 2 ^ 58 →
    ∃ t, exec .hashSha512_256 s = .next t ∧ t.status = 0b100#3 ∧ t.digestLen = 32#7 ∧
      delivers t (digestOf .sha512_256 m) ∧ commandFrame s t) ∧
  (∀ s : State, isEnabled s.params .sha512_256 = false →
    ∃ t, exec .hashSha512_256 s = .next t ∧ failedWith t .unsupportedVariant ∧ commandFrame s t) ∧
  (∀ s : State, isEnabled s.params .sha512_256 = true → 2 ^ 58 ≤ msgBytes s →
    ∃ t, exec .hashSha512_256 s = .next t ∧ failedWith t .messageTooLong ∧ commandFrame s t) ∧
  hashOutsideRules .sha512_256 ∧
  digestOf .sha512_256 [0x61#8, 0x62#8, 0x63#8] =
    beBytes 32 0x53048e2681941ef99b2e29b76b4c7dabe4c2d0c634fc6d46e0e2f13107e7af23

/-- R190: `HASH(v)` for every variant, from decoding to end: the micro-operations of the engine compute `Digest_v` of the message or
raise its error, whatever `KEY`, `KEY_LEN` and the earlier result are. (`pending` and `reply`: log entry 3; names and order of the
refusals: log entry 17.) -/
def Obligations.HashRefinesDigest : Prop :=
  ∀ (v : Variant) (s : State),
    encode (instrOf .hash v) = 0#1 ++ codeOf v ∧
    (isEnabled s.params v = false →
      ∃ t, exec (instrOf .hash v) s = .next t ∧ failedWith t .unsupportedVariant ∧ commandFrame s t) ∧
    (isEnabled s.params v = true → 2 ^ 61 ≤ 8 * msgBytes s →
      ∃ t, exec (instrOf .hash v) s = .next t ∧ failedWith t .messageTooLong ∧ commandFrame s t) ∧
    (∀ m, isEnabled s.params v = true → holdsMessage s m →
      ∃ t, exec (instrOf .hash v) s = .next t ∧ commandFrame s t ∧
        match digestFn v m with
        | .ok dg => dg.length = digestBytes v ∧ delivers t dg
        | .error e => failedWith t e) ∧
    (∀ m, isEnabled s.params v = true → holdsMessage s m → m.length = 2 ^ 58 - 1 →
      ∃ t, exec (instrOf .hash v) s = .next t ∧ delivers t (digestOf v m) ∧ commandFrame s t) ∧
    (isEnabled s.params v = true → s.msgLen = 0#64 →
      ∃ t, exec (instrOf .hash v) s = .next t ∧ delivers t (digestOf v []) ∧ commandFrame s t) ∧
    (∀ (k : Memory) (n : BitVec 64) (x : Internal) (st : BitVec 3) (dl : BitVec 7) (d : Memory) (t : State),
      exec (instrOf .hash v) s = .next t →
      ∃ t', exec (instrOf .hash v)
          { s with key := k, keyLen := n, internal := x, status := st, digestLen := dl, digest := d } = .next t' ∧
        sameResult t t') ∧
    hashOutsideRules v

/-! ## The HMAC commands (44_hmac_engine.md) -/

/-- R218, R217: `HMAC.SHA224`, and the digest of the worked example.
(`pending` and `reply`: log entry 3; names and order of the refusals: log entry 17.) -/
def Obligations.HmacSha224Command : Prop :=
  encode .hmacSha224 = 0x8#4 ∧ blockBytes .sha224 = 64 ∧ digestBytes .sha224 = 28 ∧
  (∀ (s : State) (k m : List Byte), isEnabled s.params .sha224 = true → holdsKey s k → holdsMessage s m →
    k.length < 2 ^ 58 → m.length < 2 ^ 58 - 64 →
    ∃ t, exec .hmacSha224 s = .next t ∧ t.status = 0b100#3 ∧ t.digestLen = 28#7 ∧ delivers t (hmacOf .sha224 k m) ∧
      commandFrame s t) ∧
  (∀ s : State, isEnabled s.params .sha224 = false →
    ∃ t, exec .hmacSha224 s = .next t ∧ failedWith t .unsupportedVariant ∧ commandFrame s t) ∧
  (∀ s : State, isEnabled s.params .sha224 = true → 2 ^ 58 ≤ keyBytes s ∨ 2 ^ 58 - 64 ≤ msgBytes s →
    ∃ t, exec .hmacSha224 s = .next t ∧ failedWith t .messageTooLong ∧ commandFrame s t) ∧
  (∀ k m : List Byte, 64 < k.length → hmacOf .sha224 k m = hmacOf .sha224 (digestOf .sha224 k) m) ∧
  hmacOutsideRules .sha224 ∧
  hmacOf .sha224 (List.replicate 20 0x0b#8) (beBytes 8 0x4869205468657265) =
    beBytes 28 0x896fb1128abbdf196832107cd49df33f47b4b1169912ba4f53684b22

/-- R219, R217: `HMAC.SHA256`, and the digest of the worked example.
(`pending` and `reply`: log entry 3; names and order of the refusals: log entry 17.) -/
def Obligations.HmacSha256Command : Prop :=
  encode .hmacSha256 = 0x9#4 ∧ blockBytes .sha256 = 64 ∧ digestBytes .sha256 = 32 ∧
  (∀ (s : State) (k m : List Byte), isEnabled s.params .sha256 = true → holdsKey s k → holdsMessage s m →
    k.length < 2 ^ 58 → m.length < 2 ^ 58 - 64 →
    ∃ t, exec .hmacSha256 s = .next t ∧ t.status = 0b100#3 ∧ t.digestLen = 32#7 ∧ delivers t (hmacOf .sha256 k m) ∧
      commandFrame s t) ∧
  (∀ s : State, isEnabled s.params .sha256 = false →
    ∃ t, exec .hmacSha256 s = .next t ∧ failedWith t .unsupportedVariant ∧ commandFrame s t) ∧
  (∀ s : State, isEnabled s.params .sha256 = true → 2 ^ 58 ≤ keyBytes s ∨ 2 ^ 58 - 64 ≤ msgBytes s →
    ∃ t, exec .hmacSha256 s = .next t ∧ failedWith t .messageTooLong ∧ commandFrame s t) ∧
  (∀ k m : List Byte, 64 < k.length → hmacOf .sha256 k m = hmacOf .sha256 (digestOf .sha256 k) m) ∧
  hmacOutsideRules .sha256 ∧
  hmacOf .sha256 (List.replicate 20 0x0b#8) (beBytes 8 0x4869205468657265) =
    beBytes 32 0xb0344c61d8db38535ca8afceaf0bf12b881dc200c9833da726e9376c2e32cff7

/-- R220, R217: `HMAC.SHA384`, and the digest of the worked example.
(`pending` and `reply`: log entry 3; names and order of the refusals: log entry 17.) -/
def Obligations.HmacSha384Command : Prop :=
  encode .hmacSha384 = 0xA#4 ∧ blockBytes .sha384 = 128 ∧ digestBytes .sha384 = 48 ∧
  (∀ (s : State) (k m : List Byte), isEnabled s.params .sha384 = true → holdsKey s k → holdsMessage s m →
    k.length < 2 ^ 58 → m.length < 2 ^ 58 - 128 →
    ∃ t, exec .hmacSha384 s = .next t ∧ t.status = 0b100#3 ∧ t.digestLen = 48#7 ∧ delivers t (hmacOf .sha384 k m) ∧
      commandFrame s t) ∧
  (∀ s : State, isEnabled s.params .sha384 = false →
    ∃ t, exec .hmacSha384 s = .next t ∧ failedWith t .unsupportedVariant ∧ commandFrame s t) ∧
  (∀ s : State, isEnabled s.params .sha384 = true → 2 ^ 58 ≤ keyBytes s ∨ 2 ^ 58 - 128 ≤ msgBytes s →
    ∃ t, exec .hmacSha384 s = .next t ∧ failedWith t .messageTooLong ∧ commandFrame s t) ∧
  (∀ k m : List Byte, 128 < k.length → hmacOf .sha384 k m = hmacOf .sha384 (digestOf .sha384 k) m) ∧
  hmacOutsideRules .sha384 ∧
  hmacOf .sha384 (List.replicate 20 0x0b#8) (beBytes 8 0x4869205468657265) =
    beBytes 48 0xafd03944d84895626b0825f4ab46907f15f9dadbe4101ec682aa034c7cebc59cfaea9ea9076ede7f4af152e8b2fa9cb6

/-- R221, R217: `HMAC.SHA512`, and the digest of the worked example.
(`pending` and `reply`: log entry 3; names and order of the refusals: log entry 17.) -/
def Obligations.HmacSha512Command : Prop :=
  encode .hmacSha512 = 0xB#4 ∧ blockBytes .sha512 = 128 ∧ digestBytes .sha512 = 64 ∧
  (∀ (s : State) (k m : List Byte), isEnabled s.params .sha512 = true → holdsKey s k → holdsMessage s m →
    k.length < 2 ^ 58 → m.length < 2 ^ 58 - 128 →
    ∃ t, exec .hmacSha512 s = .next t ∧ t.status = 0b100#3 ∧ t.digestLen = 64#7 ∧ delivers t (hmacOf .sha512 k m) ∧
      commandFrame s t) ∧
  (∀ s : State, isEnabled s.params .sha512 = false →
    ∃ t, exec .hmacSha512 s = .next t ∧ failedWith t .unsupportedVariant ∧ commandFrame s t) ∧
  (∀ s : State, isEnabled s.params .sha512 = true → 2 ^ 58 ≤ keyBytes s ∨ 2 ^ 58 - 128 ≤ msgBytes s →
    ∃ t, exec .hmacSha512 s = .next t ∧ failedWith t .messageTooLong ∧ commandFrame s t) ∧
  (∀ k m : List Byte, 128 < k.length → hmacOf .sha512 k m = hmacOf .sha512 (digestOf .sha512 k) m) ∧
  hmacOutsideRules .sha512 ∧
  hmacOf .sha512 (List.replicate 20 0x0b#8) (beBytes 8 0x4869205468657265) =
    beBytes 64 0x87aa7cdea5ef619d4ff0b4241a1d6cb02379f4e2ce4ec2787ad0b30545e17cdedaa833b7d6b8a702038b274eaea3f4e4be9d914eeb61f1702e696c203a126854

/-- R222, R217: `HMAC.SHA512_224`, and the digest of the worked example.
(`pending` and `reply`: log entry 3; names and order of the refusals: log entry 17.) -/
def Obligations.HmacSha512_224Command : Prop :=
  encode .hmacSha512_224 = 0xC#4 ∧ blockBytes .sha512_224 = 128 ∧ digestBytes .sha512_224 = 28 ∧
  (∀ (s : State) (k m : List Byte), isEnabled s.params .sha512_224 = true → holdsKey s k → holdsMessage s m →
    k.length < 2 ^ 58 → m.length < 2 ^ 58 - 128 →
    ∃ t, exec .hmacSha512_224 s = .next t ∧ t.status = 0b100#3 ∧ t.digestLen = 28#7 ∧
      delivers t (hmacOf .sha512_224 k m) ∧ commandFrame s t) ∧
  (∀ s : State, isEnabled s.params .sha512_224 = false →
    ∃ t, exec .hmacSha512_224 s = .next t ∧ failedWith t .unsupportedVariant ∧ commandFrame s t) ∧
  (∀ s : State, isEnabled s.params .sha512_224 = true → 2 ^ 58 ≤ keyBytes s ∨ 2 ^ 58 - 128 ≤ msgBytes s →
    ∃ t, exec .hmacSha512_224 s = .next t ∧ failedWith t .messageTooLong ∧ commandFrame s t) ∧
  (∀ k m : List Byte, 128 < k.length → hmacOf .sha512_224 k m = hmacOf .sha512_224 (digestOf .sha512_224 k) m) ∧
  hmacOutsideRules .sha512_224 ∧
  hmacOf .sha512_224 (List.replicate 20 0x0b#8) (beBytes 8 0x4869205468657265) =
    beBytes 28 0xb244ba01307c0e7a8ccaad13b1067a4cf6b961fe0c6a20bda3d92039

/-- R223, R217: `HMAC.SHA512_256`, and the digest of the worked example.
(`pending` and `reply`: log entry 3; names and order of the refusals: log entry 17.) -/
def Obligations.HmacSha512_256Command : Prop :=
  encode .hmacSha512_256 = 0xD#4 ∧ blockBytes .sha512_256 = 128 ∧ digestBytes .sha512_256 = 32 ∧
  (∀ (s : State) (k m : List Byte), isEnabled s.params .sha512_256 = true → holdsKey s k → holdsMessage s m →
    k.length < 2 ^ 58 → m.length < 2 ^ 58 - 128 →
    ∃ t, exec .hmacSha512_256 s = .next t ∧ t.status = 0b100#3 ∧ t.digestLen = 32#7 ∧
      delivers t (hmacOf .sha512_256 k m) ∧ commandFrame s t) ∧
  (∀ s : State, isEnabled s.params .sha512_256 = false →
    ∃ t, exec .hmacSha512_256 s = .next t ∧ failedWith t .unsupportedVariant ∧ commandFrame s t) ∧
  (∀ s : State, isEnabled s.params .sha512_256 = true → 2 ^ 58 ≤ keyBytes s ∨ 2 ^ 58 - 128 ≤ msgBytes s →
    ∃ t, exec .hmacSha512_256 s = .next t ∧ failedWith t .messageTooLong ∧ commandFrame s t) ∧
  (∀ k m : List Byte, 128 < k.length → hmacOf .sha512_256 k m = hmacOf .sha512_256 (digestOf .sha512_256 k) m) ∧
  hmacOutsideRules .sha512_256 ∧
  hmacOf .sha512_256 (List.replicate 20 0x0b#8) (beBytes 8 0x4869205468657265) =
    beBytes 32 0x9f9126c3d9c3c330d760425ca8a217e31feae31bfe70196ff81642b868402eab

/-- R217: `HMAC(v)` for every variant, from decoding to end: the micro-operations of the engine compute `Hmac_v` of the key and the
message or raise its error, whatever the earlier result is. (`pending` and `reply`: log entry 3; names and order of the refusals: log
entry 17.) -/
def Obligations.HmacRefinesConstruction : Prop :=
  ∀ (v : Variant) (s : State),
    encode (instrOf .hmac v) = 1#1 ++ codeOf v ∧
    (isEnabled s.params v = false →
      ∃ t, exec (instrOf .hmac v) s = .next t ∧ failedWith t .unsupportedVariant ∧ commandFrame s t) ∧
    (isEnabled s.params v = true →
      (blockBytes v < keyBytes s ∧ 2 ^ 61 ≤ 8 * keyBytes s) ∨ 2 ^ 61 ≤ 8 * (blockBytes v + msgBytes s) →
      ∃ t, exec (instrOf .hmac v) s = .next t ∧ failedWith t .messageTooLong ∧ commandFrame s t) ∧
    (∀ k m, isEnabled s.params v = true → holdsKey s k → holdsMessage s m →
      ∃ t, exec (instrOf .hmac v) s = .next t ∧ commandFrame s t ∧
        match hmacFn v k m with
        | .ok dg => dg.length = digestBytes v ∧ delivers t dg
        | .error e => failedWith t e) ∧
    (isEnabled s.params v = true → s.keyLen = 0#64 → s.msgLen = 0#64 →
      ∃ t, exec (instrOf .hmac v) s = .next t ∧ delivers t (hmacOf v [] []) ∧ commandFrame s t) ∧
    (∀ (x : Internal) (st : BitVec 3) (dl : BitVec 7) (d : Memory) (t : State), exec (instrOf .hmac v) s = .next t →
      ∃ t', exec (instrOf .hmac v) { s with internal := x, status := st, digestLen := dl, digest := d } = .next t' ∧
        sameResult t t') ∧
    hmacOutsideRules v

/-- R212, R213: the derived key is `B` bytes, by the two branches, with zeros at the end; the pads are `0x36` and `0x5c` on each of
its bytes. -/
def Obligations.DerivedKeyAndPads : Prop :=
  (∀ (v : Variant) (k : List Byte), (derivedKey v k).length = blockBytes v) ∧
  (∀ (v : Variant) (k : List Byte), blockBytes v < k.length →
    derivedKey v k = digestOf v k ++ zeros (blockBytes v - digestBytes v)) ∧
  (∀ (v : Variant) (k : List Byte), k.length ≤ blockBytes v → derivedKey v k = k ++ zeros (blockBytes v - k.length)) ∧
  (∀ (v : Variant) (k : List Byte), k.length = blockBytes v → derivedKey v k = k) ∧
  (∀ v : Variant, derivedKey v [] = zeros (blockBytes v) ∧
    xorByte 0x36#8 (derivedKey v []) = List.replicate (blockBytes v) 0x36#8 ∧
    xorByte 0x5c#8 (derivedKey v []) = List.replicate (blockBytes v) 0x5c#8) ∧
  (∀ (v : Variant) (k : List Byte) (j : Nat), j < blockBytes v →
    (xorByte 0x36#8 (derivedKey v k))[j]? = some ((derivedKey v k).getD j 0 ^^^ 0x36#8) ∧
    (xorByte 0x5c#8 (derivedKey v k))[j]? = some ((derivedKey v k).getD j 0 ^^^ 0x5c#8)) ∧
  [Variant.sha224, .sha256, .sha384, .sha512, .sha512_224, .sha512_256].map (fun v => blockBytes v - digestBytes v) =
    [36, 32, 80, 64, 100, 96]

/-- R224: with a key longer than a block, HMAC gives what it gives with the digest of the key used as the key; as functions, and as
commands on two engines that hold the one key and the other. -/
def Obligations.LongKeyEqualsItsDigest : Prop :=
  (∀ (v : Variant) (k m : List Byte), blockBytes v < k.length → hmacOf v k m = hmacOf v (digestOf v k) m) ∧
  (∀ (v : Variant) (k m : List Byte) (s s' : State), blockBytes v < k.length → k.length < 2 ^ 58 →
    m.length < 2 ^ 58 - blockBytes v → isEnabled s.params v = true → isEnabled s'.params v = true →
    holdsMessage s m → holdsMessage s' m → holdsKey s k → holdsKey s' (digestOf v k) →
    ∃ t t', exec (instrOf .hmac v) s = .next t ∧ exec (instrOf .hmac v) s' = .next t' ∧ sameResult t t' ∧
      delivers t (hmacOf v k m))

/-- R225: zero bytes at the end of a short key do not change the result; in particular the empty key and `B` zero bytes. -/
def Obligations.TrailingZerosOfAShortKey : Prop :=
  (∀ (v : Variant) (k m : List Byte) (j : Nat), k.length + j ≤ blockBytes v → hmacOf v k m = hmacOf v (k ++ zeros j) m) ∧
  (∀ (v : Variant) (m : List Byte), hmacOf v [] m = hmacOf v (zeros (blockBytes v)) m) ∧
  (∀ (v : Variant) (k m : List Byte) (j : Nat) (s s' : State), k.length + j ≤ blockBytes v →
    m.length < 2 ^ 58 - blockBytes v → isEnabled s.params v = true → isEnabled s'.params v = true →
    holdsMessage s m → holdsMessage s' m → holdsKey s k → holdsKey s' (k ++ zeros j) →
    ∃ t t', exec (instrOf .hmac v) s = .next t ∧ exec (instrOf .hmac v) s' = .next t' ∧ sameResult t t' ∧
      delivers t (hmacOf v k m))

/-- R189, R214, R216: the passes of an HMAC command, the one it begins with, and that a command runs from there; of each pass the
length of its stream, its bytes, its padding, and where its result goes; the bit length of the outer stream per variant. The model's
choices in it: the next pass begins at CHECK (log entry 16), 0 stands for a byte that `KP` or `INNER` lacks, which no command meets
(log entry 11), and `pending` and `reply` are kept (log entry 3). -/
def Obligations.HmacPassesAndStreams : Prop :=
  (∀ (v : Variant) (s : State), blockBytes v < keyBytes s →
    commandPasses .hmac v s = [.keyHash, .innerPass, .outerPass]) ∧
  (∀ (v : Variant) (s : State), keyBytes s ≤ blockBytes v → commandPasses .hmac v s = [.innerPass, .outerPass]) ∧
  (∀ (v : Variant) (s : State), (startCommand .hmac v s).seq = ⟨.check, 0, 0⟩ ∧
    (startCommand .hmac v s).internal.pass = if blockBytes v < keyBytes s then .keyHash else .innerPass) ∧
  (∀ (v : Variant) (s : State), isEnabled s.params v = true →
    exec (instrOf .hmac v) s = runEngine (opsOfCommand .hmac v s) (startCommand .hmac v s)) ∧
  (∀ (v : Variant) (s : State), passLen v s .keyHash = keyBytes s ∧ passLen v s .innerPass = blockBytes v + msgBytes s ∧
    passLen v s .outerPass = blockBytes v + digestBytes v ∧ 2 ≤ blockCount v (passLen v s .innerPass) ∧
    blockCount v (passLen v s .outerPass) = 2) ∧
  (∀ (v : Variant) (s : State) (j : Nat), s.internal.pass = .innerPass →
    streamByte v s j = if j < blockBytes v then .ok (s.internal.KP.getD j 0 ^^^ 0x36#8)
      else memRead .msg (j - blockBytes v) s) ∧
  (∀ (v : Variant) (s : State) (j : Nat), s.internal.pass = .outerPass →
    streamByte v s j = if j < blockBytes v then .ok (s.internal.KP.getD j 0 ^^^ 0x5c#8)
      else .ok (s.internal.INNER.getD (j - blockBytes v) 0)) ∧
  (∀ (v : Variant) (s : State) (j : Nat), s.internal.pass = .keyHash → streamByte v s j = memRead .key j s) ∧
  (∀ (v : Variant) (s : State) (j : Nat), passLen v s s.internal.pass ≤ j →
    paddedByte v s j = .ok (padByte v (passLen v s s.internal.pass) j)) ∧
  (∀ (s : State) (blk t : Nat), s.seq = ⟨.trunc, blk, t⟩ → s.internal.pass = .keyHash →
    ∃ u, engineStep s = .next u ∧ u.seq = ⟨.check, 0, 0⟩ ∧ u.internal.pass = .innerPass ∧
      u.internal.KP = resultBytes s ++ zeros (blockBytes s.internal.var - digestBytes s.internal.var)) ∧
  (∀ (s : State) (blk t : Nat), s.seq = ⟨.trunc, blk, t⟩ → s.internal.pass = .innerPass →
    ∃ u, engineStep s = .next u ∧ u.seq = ⟨.check, 0, 0⟩ ∧ u.internal.pass = .outerPass ∧
      u.internal.INNER = resultBytes s ∧ u.internal.KP = s.internal.KP) ∧
  (∀ (s : State) (blk t : Nat), s.seq = ⟨.trunc, blk, t⟩ → s.internal.pass = .outerPass →
    ∃ u, engineStep s = .next u ∧ delivers u (resultBytes s) ∧ commandFrame s u) ∧
  [Variant.sha224, .sha256, .sha384, .sha512, .sha512_224, .sha512_256].map (fun v => 8 * (blockBytes v + digestBytes v)) =
    [0x2e0, 0x300, 0x580, 0x600, 0x4e0, 0x500]

/-! ## All commands -/

/-- R32: a command never changes `MSG`, `KEY`, `MSG_LEN` or `KEY_LEN`, whether it succeeds or fails, nor the parameters; the engine
is idle after it. Of all sixteen words and every number given to `CMD`. That it also leaves `pending` and `reply` is the model's
bookkeeping, not the spec's (log entry 3). -/
def Obligations.CommandsKeepTheirInputs : Prop :=
  (∀ (i : Instr) (s t : State), exec i s = .next t → commandFrame s t) ∧
  (∀ (c : Nat) (s t : State), transact (.cmd c) s = .next t → commandFrame s t)

/-- R27, R28: after a command `STATUS` is one of three values; `VALID = 1` exactly when `DIGEST_LEN` is the `D` of its variant, else
`DIGEST_LEN` is 0; `VALID = 1` implies `ERR = 0`. -/
def Obligations.ResultRegistersAfterACommand : Prop :=
  ∀ (i : Instr) (s t : State), exec i s = .next t →
    (t.status = 0b100#3 ∨ t.status = 0b001#3 ∨ t.status = 0b010#3) ∧
    (statusValid t.status = true → statusErr t.status = 0#2 ∧ t.digestLen.toNat = digestBytes (variantOf i)) ∧
    (statusValid t.status = false → t.digestLen = 0#7) ∧
    (t.digestLen = 0#7 ∨ t.digestLen = 28#7 ∨ t.digestLen = 32#7 ∨ t.digestLen = 48#7 ∨ t.digestLen = 64#7)

/-- R48, R188, R249: the result of a command is a function of its word, `ENABLED`, the message and, for HMAC, the key: on two states
that agree on these and on the capacities the same command has the same outcome, whatever else they hold; where the capacities
differ and both states have a next state, it has the same result; so a command repeated on the state it left gives the same
digest or the same error. -/
def Obligations.NoHiddenState : Prop :=
  (∀ (i : Instr) (s s' : State), sameInputs (operationOf i) s s' →
    (∀ t, exec i s = .next t → ∃ t', exec i s' = .next t' ∧ sameResult t t') ∧
    (∀ r, exec i s = .refused r → exec i s' = .refused r)) ∧
  (∀ (i : Instr) (s s' t t' : State), s'.params.enabled = s.params.enabled → s'.msgLen = s.msgLen →
    (∀ j, j < msgBytes s → Memory.read s'.msg j = Memory.read s.msg j) →
    (operationOf i = .hmac → s'.keyLen = s.keyLen ∧ ∀ j, j < keyBytes s → Memory.read s'.key j = Memory.read s.key j) →
    exec i s = .next t → exec i s' = .next t' → sameResult t t') ∧
  (∀ (i : Instr) (s t : State), exec i s = .next t → ∃ t', exec i t = .next t' ∧ sameResult t t')

/-- R91, R98, R240, R282: every command ends: it is never a fault, and where the host has met its duties it answers a next state, a
success or one of the two errors; this holds of all sixteen words. -/
def Obligations.EveryCommandEnds : Prop :=
  (∀ (i : Instr) (s : State), inputsReady (operationOf i) s →
    ∃ t, exec i s = .next t ∧ (t.status = 0b100#3 ∨ t.status = 0b001#3 ∨ t.status = 0b010#3) ∧ t.seq = Sequencer.idle) ∧
  (∀ (c : Nat) (s : State), c < 16 → inputsReady .hmac s → ∃ t, transact (.cmd c) s = .next t) ∧
  (∀ (i : Instr) (s : State) (f : Fault), exec i s ≠ .fault f)

/-! ## Errors (60_exceptions.md) and what the model refuses (20_memory.md) -/

/-- R246: the error entry: exactly what a failing command writes, and that nothing else changes. The model's choice, not the spec's:
the internal registers then hold a free value (log entry 4), and `pending` and `reply` are kept (log entry 3). -/
def Obligations.ErrorEntryWrites : Prop :=
  ∀ (e : Err) (s : State),
    (raise e s).status = (match e with
      | .messageTooLong => 0b001#3
      | .unsupportedVariant => 0b010#3) ∧
    (raise e s).digestLen = 0#7 ∧ (raise e s).seq = Sequencer.idle ∧
    (∀ j, transact (.rdDigest j) (raise e s) = .refused .indexOutOfRange) ∧ commandFrame s (raise e s) ∧
    (∀ (i : Instr) (t : State), exec i s = .next t → failedWith t e → t = raise e s)

/-- R242: MessageTooLong is raised by an accepted command exactly when a stream it would hash is `2^61` bits or longer. (`pending` and
`reply`: log entry 3.) -/
def Obligations.MessageTooLongExactly : Prop :=
  (∀ (v : Variant) (s : State), isEnabled s.params v = true →
    ((∃ t, exec (instrOf .hash v) s = .next t ∧ failedWith t .messageTooLong ∧ commandFrame s t) ↔ 2 ^ 58 ≤ msgBytes s)) ∧
  (∀ (v : Variant) (s : State), isEnabled s.params v = true → wordClass v = .narrow →
    ((∃ t, exec (instrOf .hmac v) s = .next t ∧ failedWith t .messageTooLong ∧ commandFrame s t) ↔
      2 ^ 58 ≤ keyBytes s ∨ 2 ^ 58 - 64 ≤ msgBytes s)) ∧
  (∀ (v : Variant) (s : State), isEnabled s.params v = true → wordClass v = .wide →
    ((∃ t, exec (instrOf .hmac v) s = .next t ∧ failedWith t .messageTooLong ∧ commandFrame s t) ↔
      2 ^ 58 ≤ keyBytes s ∨ 2 ^ 58 - 128 ≤ msgBytes s))

/-- R96, R97, R243: UnsupportedVariant is raised exactly by the words whose variant field is 6 or 7 or names a variant that is not
enabled, for both operations alike and whatever the lengths and bytes are. (`pending` and `reply`: log entry 3.) -/
def Obligations.UnsupportedVariantExactly : Prop :=
  (∀ (c : BitVec 4) (s : State),
    (∃ t, transact (.cmd c.toNat) s = .next t ∧ failedWith t .unsupportedVariant ∧ commandFrame s t) ↔
      (6 ≤ (varField c).toNat ∨ ∃ v, variantOfCode (varField c) = some v ∧ v ∉ s.params.enabled)) ∧
  (∀ (c : BitVec 4) (s : State), (∀ v, v ∈ s.params.enabled) →
    ((∃ t, transact (.cmd c.toNat) s = .next t ∧ failedWith t .unsupportedVariant) ↔
      (c = 0x6#4 ∨ c = 0x7#4 ∨ c = 0xE#4 ∨ c = 0xF#4))) ∧
  (∀ (v : Variant) (s s' : State), s'.params = s.params →
    ((∃ t, exec (instrOf .hash v) s = .next t ∧ failedWith t .unsupportedVariant) ↔
      ∃ t, exec (instrOf .hmac v) s' = .next t ∧ failedWith t .unsupportedVariant))

/-- R245: when both errors apply, UnsupportedVariant wins; so `CMD 0x6` with `MSG_LEN = 2^60` ends with `ERR = 2`. -/
def Obligations.UnsupportedVariantWins : Prop :=
  (∀ (i : Instr) (s : State), isEnabled s.params (variantOf i) = false → 2 ^ 58 ≤ msgBytes s →
    ∃ t, exec i s = .next t ∧ statusErr t.status = 2#2 ∧ failedWith t .unsupportedVariant) ∧
  (∀ (s : State), s.msgLen = BitVec.ofNat 64 (2 ^ 60) →
    ∃ t, transact (.cmd 6) s = .next t ∧ statusErr t.status = 2#2)

/-- R247: whether a command fails, and with which error, depends on its word, `MSG_LEN`, `KEY_LEN` and `ENABLED` alone: no byte of
`MSG` or `KEY`, no capacity and no other state has a part in it. -/
def Obligations.ErrorsDependOnLengthsAlone : Prop :=
  ∀ (i : Instr) (s s' : State) (e : Err), s'.params.enabled = s.params.enabled → s'.msgLen = s.msgLen →
    s'.keyLen = s.keyLen → exec i s = .next (raise e s) → exec i s' = .next (raise e s')

/-- R64: a command that passes its checks and whose message, or for HMAC key, exceeds the capacity is refused; with capacities of
`2^64` that cannot happen. (That the capacity is looked at before the bytes is the model's choice: log entry 17.) -/
def Obligations.CapacityExceededRefused : Prop :=
  (∀ (v : Variant) (s : State), isEnabled s.params v = true → msgBytes s < 2 ^ 58 → s.params.msgCap < msgBytes s →
    exec (instrOf .hash v) s = .refused .capacityExceeded) ∧
  (∀ (v : Variant) (s : State), isEnabled s.params v = true → keyBytes s < 2 ^ 58 → blockBytes v + msgBytes s < 2 ^ 58 →
    s.params.msgCap < msgBytes s ∨ s.params.keyCap < keyBytes s →
    exec (instrOf .hmac v) s = .refused .capacityExceeded) ∧
  (∀ (i : Instr) (s : State), s.params.msgCap = 2 ^ 64 → s.params.keyCap = 2 ^ 64 →
    exec i s ≠ .refused .capacityExceeded)

/-- R65: a command that would read a byte that holds no value is refused, and so are `RD_MSG` and `RD_KEY` of such a byte. -/
def Obligations.UnwrittenByteRefused : Prop :=
  (∀ (v : Variant) (s : State) (j : Nat), isEnabled s.params v = true → msgBytes s < 2 ^ 58 →
    msgBytes s ≤ s.params.msgCap → j < msgBytes s → Memory.read s.msg j = none →
    exec (instrOf .hash v) s = .refused .unwrittenByte) ∧
  (∀ (v : Variant) (s : State) (j : Nat), isEnabled s.params v = true → keyBytes s < 2 ^ 58 →
    blockBytes v + msgBytes s < 2 ^ 58 → msgBytes s ≤ s.params.msgCap → keyBytes s ≤ s.params.keyCap →
    (j < msgBytes s ∧ Memory.read s.msg j = none) ∨ (j < keyBytes s ∧ Memory.read s.key j = none) →
    exec (instrOf .hmac v) s = .refused .unwrittenByte) ∧
  (∀ (s : State) (j : Nat), j < s.params.msgCap → Memory.read s.msg j = none →
    transact (.rdMsg j) s = .refused .unwrittenByte) ∧
  (∀ (s : State) (j : Nat), j < s.params.keyCap → Memory.read s.key j = none →
    transact (.rdKey j) s = .refused .unwrittenByte)

/-! ## The invariant -/

/-- The invariant holds after power-on of an engine with any legal parameters, and at `State.reset`, whose parameters are the
model's choice (log entry 2). -/
def Obligations.InvHoldsAtReset : Prop :=
  (∀ p : Params, p.wf = true → Inv (State.powerOn p)) ∧ Inv State.reset

/-- Every step keeps the invariant: legal parameters, canonical spaces within their capacities, `DIGEST` readable exactly below
`DIGEST_LEN`, a legal pair of `STATUS` and `DIGEST_LEN` (R27, R28, R29), and no command running (R91). -/
def Obligations.EveryStepKeepsInv : Prop :=
  ∀ s t : State, Inv s → step s = .next t → Inv t

/-! ## The Padder (41_padder.md) -/

/-- R143, R144: the zero fill in bits and in bytes, over the integers with a non-negative remainder, and by cases. -/
def Obligations.ZeroFillFormula : Prop :=
  (∀ (v : Variant) (n : Nat),
    (8 * zeroFill v n : Int) =
      (8 * ((blockBytes v : Int) - 1 - lenBytes v) - (8 * n : Int) % (8 * blockBytes v)) % (8 * blockBytes v)) ∧
  (∀ (v : Variant) (n : Nat),
    (zeroFill v n : Int) = ((blockBytes v : Int) - 1 - lenBytes v - (n % blockBytes v : Nat)) % blockBytes v) ∧
  (∀ v : Variant, wordClass v = .narrow → 8 * (blockBytes v - 1 - lenBytes v) = 440 ∧ 8 * blockBytes v = 512) ∧
  (∀ v : Variant, wordClass v = .wide → 8 * (blockBytes v - 1 - lenBytes v) = 888 ∧ 8 * blockBytes v = 1024) ∧
  (∀ (v : Variant) (n : Nat), zeroFill v n < blockBytes v) ∧
  (∀ (v : Variant) (n : Nat), wordClass v = .narrow →
    zeroFill v n = if n % 64 ≤ 55 then 55 - n % 64 else 119 - n % 64) ∧
  (∀ (v : Variant) (n : Nat), wordClass v = .wide →
    zeroFill v n = if n % 128 ≤ 111 then 111 - n % 128 else 239 - n % 128)

/-- R147: the padded length is a multiple of the block size, with the least number of zero bytes that makes it one; the padding is
never empty, and begins with the byte `0x80`. -/
def Obligations.PaddingIsLeastMultiple : Prop :=
  (∀ (v : Variant) (n : Nat), paddedLength v n % blockBytes v = 0) ∧
  (∀ (v : Variant) (n z : Nat), (n + 1 + z + lenBytes v) % blockBytes v = 0 → zeroFill v n ≤ z) ∧
  (∀ (v : Variant) (n : Nat), lenBytes v + 1 ≤ (padding v n).length ∧ (padding v n).length ≤ blockBytes v + lenBytes v ∧
    (padding v n).length = 1 + zeroFill v n + lenBytes v ∧ (padding v n)[0]? = some 0x80#8) ∧
  (∀ v : Variant, zeroFill v (blockBytes v) = blockBytes v - 1 - lenBytes v ∧
    paddedLength v (blockBytes v) = 2 * blockBytes v)

/-- R145, R146: the padded stream byte by byte, and its last `F` bytes as the big-endian bit length. -/
def Obligations.PaddedStreamBytes : Prop :=
  (∀ (v : Variant) (S : List Byte), padded v S =
    S ++ 0x80#8 :: (zeros (zeroFill v S.length) ++ beBytes (lenBytes v) (8 * S.length))) ∧
  (∀ (v : Variant) (S : List Byte), (padded v S).length = paddedLength v S.length ∧
    paddedLength v S.length = S.length + 1 + zeroFill v S.length + lenBytes v) ∧
  (∀ (v : Variant) (n : Nat), (padding v n).length = 1 + zeroFill v n + lenBytes v ∧
    lenBytes v + 1 ≤ (padding v n).length ∧ (padding v n).length ≤ blockBytes v + lenBytes v) ∧
  (∀ (v : Variant) (S : List Byte) (j : Nat), j < paddedLength v S.length →
    (padded v S)[j]? =
      if j < S.length then S[j]?
      else if j = S.length then some 0x80#8
      else if j < paddedLength v S.length - lenBytes v then some 0x00#8
      else (beBytes (lenBytes v) (8 * S.length))[j - (paddedLength v S.length - lenBytes v)]?) ∧
  (∀ (v : Variant) (S : List Byte), S.length < 2 ^ 58 →
    beNat ((padded v S).drop (paddedLength v S.length - lenBytes v)) = 8 * S.length) ∧
  (∀ (v : Variant) (n j : Nat), n < 2 ^ 58 → wordClass v = .wide → j < 8 → (beBytes (lenBytes v) (8 * n))[j]? = some 0#8)

/-- R148, R149: the number of blocks, its bounds for an accepted stream, and the boundary at which a further block is forced. -/
def Obligations.BlockCountFormula : Prop :=
  (∀ (v : Variant) (n : Nat), blockCount v n * blockBytes v = paddedLength v n ∧
    blockCount v n = (n + lenBytes v) / blockBytes v + 1 ∧ 1 ≤ blockCount v n) ∧
  (∀ (v : Variant) (n : Nat), n < 2 ^ 58 → wordClass v = .narrow → blockCount v n ≤ 2 ^ 52 + 1) ∧
  (∀ (v : Variant) (n : Nat), n < 2 ^ 58 → wordClass v = .wide → blockCount v n ≤ 2 ^ 51 + 1) ∧
  (∀ v : Variant, zeroFill v (blockBytes v - lenBytes v - 1) = 0 ∧ blockCount v (blockBytes v - lenBytes v - 1) = 1 ∧
    zeroFill v (blockBytes v - lenBytes v) = blockBytes v - 1 ∧ blockCount v (blockBytes v - lenBytes v) = 2)

/-- R142: the length limit: the same for all variants, on natural numbers that never wrap, at `2^58` bytes. -/
def Obligations.LengthLimit : Prop :=
  (∀ n : Nat, tooLong n = true ↔ 2 ^ 61 ≤ 8 * n) ∧ (∀ n : Nat, tooLong n = true ↔ 2 ^ 58 ≤ n) ∧
  tooLong 288230376151711743 = false ∧ tooLong 288230376151711744 = true ∧ tooLong (2 ^ 64 + 127) = true ∧
  (∀ (v : Variant) (S : List Byte), digestFn v S = if 2 ^ 58 ≤ S.length then .error .messageTooLong else .ok (digestOf v S))

/-! ## The descriptor and the mixing functions (40_variant_descriptor.md, 00_scope.md) -/

/-- R111, R113: the table of the six variants, and the derived sizes. -/
def Obligations.VariantTable : Prop :=
  [Variant.sha224, .sha256, .sha384, .sha512, .sha512_224, .sha512_256].map
      (fun v => (wordBits v, wordBytes v, blockBytes v, rounds v, digestBytes v, lenBytes v)) =
    [(32, 4, 64, 64, 28, 8), (32, 4, 64, 64, 32, 8), (64, 8, 128, 80, 48, 16), (64, 8, 128, 80, 64, 16),
     (64, 8, 128, 80, 28, 16), (64, 8, 128, 80, 32, 16)] ∧
  (∀ v : Variant, wordBits v = 8 * wordBytes v ∧ lenBytes v = 2 * wordBytes v ∧ blockBytes v = 16 * wordBytes v ∧
    digestBytes v ≤ 8 * wordBytes v) ∧
  core32.K = k256 ∧ k256.length = 64 ∧ core64.K = k512 ∧ k512.length = 80 ∧
  [Variant.sha224, .sha256, .sha384, .sha512, .sha512_224, .sha512_256].map initialState =
    [.narrow h0Sha224, .narrow h0Sha256, .wide h0Sha384, .wide h0Sha512, .wide h0Sha512_224, .wide h0Sha512_256]

/-- R14: rotate right and logical shift right, bit by bit and as numbers. -/
def Obligations.RotateAndShift : Prop :=
  (∀ (w n i : Nat) (x : BitVec w), 0 < n → n < w → i < w → (rotr x n).getLsbD i = x.getLsbD ((i + n) % w)) ∧
  (∀ (w n : Nat) (x : BitVec w), 0 < n → n < w →
    (rotr x n).toNat = x.toNat / 2 ^ n + x.toNat % 2 ^ n * 2 ^ (w - n)) ∧
  (∀ (w n : Nat) (x : BitVec w), (shr x n).toNat = x.toNat / 2 ^ n)

/-- R115, R116, R117, R118, R119: the four sigmas with their amounts, and the examples. -/
def Obligations.SigmaFunctions : Prop :=
  (∀ x : BitVec 32, smallSigma core32.smallSigma0 x = rotr x 7 ^^^ rotr x 18 ^^^ shr x 3) ∧
  (∀ x : BitVec 64, smallSigma core64.smallSigma0 x = rotr x 1 ^^^ rotr x 8 ^^^ shr x 7) ∧
  (∀ x : BitVec 32, smallSigma core32.smallSigma1 x = rotr x 17 ^^^ rotr x 19 ^^^ shr x 10) ∧
  (∀ x : BitVec 64, smallSigma core64.smallSigma1 x = rotr x 19 ^^^ rotr x 61 ^^^ shr x 6) ∧
  (∀ x : BitVec 32, bigSigma core32.bigSigma0 x = rotr x 2 ^^^ rotr x 13 ^^^ rotr x 22) ∧
  (∀ x : BitVec 64, bigSigma core64.bigSigma0 x = rotr x 28 ^^^ rotr x 34 ^^^ rotr x 39) ∧
  (∀ x : BitVec 32, bigSigma core32.bigSigma1 x = rotr x 6 ^^^ rotr x 11 ^^^ rotr x 25) ∧
  (∀ x : BitVec 64, bigSigma core64.bigSigma1 x = rotr x 14 ^^^ rotr x 18 ^^^ rotr x 41) ∧
  smallSigma core32.smallSigma0 0x00000001#32 = 0x02004000#32 ∧ smallSigma core32.smallSigma0 0x61626380#32 = 0x940e90ef#32 ∧
  smallSigma core64.smallSigma0 1#64 = 0x8100000000000000#64 ∧ smallSigma core32.smallSigma1 0x00000001#32 = 0x0000a000#32 ∧
  smallSigma core32.smallSigma1 0x80000000#32 = 0x00205000#32 ∧ smallSigma core64.smallSigma1 1#64 = 0x0000200000000008#64 ∧
  bigSigma core32.bigSigma0 1#32 = 0x40080400#32 ∧ bigSigma core64.bigSigma0 1#64 = 0x0000001042000000#64 ∧
  bigSigma core32.bigSigma1 1#32 = 0x04200080#32 ∧ bigSigma core64.bigSigma1 1#64 = 0x0004400000800000#64

/-- R120, R121: choice and majority, as formulas and bit by bit, and the examples. -/
def Obligations.ChoiceAndMajority : Prop :=
  (∀ (w : Nat) (e f g : BitVec w), choice e f g = (e &&& f) ^^^ (~~~e &&& g)) ∧
  (∀ (w : Nat) (a b c : BitVec w), majority a b c = (a &&& b) ^^^ (a &&& c) ^^^ (b &&& c)) ∧
  (∀ (w i : Nat) (e f g : BitVec w), (choice e f g).getLsbD i = if e.getLsbD i then f.getLsbD i else g.getLsbD i) ∧
  (∀ (w i : Nat) (a b c : BitVec w), (majority a b c).getLsbD i = true ↔
    (a.getLsbD i = true ∧ b.getLsbD i = true) ∨ (a.getLsbD i = true ∧ c.getLsbD i = true) ∨
    (b.getLsbD i = true ∧ c.getLsbD i = true)) ∧
  (∀ (w : Nat) (x y : BitVec w), majority x x y = x ∧ choice (BitVec.allOnes w) x y = x ∧ choice 0#w x y = y) ∧
  choice 0x510e527f#32 0x9b05688c#32 0x1f83d9ab#32 = 0x1f85c98c#32 ∧
  majority 0x6a09e667#32 0xbb67ae85#32 0x3c6ef372#32 = 0x3a6fe667#32

/-! ## The CompressionCore, the DigestEngine and the sequencer (42_compression_core.md, 43_digest_engine_hash.md) -/

/-- R158, R157, R189: PACK: sixteen words, each assembled most significant byte first, whatever the schedule held; SCHED 16 is next;
and the examples. The model's choices, not the spec's: the word registers of the other width are a bank of their own, which PACK
leaves (log entry 10), and the schedule is the list of the words written so far, so that after PACK it is sixteen long (log entry
11). -/
def Obligations.PackIsBigEndian : Prop :=
  (∀ (s : State) (blk t : Nat), s.seq = ⟨.pack, blk, t⟩ → wordClass s.internal.var = .narrow →
    ∃ u, engineStep s = .next u ∧ u.internal.bank32.W.length = 16 ∧ u.internal.bank32.H = s.internal.bank32.H ∧
      u.internal.BLK = s.internal.BLK ∧ u.internal.bank64 = s.internal.bank64 ∧ u.seq = ⟨.sched, blk, 16⟩ ∧
      (s.internal.BLK.length = 64 → ∀ i, i < 16 → (u.internal.bank32.W.getD i 0).toNat =
        (s.internal.BLK.getD (4 * i) 0).toNat * 2 ^ 24 + (s.internal.BLK.getD (4 * i + 1) 0).toNat * 2 ^ 16 +
        (s.internal.BLK.getD (4 * i + 2) 0).toNat * 2 ^ 8 + (s.internal.BLK.getD (4 * i + 3) 0).toNat)) ∧
  (∀ (s : State) (blk t : Nat), s.seq = ⟨.pack, blk, t⟩ → wordClass s.internal.var = .wide →
    ∃ u, engineStep s = .next u ∧ u.internal.bank64.W.length = 16 ∧ u.internal.bank64.H = s.internal.bank64.H ∧
      u.internal.BLK = s.internal.BLK ∧ u.internal.bank32 = s.internal.bank32 ∧ u.seq = ⟨.sched, blk, 16⟩ ∧
      (s.internal.BLK.length = 128 → ∀ i, i < 16 → (u.internal.bank64.W.getD i 0).toNat =
        (s.internal.BLK.getD (8 * i) 0).toNat * 2 ^ 56 + (s.internal.BLK.getD (8 * i + 1) 0).toNat * 2 ^ 48 +
        (s.internal.BLK.getD (8 * i + 2) 0).toNat * 2 ^ 40 + (s.internal.BLK.getD (8 * i + 3) 0).toNat * 2 ^ 32 +
        (s.internal.BLK.getD (8 * i + 4) 0).toNat * 2 ^ 24 + (s.internal.BLK.getD (8 * i + 5) 0).toNat * 2 ^ 16 +
        (s.internal.BLK.getD (8 * i + 6) 0).toNat * 2 ^ 8 + (s.internal.BLK.getD (8 * i + 7) 0).toNat)) ∧
  packWords 32 (padded .sha256 [0x61#8, 0x62#8, 0x63#8]) =
    0x61626380#32 :: (List.replicate 14 0#32 ++ [0x00000018#32]) ∧
  packWords 64 (padded .sha512 [0x61#8, 0x62#8, 0x63#8]) =
    0x6162638000000000#64 :: (List.replicate 14 0#64 ++ [0x0000000000000018#64])

/-- R159, R160, R161, R162: SCHED, LOAD, ROUND and FOLD on a bank of word registers of either width: what each writes, from the
values before it, and what it leaves. (A bank per width, and the schedule as the list of the words written so far, are the model's
choice: log entries 10, 11.) -/
def Obligations.MicroOperationsOfACompression : Prop :=
  ∀ (w : Nat) (c : CoreConsts w) (b : Bank w) (i : Nat),
    (16 ≤ i → b.W.length = i →
      (bankSched c i b).W.getD i 0 = b.W.getD (i - 16) 0 + smallSigma c.smallSigma0 (b.W.getD (i - 15) 0) +
        b.W.getD (i - 7) 0 + smallSigma c.smallSigma1 (b.W.getD (i - 2) 0) ∧
      (bankSched c i b).W.length = i + 1 ∧ (∀ j, j < i → (bankSched c i b).W.getD j 0 = b.W.getD j 0) ∧
      (bankSched c i b).H = b.H ∧ (bankSched c i b).loc = b.loc) ∧
    ((bankLoad b).loc = b.H ∧ (bankLoad b).H = b.H ∧ (bankLoad b).W = b.W) ∧
    (let T1 := b.loc.r7 + bigSigma c.bigSigma1 b.loc.r4 + choice b.loc.r4 b.loc.r5 b.loc.r6 + c.K.getD i 0 + b.W.getD i 0
     let T2 := bigSigma c.bigSigma0 b.loc.r0 + majority b.loc.r0 b.loc.r1 b.loc.r2
     (bankRound c i b).loc =
        ⟨T1 + T2, b.loc.r0, b.loc.r1, b.loc.r2, b.loc.r3 + T1, b.loc.r4, b.loc.r5, b.loc.r6⟩ ∧
      (bankRound c i b).H = b.H ∧ (bankRound c i b).W = b.W) ∧
    (eightList (bankFold b).H = (eightList b.H).zipWith (· + ·) (eightList b.loc) ∧ (bankFold b).loc = b.loc ∧
      (bankFold b).W = b.W)

/-- R156, R157, R166: from PACK on, `1 + (R-16) + 1 + R + 1` micro-operations (115 or 147) bring the compression of the block in `BLK`
into `H`, with no error, and touch nothing but the word registers and the sequencer. (That the word registers are a bank per width,
of which the other is left alone, is the model's choice: log entry 10.) -/
def Obligations.CompressionRun : Prop :=
  (∀ (s : State) (blk t : Nat), s.seq = ⟨.pack, blk, t⟩ → wordClass s.internal.var = .narrow →
    ∃ b q, runEngine 115 s = .next { s with internal := { s.internal with bank32 := b }, seq := q } ∧
      b.H = compress core32 64 s.internal.bank32.H s.internal.BLK ∧
      q = (if blk + 1 < passBlocks s.internal.var s then ⟨.fill, blk + 1, 0⟩ else ⟨.trunc, blk, 0⟩)) ∧
  (∀ (s : State) (blk t : Nat), s.seq = ⟨.pack, blk, t⟩ → wordClass s.internal.var = .wide →
    ∃ b q, runEngine 147 s = .next { s with internal := { s.internal with bank64 := b }, seq := q } ∧
      b.H = compress core64 80 s.internal.bank64.H s.internal.BLK ∧
      q = (if blk + 1 < passBlocks s.internal.var s then ⟨.fill, blk + 1, 0⟩ else ⟨.trunc, blk, 0⟩))

/-- R183, R184, R216: INIT loads the variant's initial state; FILL brings block `blk` of the padded stream of the pass into `BLK`
whenever the bytes of the stream in that block are readable, for each of the four passes; the streams of the four passes are readable
when the message, and for HMAC the key, the derived key and the inner digest, are there; a HASH command in particular. -/
def Obligations.InitAndFill : Prop :=
  (∀ (s : State) (blk t : Nat) (h : Eight 32), s.seq = ⟨.init, blk, t⟩ → initialState s.internal.var = .narrow h →
    ∃ u, engineStep s = .next u ∧ u.internal.bank32.H = h ∧ u.internal.BLK = s.internal.BLK ∧ u.seq = ⟨.fill, 0, 0⟩) ∧
  (∀ (s : State) (blk t : Nat) (h : Eight 64), s.seq = ⟨.init, blk, t⟩ → initialState s.internal.var = .wide h →
    ∃ u, engineStep s = .next u ∧ u.internal.bank64.H = h ∧ u.internal.BLK = s.internal.BLK ∧ u.seq = ⟨.fill, 0, 0⟩) ∧
  (∀ (s : State) (blk t : Nat) (S : List Byte), s.seq = ⟨.fill, blk, t⟩ →
    S.length = passLen s.internal.var s s.internal.pass → blk < blockCount s.internal.var S.length →
    (∀ j b, blk * blockBytes s.internal.var ≤ j → j < (blk + 1) * blockBytes s.internal.var → S[j]? = some b →
      streamByte s.internal.var s j = .ok b) →
    fillsBlock s blk (padded s.internal.var S)) ∧
  (∀ (s : State) (S : List Byte), holdsStream s S → S.length = passLen s.internal.var s s.internal.pass ∧
    ∀ j b, S[j]? = some b → streamByte s.internal.var s j = .ok b) ∧
  (∀ (s : State) (blk t : Nat) (m : List Byte), s.seq = ⟨.fill, blk, t⟩ → s.internal.pass = .plain → holdsMessage s m →
    blk < blockCount s.internal.var m.length → fillsBlock s blk (padded s.internal.var m))

/-- R186, R187: TRUNC: the first `D` bytes of the big-endian state words, byte by byte, for both word widths; a digest is `D` bytes. -/
def Obligations.TruncatedDigestBytes : Prop :=
  (∀ (v : Variant) (S : List Byte), (digestOf v S).length = digestBytes v) ∧
  (∀ (s : State), wordClass s.internal.var = .narrow →
    resultBytes s = (outputBytes s.internal.bank32.H).take (digestBytes s.internal.var) ∧
    ∀ j, j < digestBytes s.internal.var → (resultBytes s)[j]? =
      some (BitVec.ofNat 8 (((eightList s.internal.bank32.H).getD (j / 4) 0).toNat / 2 ^ (8 * (3 - j % 4))))) ∧
  (∀ (s : State), wordClass s.internal.var = .wide →
    resultBytes s = (outputBytes s.internal.bank64.H).take (digestBytes s.internal.var) ∧
    ∀ j, j < digestBytes s.internal.var → (resultBytes s)[j]? =
      some (BitVec.ofNat 8 (((eightList s.internal.bank64.H).getD (j / 8) 0).toNat / 2 ^ (8 * (7 - j % 8)))))

/-- R45, R189: the sequencer stays within its bounds: every micro-operation that is not refused leads from a state within them to one
within them, and a command begins within them. -/
def Obligations.SequencerStaysInBounds : Prop :=
  (∀ (op : Operation) (v : Variant) (s : State), sequencerInBounds (startCommand op v s)) ∧
  (∀ s t : State, sequencerInBounds s → engineStep s = .next t → sequencerInBounds t)

/-- R15, R68: the big-endian encoding byte by byte, and that reading it back gives the number. -/
def Obligations.BigEndianRoundTrip : Prop :=
  (∀ k v i : Nat, i < k → (beBytes k v)[i]? = some (BitVec.ofNat 8 (v / 2 ^ (8 * (k - 1 - i)) % 256))) ∧
  (∀ k v : Nat, (beBytes k v).length = k) ∧
  (∀ k v : Nat, v < 2 ^ (8 * k) → beNat (beBytes k v) = v) ∧
  (∀ s : List Byte, beBytes s.length (beNat s) = s)
end

