-- ==== Sys2Proof/Laws/State.lean ====
section
/-! SUPPORT. The small laws of the state: for each shared update, each field after it, true by definition, so that
no later proof unfolds a record update. -/

namespace Sys2Proof.Machine

variable (s : State)

/-! The end of a command. -/

@[simp] theorem endCommand_params : (endCommand s).params = s.params := rfl
@[simp] theorem endCommand_msg : (endCommand s).msg = s.msg := rfl
@[simp] theorem endCommand_key : (endCommand s).key = s.key := rfl
@[simp] theorem endCommand_msgLen : (endCommand s).msgLen = s.msgLen := rfl
@[simp] theorem endCommand_keyLen : (endCommand s).keyLen = s.keyLen := rfl
@[simp] theorem endCommand_status : (endCommand s).status = s.status := rfl
@[simp] theorem endCommand_digestLen : (endCommand s).digestLen = s.digestLen := rfl
@[simp] theorem endCommand_digest : (endCommand s).digest = s.digest := rfl
@[simp] theorem endCommand_seq : (endCommand s).seq = Sequencer.idle := rfl
@[simp] theorem endCommand_internal : (endCommand s).internal = Config.discarded s.draws := rfl
@[simp] theorem endCommand_pending : (endCommand s).pending = s.pending := rfl
@[simp] theorem endCommand_reply : (endCommand s).reply = s.reply := rfl
@[simp] theorem endCommand_draws : (endCommand s).draws = s.draws + 1 := rfl

/-! The error entry (R246). -/

@[simp] theorem raise_params (e : Err) : (raise e s).params = s.params := rfl
@[simp] theorem raise_msg (e : Err) : (raise e s).msg = s.msg := rfl
@[simp] theorem raise_key (e : Err) : (raise e s).key = s.key := rfl
@[simp] theorem raise_msgLen (e : Err) : (raise e s).msgLen = s.msgLen := rfl
@[simp] theorem raise_keyLen (e : Err) : (raise e s).keyLen = s.keyLen := rfl
@[simp] theorem raise_status (e : Err) : (raise e s).status = statusError e := rfl
@[simp] theorem raise_digestLen (e : Err) : (raise e s).digestLen = 0#7 := rfl
@[simp] theorem raise_digest (e : Err) : (raise e s).digest = [] := rfl
@[simp] theorem raise_seq (e : Err) : (raise e s).seq = Sequencer.idle := rfl
@[simp] theorem raise_internal (e : Err) : (raise e s).internal = Config.discarded s.draws := rfl
@[simp] theorem raise_pending (e : Err) : (raise e s).pending = s.pending := rfl
@[simp] theorem raise_reply (e : Err) : (raise e s).reply = s.reply := rfl
@[simp] theorem raise_draws (e : Err) : (raise e s).draws = s.draws + 1 := rfl

/-! A command that succeeds (R190, R217). -/

@[simp] theorem succeed_params (dg : List Byte) : (succeed dg s).params = s.params := rfl
@[simp] theorem succeed_msg (dg : List Byte) : (succeed dg s).msg = s.msg := rfl
@[simp] theorem succeed_key (dg : List Byte) : (succeed dg s).key = s.key := rfl
@[simp] theorem succeed_msgLen (dg : List Byte) : (succeed dg s).msgLen = s.msgLen := rfl
@[simp] theorem succeed_keyLen (dg : List Byte) : (succeed dg s).keyLen = s.keyLen := rfl
@[simp] theorem succeed_status (dg : List Byte) : (succeed dg s).status = statusSuccess := rfl
@[simp] theorem succeed_digestLen (dg : List Byte) : (succeed dg s).digestLen = BitVec.ofNat 7 dg.length := rfl
@[simp] theorem succeed_digest (dg : List Byte) : (succeed dg s).digest = Memory.writeBytes [] 0 dg := rfl
@[simp] theorem succeed_seq (dg : List Byte) : (succeed dg s).seq = Sequencer.idle := rfl
@[simp] theorem succeed_internal (dg : List Byte) : (succeed dg s).internal = Config.discarded s.draws := rfl
@[simp] theorem succeed_pending (dg : List Byte) : (succeed dg s).pending = s.pending := rfl
@[simp] theorem succeed_reply (dg : List Byte) : (succeed dg s).reply = s.reply := rfl
@[simp] theorem succeed_draws (dg : List Byte) : (succeed dg s).draws = s.draws + 1 := rfl

/-! The sequencer moves on (R189). -/

@[simp] theorem advance_params : (advance s).params = s.params := rfl
@[simp] theorem advance_msg : (advance s).msg = s.msg := rfl
@[simp] theorem advance_key : (advance s).key = s.key := rfl
@[simp] theorem advance_msgLen : (advance s).msgLen = s.msgLen := rfl
@[simp] theorem advance_keyLen : (advance s).keyLen = s.keyLen := rfl
@[simp] theorem advance_status : (advance s).status = s.status := rfl
@[simp] theorem advance_digestLen : (advance s).digestLen = s.digestLen := rfl
@[simp] theorem advance_digest : (advance s).digest = s.digest := rfl
@[simp] theorem advance_seq : (advance s).seq = nextSeq (rounds s.internal.var) (passBlocks s.internal.var s) s.seq := rfl
@[simp] theorem advance_internal : (advance s).internal = s.internal := rfl
@[simp] theorem advance_pending : (advance s).pending = s.pending := rfl
@[simp] theorem advance_reply : (advance s).reply = s.reply := rfl
@[simp] theorem advance_draws : (advance s).draws = s.draws := rfl

/-! The next digest computation begins (R214). -/

@[simp] theorem beginPass_params (p : Pass) : (beginPass p s).params = s.params := rfl
@[simp] theorem beginPass_msg (p : Pass) : (beginPass p s).msg = s.msg := rfl
@[simp] theorem beginPass_key (p : Pass) : (beginPass p s).key = s.key := rfl
@[simp] theorem beginPass_msgLen (p : Pass) : (beginPass p s).msgLen = s.msgLen := rfl
@[simp] theorem beginPass_keyLen (p : Pass) : (beginPass p s).keyLen = s.keyLen := rfl
@[simp] theorem beginPass_status (p : Pass) : (beginPass p s).status = s.status := rfl
@[simp] theorem beginPass_digestLen (p : Pass) : (beginPass p s).digestLen = s.digestLen := rfl
@[simp] theorem beginPass_digest (p : Pass) : (beginPass p s).digest = s.digest := rfl
@[simp] theorem beginPass_seq (p : Pass) : (beginPass p s).seq = ⟨.check, 0, 0⟩ := rfl
@[simp] theorem beginPass_pending (p : Pass) : (beginPass p s).pending = s.pending := rfl
@[simp] theorem beginPass_reply (p : Pass) : (beginPass p s).reply = s.reply := rfl
@[simp] theorem beginPass_draws (p : Pass) : (beginPass p s).draws = s.draws := rfl
@[simp] theorem beginPass_internal_opr (p : Pass) : (beginPass p s).internal.opr = s.internal.opr := rfl
@[simp] theorem beginPass_internal_var (p : Pass) : (beginPass p s).internal.var = s.internal.var := rfl
@[simp] theorem beginPass_internal_pass (p : Pass) : (beginPass p s).internal.pass = p := rfl
@[simp] theorem beginPass_internal_bank32 (p : Pass) : (beginPass p s).internal.bank32 = s.internal.bank32 := rfl
@[simp] theorem beginPass_internal_bank64 (p : Pass) : (beginPass p s).internal.bank64 = s.internal.bank64 := rfl
@[simp] theorem beginPass_internal_BLK (p : Pass) : (beginPass p s).internal.BLK = s.internal.BLK := rfl
@[simp] theorem beginPass_internal_KP (p : Pass) : (beginPass p s).internal.KP = s.internal.KP := rfl
@[simp] theorem beginPass_internal_INNER (p : Pass) : (beginPass p s).internal.INNER = s.internal.INNER := rfl

/-! An accepted command begins (R91). -/

@[simp] theorem startCommand_params (op : Operation) (v : Variant) : (startCommand op v s).params = s.params := rfl
@[simp] theorem startCommand_msg (op : Operation) (v : Variant) : (startCommand op v s).msg = s.msg := rfl
@[simp] theorem startCommand_key (op : Operation) (v : Variant) : (startCommand op v s).key = s.key := rfl
@[simp] theorem startCommand_msgLen (op : Operation) (v : Variant) : (startCommand op v s).msgLen = s.msgLen := rfl
@[simp] theorem startCommand_keyLen (op : Operation) (v : Variant) : (startCommand op v s).keyLen = s.keyLen := rfl
@[simp] theorem startCommand_status (op : Operation) (v : Variant) : (startCommand op v s).status = s.status := rfl
@[simp] theorem startCommand_digestLen (op : Operation) (v : Variant) : (startCommand op v s).digestLen = s.digestLen := rfl
@[simp] theorem startCommand_digest (op : Operation) (v : Variant) : (startCommand op v s).digest = s.digest := rfl
@[simp] theorem startCommand_seq (op : Operation) (v : Variant) : (startCommand op v s).seq = ⟨.check, 0, 0⟩ := rfl
@[simp] theorem startCommand_pending (op : Operation) (v : Variant) : (startCommand op v s).pending = s.pending := rfl
@[simp] theorem startCommand_reply (op : Operation) (v : Variant) : (startCommand op v s).reply = s.reply := rfl
@[simp] theorem startCommand_draws (op : Operation) (v : Variant) : (startCommand op v s).draws = s.draws := rfl
@[simp] theorem startCommand_internal_opr (op : Operation) (v : Variant) : (startCommand op v s).internal.opr = op := rfl
@[simp] theorem startCommand_internal_var (op : Operation) (v : Variant) : (startCommand op v s).internal.var = v := rfl
@[simp] theorem startCommand_internal_pass (op : Operation) (v : Variant) : (startCommand op v s).internal.pass = firstPass op v s := rfl
@[simp] theorem startCommand_internal_bank32 (op : Operation) (v : Variant) : (startCommand op v s).internal.bank32 = s.internal.bank32 := rfl
@[simp] theorem startCommand_internal_bank64 (op : Operation) (v : Variant) : (startCommand op v s).internal.bank64 = s.internal.bank64 := rfl
@[simp] theorem startCommand_internal_BLK (op : Operation) (v : Variant) : (startCommand op v s).internal.BLK = s.internal.BLK := rfl
@[simp] theorem startCommand_internal_KP (op : Operation) (v : Variant) : (startCommand op v s).internal.KP = s.internal.KP := rfl
@[simp] theorem startCommand_internal_INNER (op : Operation) (v : Variant) : (startCommand op v s).internal.INNER = s.internal.INNER := rfl

/-! A byte written to a space. -/

@[simp] theorem memWrite_msg_params (a : Nat) (b : Byte) : (memWrite .msg a b s).params = s.params := rfl
@[simp] theorem memWrite_msg_msg (a : Nat) (b : Byte) : (memWrite .msg a b s).msg = Memory.write s.msg a b := rfl
@[simp] theorem memWrite_msg_key (a : Nat) (b : Byte) : (memWrite .msg a b s).key = s.key := rfl
@[simp] theorem memWrite_msg_msgLen (a : Nat) (b : Byte) : (memWrite .msg a b s).msgLen = s.msgLen := rfl
@[simp] theorem memWrite_msg_keyLen (a : Nat) (b : Byte) : (memWrite .msg a b s).keyLen = s.keyLen := rfl
@[simp] theorem memWrite_msg_status (a : Nat) (b : Byte) : (memWrite .msg a b s).status = s.status := rfl
@[simp] theorem memWrite_msg_digestLen (a : Nat) (b : Byte) : (memWrite .msg a b s).digestLen = s.digestLen := rfl
@[simp] theorem memWrite_msg_digest (a : Nat) (b : Byte) : (memWrite .msg a b s).digest = s.digest := rfl
@[simp] theorem memWrite_msg_seq (a : Nat) (b : Byte) : (memWrite .msg a b s).seq = s.seq := rfl
@[simp] theorem memWrite_msg_internal (a : Nat) (b : Byte) : (memWrite .msg a b s).internal = s.internal := rfl
@[simp] theorem memWrite_msg_pending (a : Nat) (b : Byte) : (memWrite .msg a b s).pending = s.pending := rfl
@[simp] theorem memWrite_msg_reply (a : Nat) (b : Byte) : (memWrite .msg a b s).reply = s.reply := rfl
@[simp] theorem memWrite_msg_draws (a : Nat) (b : Byte) : (memWrite .msg a b s).draws = s.draws := rfl

@[simp] theorem memWrite_key_params (a : Nat) (b : Byte) : (memWrite .key a b s).params = s.params := rfl
@[simp] theorem memWrite_key_msg (a : Nat) (b : Byte) : (memWrite .key a b s).msg = s.msg := rfl
@[simp] theorem memWrite_key_key (a : Nat) (b : Byte) : (memWrite .key a b s).key = Memory.write s.key a b := rfl
@[simp] theorem memWrite_key_msgLen (a : Nat) (b : Byte) : (memWrite .key a b s).msgLen = s.msgLen := rfl
@[simp] theorem memWrite_key_keyLen (a : Nat) (b : Byte) : (memWrite .key a b s).keyLen = s.keyLen := rfl
@[simp] theorem memWrite_key_status (a : Nat) (b : Byte) : (memWrite .key a b s).status = s.status := rfl
@[simp] theorem memWrite_key_digestLen (a : Nat) (b : Byte) : (memWrite .key a b s).digestLen = s.digestLen := rfl
@[simp] theorem memWrite_key_digest (a : Nat) (b : Byte) : (memWrite .key a b s).digest = s.digest := rfl
@[simp] theorem memWrite_key_seq (a : Nat) (b : Byte) : (memWrite .key a b s).seq = s.seq := rfl
@[simp] theorem memWrite_key_internal (a : Nat) (b : Byte) : (memWrite .key a b s).internal = s.internal := rfl
@[simp] theorem memWrite_key_pending (a : Nat) (b : Byte) : (memWrite .key a b s).pending = s.pending := rfl
@[simp] theorem memWrite_key_reply (a : Nat) (b : Byte) : (memWrite .key a b s).reply = s.reply := rfl
@[simp] theorem memWrite_key_draws (a : Nat) (b : Byte) : (memWrite .key a b s).draws = s.draws := rfl

@[simp] theorem memWrite_digest_params (a : Nat) (b : Byte) : (memWrite .digest a b s).params = s.params := rfl
@[simp] theorem memWrite_digest_msg (a : Nat) (b : Byte) : (memWrite .digest a b s).msg = s.msg := rfl
@[simp] theorem memWrite_digest_key (a : Nat) (b : Byte) : (memWrite .digest a b s).key = s.key := rfl
@[simp] theorem memWrite_digest_msgLen (a : Nat) (b : Byte) : (memWrite .digest a b s).msgLen = s.msgLen := rfl
@[simp] theorem memWrite_digest_keyLen (a : Nat) (b : Byte) : (memWrite .digest a b s).keyLen = s.keyLen := rfl
@[simp] theorem memWrite_digest_status (a : Nat) (b : Byte) : (memWrite .digest a b s).status = s.status := rfl
@[simp] theorem memWrite_digest_digestLen (a : Nat) (b : Byte) : (memWrite .digest a b s).digestLen = s.digestLen := rfl
@[simp] theorem memWrite_digest_digest (a : Nat) (b : Byte) : (memWrite .digest a b s).digest = Memory.write s.digest a b := rfl
@[simp] theorem memWrite_digest_seq (a : Nat) (b : Byte) : (memWrite .digest a b s).seq = s.seq := rfl
@[simp] theorem memWrite_digest_internal (a : Nat) (b : Byte) : (memWrite .digest a b s).internal = s.internal := rfl
@[simp] theorem memWrite_digest_pending (a : Nat) (b : Byte) : (memWrite .digest a b s).pending = s.pending := rfl
@[simp] theorem memWrite_digest_reply (a : Nat) (b : Byte) : (memWrite .digest a b s).reply = s.reply := rfl
@[simp] theorem memWrite_digest_draws (a : Nat) (b : Byte) : (memWrite .digest a b s).draws = s.draws := rfl

/-! A micro-operation on a bank of word registers. -/

variable (f : {w : Nat} → CoreConsts w → Bank w → Bank w)

@[simp] theorem onBank_params : (onBank f s).params = s.params := by unfold onBank; split <;> rfl
@[simp] theorem onBank_msg : (onBank f s).msg = s.msg := by unfold onBank; split <;> rfl
@[simp] theorem onBank_key : (onBank f s).key = s.key := by unfold onBank; split <;> rfl
@[simp] theorem onBank_msgLen : (onBank f s).msgLen = s.msgLen := by unfold onBank; split <;> rfl
@[simp] theorem onBank_keyLen : (onBank f s).keyLen = s.keyLen := by unfold onBank; split <;> rfl
@[simp] theorem onBank_status : (onBank f s).status = s.status := by unfold onBank; split <;> rfl
@[simp] theorem onBank_digestLen : (onBank f s).digestLen = s.digestLen := by unfold onBank; split <;> rfl
@[simp] theorem onBank_digest : (onBank f s).digest = s.digest := by unfold onBank; split <;> rfl
@[simp] theorem onBank_seq : (onBank f s).seq = s.seq := by unfold onBank; split <;> rfl
@[simp] theorem onBank_pending : (onBank f s).pending = s.pending := by unfold onBank; split <;> rfl
@[simp] theorem onBank_reply : (onBank f s).reply = s.reply := by unfold onBank; split <;> rfl
@[simp] theorem onBank_draws : (onBank f s).draws = s.draws := by unfold onBank; split <;> rfl
@[simp] theorem onBank_internal_opr : (onBank f s).internal.opr = s.internal.opr := by unfold onBank; split <;> rfl
@[simp] theorem onBank_internal_var : (onBank f s).internal.var = s.internal.var := by unfold onBank; split <;> rfl
@[simp] theorem onBank_internal_pass : (onBank f s).internal.pass = s.internal.pass := by unfold onBank; split <;> rfl
@[simp] theorem onBank_internal_BLK : (onBank f s).internal.BLK = s.internal.BLK := by unfold onBank; split <;> rfl
@[simp] theorem onBank_internal_KP : (onBank f s).internal.KP = s.internal.KP := by unfold onBank; split <;> rfl
@[simp] theorem onBank_internal_INNER : (onBank f s).internal.INNER = s.internal.INNER := by unfold onBank; split <;> rfl

/-- On a 32-bit variant a micro-operation works on the 32-bit bank and leaves the other (R46). -/
theorem onBank_narrow (h : wordClass s.internal.var = .narrow) :
    onBank f s = { s with internal := { s.internal with bank32 := f core32 s.internal.bank32 } } := by
  simp [onBank, h]

/-- On a 64-bit variant a micro-operation works on the 64-bit bank and leaves the other (R46). -/
theorem onBank_wide (h : wordClass s.internal.var = .wide) :
    onBank f s = { s with internal := { s.internal with bank64 := f core64 s.internal.bank64 } } := by
  simp [onBank, h]

/-! The state after reset (R50). -/

@[simp] theorem powerOn_params (p : Params) : (State.powerOn p).params = p := rfl
@[simp] theorem powerOn_msg (p : Params) : (State.powerOn p).msg = [] := rfl
@[simp] theorem powerOn_key (p : Params) : (State.powerOn p).key = [] := rfl
@[simp] theorem powerOn_msgLen (p : Params) : (State.powerOn p).msgLen = 0#64 := rfl
@[simp] theorem powerOn_keyLen (p : Params) : (State.powerOn p).keyLen = 0#64 := rfl
@[simp] theorem powerOn_status (p : Params) : (State.powerOn p).status = 0#3 := rfl
@[simp] theorem powerOn_digestLen (p : Params) : (State.powerOn p).digestLen = 0#7 := rfl
@[simp] theorem powerOn_digest (p : Params) : (State.powerOn p).digest = [] := rfl
@[simp] theorem powerOn_seq (p : Params) : (State.powerOn p).seq = Sequencer.idle := rfl
@[simp] theorem powerOn_internal (p : Params) : (State.powerOn p).internal = Internal.atReset := rfl
@[simp] theorem powerOn_pending (p : Params) : (State.powerOn p).pending = [] := rfl
@[simp] theorem powerOn_reply (p : Params) : (State.powerOn p).reply = .nothing := rfl
@[simp] theorem powerOn_draws (p : Params) : (State.powerOn p).draws = 0 := rfl

/-! The values of `STATUS` (R26, R27). -/

theorem statusSuccess_eq : statusSuccess = 0b100#3 := rfl

theorem statusError_messageTooLong : statusError .messageTooLong = 0b001#3 := rfl

theorem statusError_unsupportedVariant : statusError .unsupportedVariant = 0b010#3 := rfl

/-- R27: `VALID` and `ERR` of the three values that a command leaves. -/
theorem status_fields : statusValid 0b100#3 = true ∧ statusErr 0b100#3 = 0#2 ∧ statusValid 0b001#3 = false ∧
    statusErr 0b001#3 = 1#2 ∧ statusValid 0b010#3 = false ∧ statusErr 0b010#3 = 2#2 := by decide

end Sys2Proof.Machine
end

