-- ==== Sys2Proof/Laws/Stream.lean ====
section
/-! SUPPORT. The laws of the padded stream: its length is a whole number of blocks, byte `j` of it is what the Padder's
index form says, and gathering a block's bytes gives the block of the stream (R145, R147, R148, R184). -/

namespace Sys2Proof.Machine

/-- R12, R18: the sizes of a variant are those of its word class. -/
theorem blockBytes_cases (v : Variant) :
    (blockBytes v = 64 ∧ lenBytes v = 8 ∧ rounds v = 64 ∧ wordBytes v = 4 ∧ wordClass v = .narrow) ∨
    (blockBytes v = 128 ∧ lenBytes v = 16 ∧ rounds v = 80 ∧ wordBytes v = 8 ∧ wordClass v = .wide) := by
  cases v <;> simp [blockBytes, lenBytes, rounds, wordBytes, wordClass]

theorem blockBytes_pos (v : Variant) : 0 < blockBytes v := by
  rcases blockBytes_cases v with h | h <;> omega

/-- R147: the padded length is a whole number of blocks. -/
theorem paddedLength_mod (v : Variant) (n : Nat) : paddedLength v n % blockBytes v = 0 := by
  rcases blockBytes_cases v with h | h <;> simp only [paddedLength, zeroFill, h] <;> omega

/-- R148: the padded stream is `NB` blocks. -/
theorem blockCount_mul (v : Variant) (n : Nat) : blockCount v n * blockBytes v = paddedLength v n :=
  Nat.div_mul_cancel (Nat.dvd_of_mod_eq_zero (paddedLength_mod v n))

/-- R148: `NB = floor((n + F)/B) + 1`. -/
theorem blockCount_eq (v : Variant) (n : Nat) : blockCount v n = (n + lenBytes v) / blockBytes v + 1 := by
  rcases blockBytes_cases v with h | h <;> simp only [blockCount, paddedLength, zeroFill, h] <;> omega

theorem blockCount_pos (v : Variant) (n : Nat) : 0 < blockCount v n := by
  rw [blockCount_eq]; exact Nat.succ_pos _

@[simp] theorem length_beBytes (k v : Nat) : (beBytes k v).length = k := by simp [beBytes]

@[simp] theorem length_zeros (k : Nat) : (zeros k).length = k := by simp [zeros]

@[simp] theorem length_xorByte (c : Byte) (s : List Byte) : (xorByte c s).length = s.length := by simp [xorByte]

/-- R145: `len(P) = 1 + z + F`. -/
@[simp] theorem length_padding (v : Variant) (n : Nat) : (padding v n).length = 1 + zeroFill v n + lenBytes v := by
  simp [padding]; omega

/-- R145: the length of the padded stream is `N`. -/
@[simp] theorem length_padded (v : Variant) (S : List Byte) : (padded v S).length = paddedLength v S.length := by
  simp [padded, paddedLength]; omega

/-- R145, index by index: byte `j` of the padded stream. -/
theorem padded_getElem? (v : Variant) (S : List Byte) (j : Nat) (h : j < paddedLength v S.length) :
    (padded v S)[j]? = some (if j < S.length then S.getD j 0 else padByte v S.length j) := by
  unfold padded
  by_cases h1 : j < S.length
  · rw [List.getElem?_append_left h1]; simp [h1]
  · rw [List.getElem?_append_right (by omega), if_neg h1]
    unfold padding padByte
    by_cases h2 : j = S.length
    · simp [h2]
    · rw [if_neg h2]
      have h3 : j - S.length = (j - S.length - 1) + 1 := by omega
      rw [h3, List.getElem?_cons_succ]
      have hl : paddedLength v S.length - lenBytes v = S.length + 1 + zeroFill v S.length := by
        simp [paddedLength]
      have hN : paddedLength v S.length = S.length + 1 + zeroFill v S.length + lenBytes v := rfl
      rw [hl]
      by_cases h4 : j < S.length + 1 + zeroFill v S.length
      · rw [if_pos h4, List.getElem?_append_left (by simp; omega), zeros, List.getElem?_replicate,
          if_pos (by omega)]
      · rw [if_neg h4, List.getElem?_append_right (by simp; omega)]
        have h5 : j - S.length - 1 - (zeros (zeroFill v S.length)).length
            = j - (S.length + 1 + zeroFill v S.length) := by simp; omega
        rw [h5, beBytes, List.getElem?_map, List.getElem?_range (by omega)]
        rfl

/-- Gathering the bytes of a list from `i` on gives the slice of the list. -/
theorem gather_slice (f : Nat → Except Refusal Byte) (L : List Byte) (i k : Nat) (h : i + k ≤ L.length)
    (hf : ∀ j, i ≤ j → j < i + k → f j = .ok (L.getD j 0)) : gather f i k = .ok (slice L i k) := by
  induction k generalizing i with
  | zero => simp [gather, slice]
  | succ k ih =>
    rw [gather, hf i (le_refl i) (by omega), ih (i + 1) (by omega) fun j h1 h2 => hf j (by omega) (by omega)]
    have hi : i < L.length := by omega
    simp only [slice]
    rw [List.drop_eq_getElem_cons hi, List.take_succ_cons]
    simp [hi]

/-- What a gathering that succeeds answers: as many bytes as were asked for, each the one the source gives. -/
theorem gather_ok {f : Nat → Except Refusal Byte} {i k : Nat} {bs : List Byte} (h : gather f i k = .ok bs) :
    bs.length = k ∧ ∀ j, j < k → f (i + j) = .ok (bs.getD j 0) := by
  induction k generalizing i bs with
  | zero => simp only [gather, Except.ok.injEq] at h; subst h; simp
  | succ k ih =>
    rw [gather] at h
    split at h
    · cases h
    · rename_i b hb
      split at h
      · cases h
      · rename_i bs' hbs
        cases h
        obtain ⟨hl, hf⟩ := ih hbs
        refine ⟨by simp [hl], fun j hj => ?_⟩
        cases j with
        | zero => simpa using hb
        | succ j => have := hf j (by omega); rw [show i + (j + 1) = i + 1 + j by omega, this]; simp

/-- Gathering fails when one of the bytes asked for has no value, for the reason that all of them that fail give. -/
theorem gather_error {f : Nat → Except Refusal Byte} {r : Refusal} {i k j : Nat} (h1 : i ≤ j) (h2 : j < i + k)
    (hj : f j = .error r) (hall : ∀ j r', i ≤ j → j < i + k → f j = .error r' → r' = r) :
    gather f i k = .error r := by
  induction k generalizing i with
  | zero => omega
  | succ k ih =>
    rw [gather]
    cases hi : f i with
    | error r' => simp [hall i r' (le_refl i) (by omega) hi]
    | ok b =>
      have hne : i ≠ j := by intro e; rw [e, hj] at hi; cases hi
      simp only [ih (i := i + 1) (by omega) (by omega) fun j r' h1 h2 => hall j r' (by omega) (by omega)]

/-- A gathering either succeeds or meets a byte that has no value. -/
theorem gather_error_inv {f : Nat → Except Refusal Byte} {r : Refusal} {i k : Nat} (h : gather f i k = .error r) :
    ∃ j, i ≤ j ∧ j < i + k ∧ f j = .error r := by
  induction k generalizing i with
  | zero => cases h
  | succ k ih =>
    rw [gather] at h
    split at h
    · rename_i r' hr; cases h; exact ⟨i, le_refl i, by omega, hr⟩
    · split at h
      · rename_i r' hr; cases h
        obtain ⟨j, h1, h2, h3⟩ := ih hr
        exact ⟨j, by omega, by omega, h3⟩
      · cases h

/-- R184: the stream of the pass in progress has the length of `S`, and below the index `lim` each of its bytes is
readable and is the one of `S`. -/
def StreamUpTo (v : Variant) (s : State) (S : List Byte) (lim : Nat) : Prop :=
  passLen v s s.internal.pass = S.length ∧ ∀ j, j < S.length → j < lim → streamByte v s j = .ok (S.getD j 0)

/-- R184: byte `j` of the padded stream, where the stream is `S` up to beyond `j`. -/
theorem paddedByte_of_stream {v : Variant} {s : State} {S : List Byte} {lim : Nat} (h : StreamUpTo v s S lim) {j : Nat}
    (hj : j < paddedLength v S.length) (hl : j < lim) : paddedByte v s j = .ok ((padded v S).getD j 0) := by
  rw [List.getD_eq_getElem?_getD, padded_getElem? v S j hj, paddedByte, h.1]
  by_cases h1 : j < S.length
  · simp only [h1, if_true, h.2 j h1 hl, Option.getD_some]
  · simp [h1]

/-- R184: FILL gathers block `blk` of the padded stream. -/
theorem gather_block {v : Variant} {s : State} {S : List Byte} {lim : Nat} (h : StreamUpTo v s S lim) {blk : Nat}
    (hb : blk < blockCount v S.length) (hl : (blk + 1) * blockBytes v ≤ lim) :
    gather (paddedByte v s) (blk * blockBytes v) (blockBytes v) = .ok (streamBlock v S blk) := by
  have hN : (blk + 1) * blockBytes v ≤ paddedLength v S.length := by
    rw [← blockCount_mul]; exact Nat.mul_le_mul_right _ hb
  rw [Nat.add_mul, Nat.one_mul] at hN hl
  exact gather_slice _ _ _ _ (by simpa using hN) fun j _ h2 => paddedByte_of_stream h (by omega) (by omega)

end Sys2Proof.Machine
end

