-- ==== Sys2Proof/Laws/Engine.lean ====
section
/-! SUPPORT. The laws of the engine: what the run of its micro-operations comes to. A `Lane` is the word bank of one
variant with what the engine does on it, so that each law is proved once for both word widths. From `INIT` to `TRUNC`
one digest computation leaves in `H` the fold of the compressions over the blocks of the padded stream (R157, R166,
R181, R189). -/

namespace Sys2Proof.Machine

/-- `k` moves of the engine take `s` to `s'`, none of them refused. -/
def Runs (k : Nat) (s s' : State) : Prop := runEngine k s = .next s'

theorem Runs.zero (s : State) : Runs 0 s s := rfl

/-- Moves that follow one another. -/
theorem runEngine_add {m : Nat} {s s' : State} (h : Runs m s s') (n : Nat) : runEngine (m + n) s = runEngine n s' := by
  induction m generalizing s with
  | zero => cases h; simp
  | succ m ih =>
    rw [show m + 1 + n = (m + n) + 1 by omega]
    unfold Runs at h
    rw [runEngine] at h ⊢
    split at h
    · exact ih h
    · cases h
    · cases h

theorem Runs.trans {m n : Nat} {s s' s'' : State} (h : Runs m s s') (h' : Runs n s' s'') : Runs (m + n) s s'' := by
  unfold Runs; rw [runEngine_add h]; exact h'

/-- One move. -/
theorem Runs.one {s s' : State} (h : engineStep s = .next s') : Runs 1 s s' := by
  simp [Runs, runEngine, h]

/-- A move that is refused refuses the run. -/
theorem runEngine_refused {s : State} {r : Refusal} (h : engineStep s = .refused r) (n : Nat) :
    runEngine (n + 1) s = .refused r := by
  simp [runEngine, h]

/-- R258: idle, the engine keeps its state. -/
theorem runEngine_idle {s : State} (h : s.seq.phase = .idle) (n : Nat) : runEngine n s = .next s := by
  induction n with
  | zero => rfl
  | succ n ih => simp [runEngine, engineStep, h, ih]

/-- The word bank of variant `v`, with what the engine does on it (R46). -/
structure Lane (w : Nat) (v : Variant) where
  c : CoreConsts w
  h0 : Eight w
  get : Internal → Bank w
  set : Internal → Bank w → Internal
  get_set : ∀ i b, get (set i b) = b
  set_set : ∀ i b b', set (set i b) b' = set i b'
  set_get : ∀ i, set i (get i) = i
  opr_set : ∀ i b, (set i b).opr = i.opr
  var_set : ∀ i b, (set i b).var = i.var
  pass_set : ∀ i b, (set i b).pass = i.pass
  BLK_set : ∀ i b, (set i b).BLK = i.BLK
  KP_set : ∀ i b, (set i b).KP = i.KP
  INNER_set : ∀ i b, (set i b).INNER = i.INNER
  get_BLK : ∀ i x, get { i with BLK := x } = get i
  set_BLK : ∀ i b x, ({ set i b with BLK := x } : Internal) = set { i with BLK := x } b
  onBank_eq : ∀ (f : {w : Nat} → CoreConsts w → Bank w → Bank w) (s : State), s.internal.var = v →
    onBank f s = { s with internal := set s.internal (f c (get s.internal)) }
  init_eq : ∀ s : State, s.internal.var = v →
    microInit s = advance { s with internal := set s.internal { get s.internal with H := h0 } }
  result_eq : ∀ s : State, s.internal.var = v →
    resultBytes s = (outputBytes (get s.internal).H).take (digestBytes v)
  set_form : ∀ i b, ∃ b32 b64, set i b = { i with bank32 := b32, bank64 := b64 }
  digest_eq : ∀ S, digestOf v S = (outputBytes (foldBlocks c v S h0 (blockCount v S.length))).take (digestBytes v)

/-- R186: TRUNC byte by byte is the first bytes of the words' big-endian encodings, for 32-bit words. -/
theorem truncBytes_narrow (H : Eight 32) :
    truncBytes 28 H = (outputBytes H).take 28 ∧ truncBytes 32 H = (outputBytes H).take 32 := ⟨rfl, rfl⟩

/-- R186: the same for 64-bit words. -/
theorem truncBytes_wide (H : Eight 64) :
    truncBytes 28 H = (outputBytes H).take 28 ∧ truncBytes 32 H = (outputBytes H).take 32 ∧
    truncBytes 48 H = (outputBytes H).take 48 ∧ truncBytes 64 H = (outputBytes H).take 64 := ⟨rfl, rfl, rfl, rfl⟩

/-- The lane of a 32-bit variant. -/
def narrowLane (v : Variant) (h : Eight 32) (hc : wordClass v = .narrow) (hi : initialState v = .narrow h)
    (hd : ∀ H : Eight 32, truncBytes (digestBytes v) H = (outputBytes H).take (digestBytes v)) : Lane 32 v where
  c := core32
  h0 := h
  get := fun i => i.bank32
  set := fun i b => { i with bank32 := b }
  get_set := fun _ _ => rfl
  set_set := fun _ _ _ => rfl
  set_get := fun _ => rfl
  opr_set := fun _ _ => rfl
  var_set := fun _ _ => rfl
  pass_set := fun _ _ => rfl
  BLK_set := fun _ _ => rfl
  KP_set := fun _ _ => rfl
  INNER_set := fun _ _ => rfl
  get_BLK := fun _ _ => rfl
  set_BLK := fun _ _ _ => rfl
  onBank_eq := fun f s hv => onBank_narrow s f (by rw [hv, hc])
  init_eq := fun s hv => by simp [microInit, hv, hi]
  result_eq := fun s hv => by simp [resultBytes, hv, hc, hd]
  set_form := fun i b => ⟨b, i.bank64, rfl⟩
  digest_eq := fun S => by simp [digestOf, hi]

/-- The lane of a 64-bit variant. -/
def wideLane (v : Variant) (h : Eight 64) (hc : wordClass v = .wide) (hi : initialState v = .wide h)
    (hd : ∀ H : Eight 64, truncBytes (digestBytes v) H = (outputBytes H).take (digestBytes v)) : Lane 64 v where
  c := core64
  h0 := h
  get := fun i => i.bank64
  set := fun i b => { i with bank64 := b }
  get_set := fun _ _ => rfl
  set_set := fun _ _ _ => rfl
  set_get := fun _ => rfl
  opr_set := fun _ _ => rfl
  var_set := fun _ _ => rfl
  pass_set := fun _ _ => rfl
  BLK_set := fun _ _ => rfl
  KP_set := fun _ _ => rfl
  INNER_set := fun _ _ => rfl
  get_BLK := fun _ _ => rfl
  set_BLK := fun _ _ _ => rfl
  onBank_eq := fun f s hv => onBank_wide s f (by rw [hv, hc])
  init_eq := fun s hv => by simp [microInit, hv, hi]
  result_eq := fun s hv => by simp [resultBytes, hv, hc, hd]
  set_form := fun i b => ⟨i.bank32, b, rfl⟩
  digest_eq := fun S => by simp [digestOf, hi]

/-- Every variant has its lane. -/
theorem exists_lane (v : Variant) : ∃ w, Nonempty (Lane w v) := by
  cases v
  · exact ⟨32, ⟨narrowLane _ h0Sha224 rfl rfl fun H => (truncBytes_narrow H).1⟩⟩
  · exact ⟨32, ⟨narrowLane _ h0Sha256 rfl rfl fun H => (truncBytes_narrow H).2⟩⟩
  · exact ⟨64, ⟨wideLane _ h0Sha384 rfl rfl fun H => (truncBytes_wide H).2.2.1⟩⟩
  · exact ⟨64, ⟨wideLane _ h0Sha512 rfl rfl fun H => (truncBytes_wide H).2.2.2⟩⟩
  · exact ⟨64, ⟨wideLane _ h0Sha512_224 rfl rfl fun H => (truncBytes_wide H).1⟩⟩
  · exact ⟨64, ⟨wideLane _ h0Sha512_256 rfl rfl fun H => (truncBytes_wide H).2.1⟩⟩

namespace Lane

variable {w : Nat} {v : Variant} (L : Lane w v)

/-- The state with the variant's bank at `b` and the sequencer at `q`; nothing else differs. -/
def put (b : Bank w) (q : Sequencer) (s : State) : State := { s with internal := L.set s.internal b, seq := q }

@[simp] theorem put_seq (b : Bank w) (q : Sequencer) (s : State) : (L.put b q s).seq = q := rfl

@[simp] theorem put_get (b : Bank w) (q : Sequencer) (s : State) : L.get (L.put b q s).internal = b := L.get_set _ _

@[simp] theorem put_var (b : Bank w) (q : Sequencer) (s : State) : (L.put b q s).internal.var = s.internal.var :=
  L.var_set _ _

@[simp] theorem put_BLK (b : Bank w) (q : Sequencer) (s : State) : (L.put b q s).internal.BLK = s.internal.BLK :=
  L.BLK_set _ _

@[simp] theorem put_put (b b' : Bank w) (q q' : Sequencer) (s : State) :
    L.put b' q' (L.put b q s) = L.put b' q' s := by
  simp [put, L.set_set]

@[simp] theorem put_passBlocks (b : Bank w) (q : Sequencer) (s : State) (u : Variant) :
    passBlocks u (L.put b q s) = passBlocks u s := by
  simp [passBlocks, put, L.pass_set]; cases s.internal.pass <;> rfl

/-- R189: what `advance` after a micro-operation on the bank comes to. -/
theorem advance_onBank (f : {w : Nat} → CoreConsts w → Bank w → Bank w) (s : State) (hv : s.internal.var = v) :
    advance (onBank f s) =
      L.put (f L.c (L.get s.internal)) (nextSeq (rounds v) (passBlocks v s) s.seq) s := by
  rw [L.onBank_eq f s hv, advance]
  have h : passBlocks v { s with internal := L.set s.internal (f L.c (L.get s.internal)) } = passBlocks v s :=
    L.put_passBlocks _ s.seq s v
  simp only [L.var_set, hv, h]
  rfl

variable {s : State}

theorem runs_pack (hv : s.internal.var = v) {blk t : Nat} (hs : s.seq = ⟨.pack, blk, t⟩) :
    Runs 1 s (L.put (bankPack s.internal.BLK (L.get s.internal)) ⟨.sched, blk, 16⟩ s) := by
  apply Runs.one
  simp only [engineStep, hs, microPack]
  rw [L.advance_onBank (fun _ b => bankPack s.internal.BLK b) s hv, hs]; rfl

theorem runs_load (hv : s.internal.var = v) {blk t : Nat} (hs : s.seq = ⟨.load, blk, t⟩) :
    Runs 1 s (L.put (bankLoad (L.get s.internal)) ⟨.round, blk, 0⟩ s) := by
  apply Runs.one
  simp only [engineStep, hs, microLoad]
  rw [L.advance_onBank (fun _ b => bankLoad b) s hv, hs]; rfl

theorem runs_fold (hv : s.internal.var = v) {blk t : Nat} (hs : s.seq = ⟨.fold, blk, t⟩) :
    Runs 1 s (L.put (bankFold (L.get s.internal))
      (if blk + 1 < passBlocks v s then ⟨.fill, blk + 1, 0⟩ else ⟨.trunc, blk, 0⟩) s) := by
  apply Runs.one
  simp only [engineStep, hs, microFold]
  rw [L.advance_onBank (fun _ b => bankFold b) s hv, hs]; rfl

theorem step_sched (hv : s.internal.var = v) {blk t : Nat} (hs : s.seq = ⟨.sched, blk, t⟩) :
    Runs 1 s (L.put (bankSched L.c t (L.get s.internal))
      (if t + 1 < rounds v then ⟨.sched, blk, t + 1⟩ else ⟨.load, blk, 0⟩) s) := by
  apply Runs.one
  simp only [engineStep, hs, microSched]
  rw [L.advance_onBank (fun c b => bankSched c t b) s hv, hs]; rfl

theorem step_round (hv : s.internal.var = v) {blk t : Nat} (hs : s.seq = ⟨.round, blk, t⟩) :
    Runs 1 s (L.put (bankRound L.c t (L.get s.internal))
      (if t + 1 < rounds v then ⟨.round, blk, t + 1⟩ else ⟨.fold, blk, 0⟩) s) := by
  apply Runs.one
  simp only [engineStep, hs, microRound]
  rw [L.advance_onBank (fun c b => bankRound c t b) s hv, hs]; rfl

/-- R159: the SCHED micro-operations from `16 + k` on complete the schedule. -/
theorem runs_sched (hv : s.internal.var = v) {blk k j : Nat} {block : List Byte}
    (hs : s.seq = ⟨.sched, blk, 16 + k⟩) (hW : (L.get s.internal).W = schedule L.c block k)
    (hk : 16 + k + (j + 1) = rounds v) :
    Runs (j + 1) s (L.put { L.get s.internal with W := schedule L.c block (rounds v - 16) } ⟨.load, blk, 0⟩ s) := by
  induction j generalizing s k with
  | zero =>
    have h1 := L.step_sched hv hs
    rw [if_neg (by omega), bankSched, hW] at h1
    rwa [show rounds v - 16 = k + 1 by omega]
  | succ j ih =>
    have h1 := L.step_sched hv hs
    rw [if_pos (by omega), bankSched, hW] at h1
    rw [Nat.add_comm (j + 1) 1]
    refine h1.trans ?_
    have h2 := ih (s := L.put { L.get s.internal with W := schedule L.c block (k + 1) } ⟨.sched, blk, 16 + k + 1⟩ s)
      (k := k + 1) (by simpa using hv) rfl (by simp) (by omega)
    simpa [schedule] using h2

/-- R161: the ROUND micro-operations from `k` on complete the rounds. -/
theorem runs_round (hv : s.internal.var = v) {blk k j : Nat} {l : Eight w}
    (hs : s.seq = ⟨.round, blk, k⟩) (hl : (L.get s.internal).loc = roundsFrom L.c (L.get s.internal).W l k)
    (hk : k + (j + 1) = rounds v) :
    Runs (j + 1) s (L.put { L.get s.internal with loc := roundsFrom L.c (L.get s.internal).W l (rounds v) }
      ⟨.fold, blk, 0⟩ s) := by
  induction j generalizing s k with
  | zero =>
    have h1 := L.step_round hv hs
    rw [if_neg (by omega), bankRound, hl] at h1
    rwa [show rounds v = k + 1 by omega]
  | succ j ih =>
    have h1 := L.step_round hv hs
    rw [if_pos (by omega), bankRound, hl] at h1
    rw [Nat.add_comm (j + 1) 1]
    refine h1.trans ?_
    have h2 := ih (s := L.put { L.get s.internal with loc := roundsFrom L.c (L.get s.internal).W l (k + 1) }
      ⟨.round, blk, k + 1⟩ s) (k := k + 1) (by simpa using hv) rfl (by simp) (by omega)
    simpa [roundsFrom] using h2

/-- R157, R166: from PACK to FOLD the engine compresses the block in `BLK` into `H`. What the schedule and the locals held
before does not matter (R47, R164). -/
theorem runs_compress (hv : s.internal.var = v) {blk t : Nat} (hs : s.seq = ⟨.pack, blk, t⟩) :
    ∃ b : Bank w, b.H = compress L.c (rounds v) (L.get s.internal).H s.internal.BLK ∧
      Runs (1 + (rounds v - 16) + 1 + rounds v + 1) s
        (L.put b (if blk + 1 < passBlocks v s then ⟨.fill, blk + 1, 0⟩ else ⟨.trunc, blk, 0⟩) s) := by
  have hr : rounds v = 64 ∨ rounds v = 80 := by rcases blockBytes_cases v with h | h <;> omega
  have p1 := L.runs_pack hv hs
  set s1 := L.put (bankPack s.internal.BLK (L.get s.internal)) ⟨.sched, blk, 16⟩ s with hs1
  have hv1 : s1.internal.var = v := by simp [hs1, hv]
  have p2 := L.runs_sched hv1 (blk := blk) (k := 0) (j := rounds v - 17) (block := s.internal.BLK)
    (by simp [hs1]) (by simp [hs1, bankPack, schedule]) (by omega)
  rw [show rounds v - 17 + 1 = rounds v - 16 by omega] at p2
  set s2 := L.put { L.get s1.internal with W := schedule L.c s.internal.BLK (rounds v - 16) } ⟨.load, blk, 0⟩ s1 with hs2
  have hv2 : s2.internal.var = v := by simp [hs2, hv1]
  have p3 := L.runs_load hv2 (blk := blk) (t := 0) (by simp [hs2])
  set s3 := L.put (bankLoad (L.get s2.internal)) ⟨.round, blk, 0⟩ s2 with hs3
  have hv3 : s3.internal.var = v := by simp [hs3, hv2]
  have p4 := L.runs_round hv3 (blk := blk) (k := 0) (j := rounds v - 1) (l := (L.get s.internal).H)
    (by simp [hs3]) (by simp [hs3, hs2, hs1, bankLoad, bankPack, roundsFrom]) (by omega)
  rw [show rounds v - 1 + 1 = rounds v by omega] at p4
  set s4 := L.put { L.get s3.internal with loc := roundsFrom L.c (L.get s3.internal).W (L.get s.internal).H (rounds v) }
    ⟨.fold, blk, 0⟩ s3 with hs4
  have hv4 : s4.internal.var = v := by simp [hs4, hv3]
  have p5 := L.runs_fold hv4 (blk := blk) (t := 0) (by simp [hs4])
  refine ⟨bankFold (L.get s4.internal), ?_, ?_⟩
  · simp [hs4, hs3, hs2, hs1, bankFold, bankLoad, bankPack, compress]
  · have h := (((p1.trans p2).trans p3).trans p4).trans p5
    simpa [hs4, hs3, hs2, hs1] using h

/-- The state with the variant's bank at `b`, the block buffer at `x` and the sequencer at `q`. -/
def putBlock (b : Bank w) (x : List Byte) (q : Sequencer) (s : State) : State :=
  { s with internal := L.set { s.internal with BLK := x } b, seq := q }

@[simp] theorem putBlock_seq (b : Bank w) (x : List Byte) (q : Sequencer) (s : State) :
    (L.putBlock b x q s).seq = q := rfl

@[simp] theorem putBlock_get (b : Bank w) (x : List Byte) (q : Sequencer) (s : State) :
    L.get (L.putBlock b x q s).internal = b := L.get_set _ _

@[simp] theorem putBlock_var (b : Bank w) (x : List Byte) (q : Sequencer) (s : State) :
    (L.putBlock b x q s).internal.var = s.internal.var := L.var_set _ _

@[simp] theorem putBlock_BLK (b : Bank w) (x : List Byte) (q : Sequencer) (s : State) :
    (L.putBlock b x q s).internal.BLK = x := L.BLK_set _ _

@[simp] theorem putBlock_putBlock (b b' : Bank w) (x x' : List Byte) (q q' : Sequencer) (s : State) :
    L.putBlock b' x' q' (L.putBlock b x q s) = L.putBlock b' x' q' s := by
  simp [putBlock, L.set_BLK, L.set_set]

@[simp] theorem put_putBlock (b b' : Bank w) (x : List Byte) (q q' : Sequencer) (s : State) :
    L.put b' q' (L.putBlock b x q s) = L.putBlock b' x q' s := by
  simp [putBlock, put, L.set_set]

@[simp] theorem putBlock_passBlocks (b : Bank w) (x : List Byte) (q : Sequencer) (s : State) (u : Variant) :
    passBlocks u (L.putBlock b x q s) = passBlocks u s := by
  simp [passBlocks, putBlock, L.pass_set]; cases s.internal.pass <;> rfl

/-- The stream of a pass does not depend on the word registers, the block buffer or the sequencer. -/
theorem streamByte_putBlock {b : Bank w} {x : List Byte} {q : Sequencer} {u : Variant} (j : Nat) :
    streamByte u (L.putBlock b x q s) j = streamByte u s j := by
  have e1 : (L.putBlock b x q s).internal.pass = s.internal.pass := L.pass_set _ _
  have e2 : (L.putBlock b x q s).internal.KP = s.internal.KP := L.KP_set _ _
  have e3 : (L.putBlock b x q s).internal.INNER = s.internal.INNER := L.INNER_set _ _
  simp only [streamByte, paddedKeyByte, e1, e2, e3]
  rfl

theorem passLen_putBlock {b : Bank w} {x : List Byte} {q : Sequencer} {u : Variant} :
    passLen u (L.putBlock b x q s) (L.putBlock b x q s).internal.pass = passLen u s s.internal.pass := by
  have e1 : (L.putBlock b x q s).internal.pass = s.internal.pass := L.pass_set _ _
  rw [e1]; cases s.internal.pass <;> rfl

theorem streamUpTo_putBlock {b : Bank w} {x : List Byte} {q : Sequencer} {u : Variant} {S : List Byte} {lim : Nat}
    (h : StreamUpTo u s S lim) : StreamUpTo u (L.putBlock b x q s) S lim :=
  ⟨by rw [L.passLen_putBlock, h.1], fun j h1 h2 => by rw [L.streamByte_putBlock, h.2 j h1 h2]⟩

/-- R184: FILL brings block `blk` of the padded stream into `BLK`. -/
theorem runs_fill (hv : s.internal.var = v) {S : List Byte} {lim : Nat} (hS : StreamUpTo v s S lim) {blk t : Nat}
    (hb : blk < blockCount v S.length) (hl : (blk + 1) * blockBytes v ≤ lim) (hs : s.seq = ⟨.fill, blk, t⟩) :
    Runs 1 s (L.putBlock (L.get s.internal) (streamBlock v S blk) ⟨.pack, blk, 0⟩ s) := by
  apply Runs.one
  simp only [engineStep, hs, microFill, hv, gather_block hS hb hl]
  have e : L.set { s.internal with BLK := streamBlock v S blk } (L.get s.internal)
      = { s.internal with BLK := streamBlock v S blk } := by
    rw [← L.set_BLK, L.set_get]
  rw [putBlock, e]
  simp [advance, nextSeq, hv]

/-- R157, R184, R185: from FILL to FOLD the engine compresses block `blk` of the stream into `H`. -/
theorem runs_block (hv : s.internal.var = v) {S : List Byte} {lim : Nat} (hS : StreamUpTo v s S lim) {blk : Nat}
    (hb : blk < blockCount v S.length) (hl : (blk + 1) * blockBytes v ≤ lim) (hs : s.seq = ⟨.fill, blk, 0⟩) :
    ∃ b : Bank w, b.H = compress L.c (rounds v) (L.get s.internal).H (streamBlock v S blk) ∧
      Runs (opsPerBlock v) s (L.putBlock b (streamBlock v S blk)
        (if blk + 1 < blockCount v S.length then ⟨.fill, blk + 1, 0⟩ else ⟨.trunc, blk, 0⟩) s) := by
  have p1 := L.runs_fill hv hS hb hl hs
  set s1 := L.putBlock (L.get s.internal) (streamBlock v S blk) ⟨.pack, blk, 0⟩ s with hs1
  obtain ⟨b, hbH, p2⟩ := L.runs_compress (s := s1) (by simp [hs1, hv]) (blk := blk) (t := 0) (by simp [hs1])
  refine ⟨b, by simpa [hs1] using hbH, ?_⟩
  have hp : passBlocks v s1 = blockCount v S.length := by
    rw [hs1, L.putBlock_passBlocks, passBlocks, hS.1]
  rw [hp] at p2
  have h := p1.trans p2
  simpa [hs1, opsPerBlock] using h

/-- R185: from FILL of block 0 on, the first `k + 1` blocks are compressed into `H` in order. -/
theorem runs_blocks (hv : s.internal.var = v) {S : List Byte} {lim : Nat} (hS : StreamUpTo v s S lim)
    (hs : s.seq = ⟨.fill, 0, 0⟩) (hH : (L.get s.internal).H = L.h0) {k : Nat}
    (hk : k < blockCount v S.length) (hl : (k + 1) * blockBytes v ≤ lim) :
    ∃ (b : Bank w) (x : List Byte), b.H = foldBlocks L.c v S L.h0 (k + 1) ∧
      Runs ((k + 1) * opsPerBlock v) s (L.putBlock b x
        (if k + 1 < blockCount v S.length then ⟨.fill, k + 1, 0⟩ else ⟨.trunc, k, 0⟩) s) := by
  induction k with
  | zero =>
    obtain ⟨b, hb, p⟩ := L.runs_block hv hS hk hl hs
    exact ⟨b, _, by rw [hb, hH]; rfl, by simpa using p⟩
  | succ k ih =>
    have hl' : (k + 1) * blockBytes v ≤ lim := le_trans (Nat.mul_le_mul_right _ (by omega)) hl
    obtain ⟨b, x, hb, p⟩ := ih (by omega) hl'
    rw [if_pos hk] at p
    set s1 := L.putBlock b x ⟨.fill, k + 1, 0⟩ s with hs1
    obtain ⟨b', hb', p'⟩ := L.runs_block (s := s1) (by simp [hs1, hv]) (L.streamUpTo_putBlock hS) hk hl (by simp [hs1])
    refine ⟨b', streamBlock v S (k + 1), ?_, ?_⟩
    · rw [hb']; simp [hs1, hb, foldBlocks]
    · rw [Nat.add_mul (k + 1) 1, Nat.one_mul]
      have h := p.trans p'
      simpa [hs1] using h

/-- R183: INIT. -/
theorem runs_init (hv : s.internal.var = v) {blk t : Nat} (hs : s.seq = ⟨.init, blk, t⟩) :
    Runs 1 s (L.put { L.get s.internal with H := L.h0 } ⟨.fill, 0, 0⟩ s) := by
  apply Runs.one
  simp only [engineStep, hs]
  rw [L.init_eq s hv]
  simp [advance, put, nextSeq, hs]

theorem put_eq_putBlock (b : Bank w) (q : Sequencer) (s : State) :
    L.put b q s = L.putBlock b s.internal.BLK q s := rfl

end Lane

/-- The state `s` after a digest computation of its variant but for TRUNC's work: the sequencer stands at `q`, and of the
internal registers the word banks and the block buffer may differ. -/
def Scratch (s s' : State) (q : Sequencer) : Prop :=
  ∃ b32 b64 x, s' = { s with internal := { s.internal with bank32 := b32, bank64 := b64, BLK := x }, seq := q }

theorem Lane.scratch_putBlock {w : Nat} {v : Variant} (L : Lane w v) (b : Bank w) (x : List Byte) (q : Sequencer)
    (s : State) : Scratch s (L.putBlock b x q s) q := by
  obtain ⟨b32, b64, h⟩ := L.set_form { s.internal with BLK := x } b
  exact ⟨b32, b64, x, by rw [Lane.putBlock, h]⟩

/-- R181, R189: from INIT on a stream `S` all of whose bytes are readable, the engine comes to TRUNC with the digest of
`S` as the bytes that TRUNC takes, after `1 + NB * opsPerBlock` micro-operations. -/
theorem runs_digest {v : Variant} {s : State} (hv : s.internal.var = v) {S : List Byte}
    (hS : StreamUpTo v s S (paddedLength v S.length)) (hs : s.seq = ⟨.init, 0, 0⟩) :
    ∃ s', Runs (1 + blockCount v S.length * opsPerBlock v) s s' ∧
      Scratch s s' ⟨.trunc, blockCount v S.length - 1, 0⟩ ∧ resultBytes s' = digestOf v S := by
  obtain ⟨w, ⟨L⟩⟩ := exists_lane v
  have p1 := L.runs_init hv hs
  rw [L.put_eq_putBlock] at p1
  have hp := blockCount_pos v S.length
  obtain ⟨b, x, hb, p2⟩ := L.runs_blocks (s := L.putBlock { L.get s.internal with H := L.h0 } s.internal.BLK ⟨.fill, 0, 0⟩ s)
    (by simp [hv]) (L.streamUpTo_putBlock hS) rfl (by simp) (k := blockCount v S.length - 1) (by omega)
    (by rw [Nat.sub_add_cancel hp, blockCount_mul])
  rw [if_neg (by omega), Nat.sub_add_cancel hp, L.putBlock_putBlock] at p2
  refine ⟨_, p1.trans p2, L.scratch_putBlock _ _ _ _, ?_⟩
  rw [L.result_eq _ (by simp [hv]), L.digest_eq, L.putBlock_get, hb, Nat.sub_add_cancel hp]

/-- R65, R184: from INIT on a stream with a byte that has no value, the engine is refused. -/
theorem digest_refused {v : Variant} {s : State} (hv : s.internal.var = v) {n j : Nat} {r : Refusal}
    (hn : passLen v s s.internal.pass = n) (hj : j < n) (hr : streamByte v s j = .error r)
    (hall : ∀ j r', j < n → streamByte v s j = .error r' → r' = r) (hs : s.seq = ⟨.init, 0, 0⟩) (m : Nat) :
    runEngine (1 + blockCount v n * opsPerBlock v + m) s = .refused r := by
  obtain ⟨w, ⟨L⟩⟩ := exists_lane v
  -- the first byte that has no value
  have hex : ∃ j, j < n ∧ streamByte v s j = .error r := ⟨j, hj, hr⟩
  classical
  let j0 := Nat.find hex
  obtain ⟨hj0, hr0⟩ := Nat.find_spec hex
  have hmin : ∀ i, i < j0 → i < n → ∃ b, streamByte v s i = .ok b := by
    intro i h1 h2
    cases h : streamByte v s i with
    | ok b => exact ⟨b, rfl⟩
    | error r' => exact absurd ⟨h2, by rw [h, hall i r' h2 h]⟩ (Nat.find_min hex h1)
  let S : List Byte := (List.range n).map fun i =>
    match streamByte v s i with
    | .ok b => b
    | .error _ => 0
  have hlen : S.length = n := by simp [S]
  have hB := blockBytes_pos v
  have hS : StreamUpTo v s S (j0 / blockBytes v * blockBytes v) := by
    refine ⟨by rw [hn, hlen], fun i h1 h2 => ?_⟩
    have h3 : j0 / blockBytes v * blockBytes v ≤ j0 := Nat.div_mul_le_self _ _
    obtain ⟨b, hb⟩ := hmin i (by omega) (by omega)
    rw [hb]
    have h4 : i < n := by omega
    simp [S, List.getD_eq_getElem?_getD, List.getElem?_map, List.getElem?_range h4, hb]
  have hblk : j0 / blockBytes v < blockCount v S.length := by
    rw [Nat.div_lt_iff_lt_mul hB, blockCount_mul, hlen]
    exact lt_of_lt_of_le hj0 (by simp only [paddedLength]; omega)
  have p1 := L.runs_init hv hs
  rw [L.put_eq_putBlock] at p1
  set s1 := L.putBlock { L.get s.internal with H := L.h0 } s.internal.BLK ⟨.fill, 0, 0⟩ s with hs1
  -- the engine comes to FILL of the block of that byte
  have p2 : ∃ s2, Runs (j0 / blockBytes v * opsPerBlock v) s1 s2 ∧ (∃ b x, s2 = L.putBlock b x ⟨.fill, j0 / blockBytes v, 0⟩ s) := by
    cases hk : j0 / blockBytes v with
    | zero => exact ⟨s1, by simpa using Runs.zero s1, _, _, hs1⟩
    | succ k =>
      obtain ⟨b, x, _, p⟩ := L.runs_blocks (s := s1) (by simp [hs1, hv]) (L.streamUpTo_putBlock hS) rfl (by simp [hs1])
        (k := k) (by omega) (by rw [hk])
      rw [if_pos (by omega)] at p
      exact ⟨_, p, b, x, by simp [hs1]⟩
  obtain ⟨s2, p2, b, x, hs2⟩ := p2
  have hfill : engineStep s2 = .refused r := by
    have hv2 : s2.internal.var = v := by simp [hs2, hv]
    have hg : gather (paddedByte v s2) (j0 / blockBytes v * blockBytes v) (blockBytes v) = .error r := by
      have hpb : ∀ i, paddedByte v s2 i = paddedByte v s i := by
        intro i; simp only [paddedByte, hs2, L.streamByte_putBlock, L.passLen_putBlock]
      have hlt : j0 < j0 / blockBytes v * blockBytes v + blockBytes v := by
        have h1 := Nat.div_add_mod' j0 (blockBytes v)
        have h2 := Nat.mod_lt j0 hB
        omega
      refine gather_error (j := j0) (Nat.div_mul_le_self _ _) hlt ?_ ?_
      · rw [hpb, paddedByte, hn, if_pos hj0, hr0]
      · intro i r' _ _ h
        rw [hpb, paddedByte, hn] at h
        split at h
        · rename_i hi; exact hall i r' hi h
        · cases h
    simp only [engineStep, microFill, hs2, L.putBlock_seq]
    rw [← hs2, hv2, hg]
  have hops : j0 / blockBytes v * opsPerBlock v < blockCount v n * opsPerBlock v := by
    rw [hlen] at hblk
    exact Nat.mul_lt_mul_of_pos_right hblk (by simp [opsPerBlock])
  have hsplit : 1 + blockCount v n * opsPerBlock v + m
      = 1 + j0 / blockBytes v * opsPerBlock v
        + ((blockCount v n * opsPerBlock v - j0 / blockBytes v * opsPerBlock v - 1 + m) + 1) := by omega
  rw [hsplit, runEngine_add (p1.trans p2), runEngine_refused hfill]

end Sys2Proof.Machine
end

