-- ==== Sys2Proof/Laws/Memory.lean ====
section
/-! SUPPORT. The laws of the byte spaces: a read after a write, and that every memory operation keeps the canonical
form. -/

namespace Sys2Proof.Machine

/-- R66, R67: a read after a write to the same index gives the byte written. -/
theorem read_write_same (m : Memory) (i : Nat) (v : Byte) : Memory.read (Memory.write m i v) i = some v := by
  induction m with
  | nil => simp [Memory.write, Memory.read]
  | cons c m ih =>
    obtain ⟨a, b⟩ := c
    by_cases h1 : i < a
    · simp [Memory.write, Memory.read, h1]
    · by_cases h2 : i = a
      · simp [Memory.write, Memory.read, h2]
      · simp [Memory.write, Memory.read, h1, h2, Ne.symm h2, ih]

/-- R67: a write leaves every other index alone. -/
theorem read_write_other (m : Memory) {i j : Nat} (v : Byte) (h : j ≠ i) :
    Memory.read (Memory.write m i v) j = Memory.read m j := by
  induction m with
  | nil => simp [Memory.write, Memory.read, Ne.symm h]
  | cons c m ih =>
    obtain ⟨a, b⟩ := c
    by_cases h1 : i < a
    · simp [Memory.write, Memory.read, h1, Ne.symm h]
    · by_cases h2 : i = a
      · subst h2; simp [Memory.write, Memory.read, Ne.symm h]
      · simp [Memory.write, Memory.read, h1, h2, ih]

/-- A lower bound of the indices of a memory may be lowered. -/
theorem risingFrom_mono {m : Memory} {lo lo' : Nat} (h : Memory.risingFrom m lo = true) (hl : lo' ≤ lo) :
    Memory.risingFrom m lo' = true := by
  cases m with
  | nil => rfl
  | cons c m =>
    simp only [Memory.risingFrom, Bool.and_eq_true, decide_eq_true_eq] at h ⊢
    exact ⟨by omega, h.2⟩

/-- A write keeps the indices rising, and at least any bound that the index written meets. -/
theorem risingFrom_write {m : Memory} {lo i : Nat} (v : Byte) (h : Memory.risingFrom m lo = true)
    (hi : lo ≤ i) : Memory.risingFrom (Memory.write m i v) lo = true := by
  induction m generalizing lo with
  | nil => simp [Memory.write, Memory.risingFrom, hi]
  | cons c m ih =>
    obtain ⟨a, b⟩ := c
    simp only [Memory.risingFrom, Bool.and_eq_true, decide_eq_true_eq] at h
    by_cases h1 : i < a
    · simp only [Memory.write, h1, if_true, Memory.risingFrom, Bool.and_eq_true, decide_eq_true_eq]
      exact ⟨hi, by omega, h.2⟩
    · by_cases h2 : i = a
      · subst h2
        simp only [Memory.write, lt_irrefl, if_false, if_true, Memory.risingFrom, Bool.and_eq_true, decide_eq_true_eq]
        exact ⟨hi, h.2⟩
      · simp only [Memory.write, h1, h2, if_false, Memory.risingFrom, Bool.and_eq_true, decide_eq_true_eq]
        exact ⟨h.1, ih h.2 (by omega)⟩

/-- A write keeps the canonical form. -/
theorem wf_write {m : Memory} (h : Memory.wf m = true) (i : Nat) (v : Byte) :
    Memory.wf (Memory.write m i v) = true := risingFrom_write v h (Nat.zero_le i)

/-- Writing a sequence of bytes keeps the canonical form. -/
theorem wf_writeBytes {m : Memory} (h : Memory.wf m = true) (bs : List Byte) (i : Nat) :
    Memory.wf (Memory.writeBytes m i bs) = true := by
  induction bs generalizing m i with
  | nil => exact h
  | cons b bs ih => exact ih (wf_write h i b) (i + 1)

/-- The empty memory, that of reset, has the canonical form. -/
theorem wf_nil : Memory.wf [] = true := rfl

/-- An index below the bytes written reads as before. -/
theorem read_writeBytes_below (m : Memory) (bs : List Byte) {i j : Nat} (h : j < i) :
    Memory.read (Memory.writeBytes m i bs) j = Memory.read m j := by
  induction bs generalizing m i with
  | nil => rfl
  | cons b bs ih =>
    rw [Memory.writeBytes, ih _ (by omega), read_write_other _ _ (by omega)]

/-- What an index reads as after a sequence of bytes was written from `i` on. -/
theorem read_writeBytes (m : Memory) (bs : List Byte) (i j : Nat) :
    Memory.read (Memory.writeBytes m i bs) j =
      if i ≤ j ∧ j < i + bs.length then bs[j - i]? else Memory.read m j := by
  induction bs generalizing m i with
  | nil => simp [Memory.writeBytes]
  | cons b bs ih =>
    by_cases h : j = i
    · subst h
      rw [Memory.writeBytes, read_writeBytes_below _ _ (by omega), read_write_same]
      simp
    · rw [Memory.writeBytes, ih, read_write_other _ _ h]
      by_cases h2 : i + 1 ≤ j
      · have : j - i = (j - (i + 1)) + 1 := by omega
        by_cases h3 : j < i + 1 + bs.length
        · rw [if_pos ⟨h2, h3⟩, if_pos ⟨by omega, by simp; omega⟩, this]; rfl
        · rw [if_neg (by omega), if_neg (by simp; omega)]
      · rw [if_neg (by omega), if_neg (by omega)]

/-- R29: the digest space after a successful command: byte `j` of the digest, and nothing beyond it. -/
theorem read_digest (bs : List Byte) (j : Nat) : Memory.read (Memory.writeBytes [] 0 bs) j = bs[j]? := by
  rw [read_writeBytes]
  by_cases h : j < bs.length
  · simp [h]
  · rw [if_neg (by omega)]
    simp [Memory.read, List.getElem?_eq_none (Nat.le_of_not_lt h)]

/-- Every index listed in a memory is one that reads as a byte. -/
theorem read_isSome_iff (m : Memory) (i : Nat) : (Memory.read m i).isSome = true ↔ ∃ b, (i, b) ∈ m := by
  induction m with
  | nil => simp [Memory.read]
  | cons c m ih =>
    obtain ⟨a, b⟩ := c
    by_cases h : a = i
    · subst h; simp [Memory.read]
    · simp [Memory.read, h, ih, Ne.symm h]

/-- R66: `MemRead` answers a byte exactly when the index is below the bound and the byte holds a value. -/
theorem memRead_ok_iff (sp : Space) (a : Nat) (s : State) (b : Byte) :
    memRead sp a s = .ok b ↔ a < spaceCap sp s ∧ Memory.read (spaceOf sp s) a = some b := by
  unfold memRead
  by_cases h : a < spaceCap sp s
  · cases h2 : Memory.read (spaceOf sp s) a <;> simp [h]
  · simp [h]

/-- R66: what `MemRead` answers depends on the bound of the space and on the byte at the index alone. -/
theorem memRead_congr {sp : Space} {a : Nat} {s t : State} (h1 : spaceCap sp t = spaceCap sp s)
    (h2 : Memory.read (spaceOf sp t) a = Memory.read (spaceOf sp s) a) : memRead sp a t = memRead sp a s := by
  unfold memRead; rw [h1, h2]

end Sys2Proof.Machine
end

