-- ==== Sys2Proof/Laws/Command.lean ====
section
/-! SUPPORT. What a whole command comes to. `runCommand_hash` and `runCommand_hmac` say once everything that a command can
do: the run of the micro-operations is the function of Machine/Reference.lean (R190, R217). -/

namespace Sys2Proof.Machine

/-- The states differ in the internal registers and the sequencer at most. -/
def SameHost (s t : State) : Prop := ∃ i q, t = { s with internal := i, seq := q }

theorem SameHost.refl (s : State) : SameHost s s := ⟨s.internal, s.seq, rfl⟩

theorem SameHost.trans {s t u : State} (h : SameHost s t) (h' : SameHost t u) : SameHost s u := by
  obtain ⟨i, q, rfl⟩ := h
  obtain ⟨i', q', rfl⟩ := h'
  exact ⟨i', q', rfl⟩

theorem Scratch.sameHost {s t : State} {q : Sequencer} (h : Scratch s t q) : SameHost s t := by
  obtain ⟨b32, b64, x, rfl⟩ := h
  exact ⟨_, _, rfl⟩

theorem sameHost_start (op : Operation) (v : Variant) (s : State) : SameHost s (startCommand op v s) := ⟨_, _, rfl⟩

theorem sameHost_advance (s : State) : SameHost s (advance s) := ⟨s.internal, _, rfl⟩

/-- The end of a command overwrites what differs (R47). -/
theorem SameHost.succeed {s t : State} (h : SameHost s t) (dg : List Byte) : succeed dg t = succeed dg s := by
  obtain ⟨i, q, rfl⟩ := h; rfl

theorem SameHost.raise {s t : State} (h : SameHost s t) (e : Err) : raise e t = raise e s := by
  obtain ⟨i, q, rfl⟩ := h; rfl

theorem SameHost.memRead {s t : State} (h : SameHost s t) (sp : Space) (a : Nat) : memRead sp a t = memRead sp a s := by
  obtain ⟨i, q, rfl⟩ := h; cases sp <;> rfl

theorem SameHost.msgBytes {s t : State} (h : SameHost s t) : msgBytes t = msgBytes s := by
  obtain ⟨i, q, rfl⟩ := h; rfl

theorem SameHost.keyBytes {s t : State} (h : SameHost s t) : keyBytes t = keyBytes s := by
  obtain ⟨i, q, rfl⟩ := h; rfl

theorem SameHost.passLen {s t : State} (h : SameHost s t) (v : Variant) (p : Pass) : passLen v t p = passLen v s p := by
  obtain ⟨i, q, rfl⟩ := h; cases p <;> rfl

theorem SameHost.longKey {s t : State} (h : SameHost s t) (v : Variant) : longKey v t = longKey v s := by
  obtain ⟨i, q, rfl⟩ := h; rfl

theorem SameHost.commandTooLong {s t : State} (h : SameHost s t) (op : Operation) (v : Variant) :
    commandTooLong op v t = commandTooLong op v s := by
  have e : commandPasses op v t = commandPasses op v s := by
    obtain ⟨i, q, rfl⟩ := h; rfl
  simp only [Machine.commandTooLong, e, h.passLen]

theorem SameHost.commandFits {s t : State} (h : SameHost s t) (op : Operation) : commandFits op t = commandFits op s := by
  obtain ⟨i, q, rfl⟩ := h; rfl

/-- Below the capacity, a byte that is not readable is one that holds no value (R65). -/
theorem memRead_error {sp : Space} {a : Nat} {s : State} {r : Refusal} (ha : a < spaceCap sp s)
    (h : memRead sp a s = .error r) : r = .unwrittenByte := by
  unfold memRead at h
  rw [if_pos ha] at h
  split at h
  · cases h
  · cases h; rfl

/-- R61: the message, when all of it is readable. -/
theorem messageOf_ok {s : State} {m : List Byte} (h : messageOf s = .ok m) :
    m.length = msgBytes s ∧ ∀ j, j < m.length → memRead .msg j s = .ok (m.getD j 0) := by
  obtain ⟨h1, h2⟩ := gather_ok h
  exact ⟨h1, fun j hj => by simpa using h2 j (by omega)⟩

/-- R62: the key, when all of it is readable. -/
theorem keyOf_ok {s : State} {k : List Byte} (h : keyOf s = .ok k) :
    k.length = keyBytes s ∧ ∀ j, j < k.length → memRead .key j s = .ok (k.getD j 0) := by
  obtain ⟨h1, h2⟩ := gather_ok h
  exact ⟨h1, fun j hj => by simpa using h2 j (by omega)⟩

/-- R65: a message that is not all readable, within the capacity, has a byte that holds no value. -/
theorem messageOf_error {s : State} {r : Refusal} (hc : msgBytes s ≤ s.params.msgCap) (h : messageOf s = .error r) :
    r = .unwrittenByte ∧ ∃ j, j < msgBytes s ∧ memRead .msg j s = .error .unwrittenByte := by
  obtain ⟨j, _, h2, h3⟩ := gather_error_inv h
  have hr := memRead_error (sp := .msg) (s := s) (a := j) (show j < s.params.msgCap by omega) h3
  subst hr
  exact ⟨rfl, j, by omega, h3⟩

/-- R65: the same of the key. -/
theorem keyOf_error {s : State} {r : Refusal} (hc : keyBytes s ≤ s.params.keyCap) (h : keyOf s = .error r) :
    r = .unwrittenByte ∧ ∃ j, j < keyBytes s ∧ memRead .key j s = .error .unwrittenByte := by
  obtain ⟨j, _, h2, h3⟩ := gather_error_inv h
  have hr := memRead_error (sp := .key) (s := s) (a := j) (show j < s.params.keyCap by omega) h3
  subst hr
  exact ⟨rfl, j, by omega, h3⟩

/-- R187: a digest has `D` bytes. -/
theorem length_digestOf (v : Variant) (S : List Byte) : (digestOf v S).length = digestBytes v := by
  cases v <;> simp [digestOf, initialState, outputBytes, eightList, digestBytes]

/-- R212: `D <= B` for every variant. -/
theorem digestBytes_le (v : Variant) : digestBytes v ≤ blockBytes v := by cases v <;> decide

/-- R212: `K'` is exactly `B` bytes. -/
theorem length_derivedKey (v : Variant) (k : List Byte) : (derivedKey v k).length = blockBytes v := by
  have := digestBytes_le v
  unfold derivedKey
  split <;> simp [length_digestOf] <;> omega

/-- R182, R215: CHECK when a stream is too long. -/
theorem check_raise {s : State} (hs : s.seq.phase = .check)
    (h : commandTooLong s.internal.opr s.internal.var s = true) (k : Nat) :
    runEngine (k + 1) s = .next (raise .messageTooLong s) := by
  have h1 : engineStep s = .next (raise .messageTooLong s) := by simp [engineStep, hs, microCheck, h]
  simp only [runEngine, h1]
  exact runEngine_idle rfl k

/-- R64: CHECK when the message or the key does not fit. -/
theorem check_refused {s : State} (hs : s.seq.phase = .check)
    (h : commandTooLong s.internal.opr s.internal.var s = false) (hf : commandFits s.internal.opr s = false) (k : Nat) :
    runEngine (k + 1) s = .refused .capacityExceeded :=
  runEngine_refused (by simp [engineStep, hs, microCheck, h, hf]) k

/-- R182: CHECK when it passes and no key is to be taken. -/
theorem check_go {s : State} (hs : s.seq = ⟨.check, 0, 0⟩)
    (h : commandTooLong s.internal.opr s.internal.var s = false) (hf : commandFits s.internal.opr s = true)
    (hp : ¬(s.internal.pass = .innerPass ∧ longKey s.internal.var s = false)) :
    Runs 1 s { s with seq := ⟨.init, 0, 0⟩ } := by
  apply Runs.one
  simp only [engineStep, hs, microCheck, h, hf, if_true, if_neg hp, Bool.false_eq_true, if_false]
  simp [advance, nextSeq, hs]

/-- A command whose streams are not too long makes the micro-operations of its digest computations. -/
theorem opsOfCommand_accepted {op : Operation} {v : Variant} {s : State} (h : commandTooLong op v s = false) :
    opsOfCommand op v s = ((commandPasses op v s).map fun p => opsOfDigest v (passLen v s p)).sum := by
  simp [opsOfCommand, h]

theorem opsOfCommand_pos (op : Operation) (v : Variant) (s : State) : ∃ k, opsOfCommand op v s = k + 1 := by
  cases ht : commandTooLong op v s with
  | true => exact ⟨0, by simp [opsOfCommand, ht]⟩
  | false =>
    rw [opsOfCommand_accepted ht]
    cases op
    · exact ⟨_, by simp [commandPasses, opsOfDigest]; rfl⟩
    · cases h : longKey v s
      · refine ⟨((commandPasses .hmac v s).map fun p => opsOfDigest v (passLen v s p)).sum - 1, ?_⟩
        simp [commandPasses, opsOfDigest, h]; omega
      · refine ⟨((commandPasses .hmac v s).map fun p => opsOfDigest v (passLen v s p)).sum - 1, ?_⟩
        simp [commandPasses, opsOfDigest, h]; omega

/-- R190: `HASH(v)`: the run of the micro-operations is the function of R190. -/
theorem runCommand_hash (v : Variant) (s : State) : runCommand .hash v s = hashReference v s := by
  unfold runCommand hashReference
  cases he : isEnabled s.params v with
  | false => simp
  | true =>
    simp only [if_true, Bool.true_eq_false, if_false]
    set s0 := startCommand .hash v s with hs0
    have hh : SameHost s s0 := sameHost_start .hash v s
    obtain ⟨k, hk⟩ := opsOfCommand_pos .hash v s
    have htl : commandTooLong s0.internal.opr s0.internal.var s0 = tooLong (msgBytes s) := by
      rw [show s0.internal.opr = .hash from rfl, hh.commandTooLong]
      simp [commandTooLong, commandPasses, passLen]
    cases ht : tooLong (msgBytes s) with
    | true => rw [if_pos rfl, hk, check_raise rfl (htl.trans ht), hh.raise]
    | false =>
      rw [if_neg (by simp)]
      have hfit : commandFits s0.internal.opr s0 = decide (msgBytes s ≤ s.params.msgCap) := rfl
      by_cases hc : msgBytes s ≤ s.params.msgCap
      · rw [if_neg (by omega)]
        have p0 := check_go (s := s0) rfl (htl.trans ht) (by rw [hfit]; simpa using hc)
          (by rw [show s0.internal.pass = .plain from rfl]; simp)
        set s1 : State := { s0 with seq := ⟨.init, 0, 0⟩ } with hs1
        have hh1 : SameHost s s1 := hh.trans ⟨_, _, rfl⟩
        have hops : opsOfCommand .hash v s = 1 + (1 + blockCount v (msgBytes s) * opsPerBlock v + 1) := by
          rw [opsOfCommand_accepted (by rw [← hh.commandTooLong]; exact htl.trans ht)]
          simp [commandPasses, opsOfDigest, passLen]; omega
        have hpass1 : s1.internal.pass = .plain := rfl
        have hv1 : s1.internal.var = v := rfl
        have hstream : ∀ j, streamByte v s1 j = memRead .msg j s := fun j => by
          simp only [streamByte, hpass1, hh1.memRead]
        have hlen : passLen v s1 s1.internal.pass = msgBytes s := by rw [hpass1, hh1.passLen]; rfl
        have hq : s1.seq = ⟨.init, 0, 0⟩ := rfl
        clear_value s1
        rw [hops, runEngine_add p0]
        cases hm : messageOf s with
        | ok m =>
          obtain ⟨hml, hmb⟩ := messageOf_ok hm
          obtain ⟨s2, p1, hsc, hres⟩ := runs_digest (v := v) (s := s1) hv1 (S := m)
            ⟨by rw [hlen, hml], fun j h1 _ => by rw [hstream, hmb j h1]⟩ hq
          have hseq : s2.seq.phase = .trunc ∧ s2.internal.pass = .plain := by
            obtain ⟨_, _, _, rfl⟩ := hsc; exact ⟨rfl, hpass1⟩
          have p2 : Runs 1 s2 (succeed (digestOf v m) s) := by
            apply Runs.one
            simp only [engineStep, hseq, microTrunc, hres, (hh1.trans hsc.sameHost).succeed]
          rw [← hml]
          exact p1.trans p2
        | error r =>
          obtain ⟨rfl, j, hj, hjr⟩ := messageOf_error (by omega) hm
          exact digest_refused (v := v) (s := s1) hv1 hlen hj ((hstream j).trans hjr)
            (fun i r' hi h => memRead_error (sp := .msg) (s := s) (a := i) (Nat.lt_of_lt_of_le hi hc)
              ((hstream i).symm.trans h)) hq 1
      · rw [if_pos (by omega), hk, check_refused rfl (htl.trans ht) (by rw [hfit]; simpa using hc)]

/-- R213: byte `j` of `K' xor pad`. -/
theorem getD_xorByte (c : Byte) (K : List Byte) {j : Nat} (h : j < K.length) :
    (xorByte c K).getD j 0 = K.getD j 0 ^^^ c := by
  simp [xorByte, h]

/-- R214: the inner pass from INIT on and the outer pass after it, where the derived key is `K'` and the message `m`. -/
theorem runs_passes {v : Variant} {s t : State} (hh : SameHost s t) (hv : t.internal.var = v)
    (hop : t.internal.opr = .hmac) (hp : t.internal.pass = .innerPass) (hs : t.seq = ⟨.init, 0, 0⟩)
    (htl : commandTooLong .hmac v s = false) (hfit : commandFits .hmac s = true)
    {K m : List Byte} (hK : t.internal.KP = K) (hKl : K.length = blockBytes v) (hml : m.length = msgBytes s)
    (hmb : ∀ j, j < m.length → memRead .msg j s = .ok (m.getD j 0)) :
    Runs (1 + blockCount v (blockBytes v + msgBytes s) * opsPerBlock v + 1 + opsOfDigest v (blockBytes v + digestBytes v)) t
      (succeed (digestOf v (xorByte 0x5c#8 K ++ digestOf v (xorByte 0x36#8 K ++ m))) s) := by
  -- the inner pass
  have hlen : passLen v t t.internal.pass = (xorByte 0x36#8 K ++ m).length := by
    rw [hp, hh.passLen, List.length_append, length_xorByte, hKl, hml]; rfl
  have hst : ∀ j, j < (xorByte 0x36#8 K ++ m).length → streamByte v t j = .ok ((xorByte 0x36#8 K ++ m).getD j 0) := by
    intro j hj
    rw [List.length_append, length_xorByte] at hj
    simp only [streamByte, hp, paddedKeyByte, hK]
    by_cases h : j < blockBytes v
    · rw [if_pos h, List.getD_append _ _ _ _ (by simpa [hKl] using h), getD_xorByte _ _ (by omega)]
    · rw [if_neg h, List.getD_append_right _ _ _ _ (by simpa [hKl] using h), length_xorByte, hKl, hh.memRead,
        hmb _ (by omega)]
  obtain ⟨t1, p1, hsc1, hres1⟩ := runs_digest hv ⟨hlen, fun j h _ => hst j h⟩ hs
  have hl1 : (xorByte 0x36#8 K ++ m).length = blockBytes v + msgBytes s := by simp [hKl, hml]
  rw [hl1] at p1 hsc1
  have f1 : t1.seq.phase = .trunc ∧ t1.internal.pass = .innerPass ∧ t1.internal.var = v ∧ t1.internal.opr = .hmac ∧
      t1.internal.KP = K := by
    obtain ⟨_, _, _, rfl⟩ := hsc1; exact ⟨rfl, hp, hv, hop, hK⟩
  obtain ⟨f1s, f1p, f1v, f1o, f1K⟩ := f1
  set t2 := beginPass .outerPass { t1 with internal := { t1.internal with INNER := digestOf v (xorByte 0x36#8 K ++ m) } }
    with ht2
  have p2 : Runs 1 t1 t2 := by
    apply Runs.one
    simp only [engineStep, f1s, microTrunc, f1p, hres1, ht2]
  -- the outer pass
  have hh2 : SameHost s t2 := (hh.trans hsc1.sameHost).trans ⟨_, _, rfl⟩
  have p3 := check_go (s := t2) rfl
    (by rw [show t2.internal.opr = .hmac from f1o, show t2.internal.var = v from f1v, hh2.commandTooLong, htl])
    (by rw [show t2.internal.opr = .hmac from f1o, hh2.commandFits, hfit])
    (by rw [show t2.internal.pass = .outerPass from rfl]; simp)
  set t3 : State := { t2 with seq := ⟨.init, 0, 0⟩ } with ht3
  have hh3 : SameHost s t3 := hh2.trans ⟨_, _, rfl⟩
  set I := digestOf v (xorByte 0x36#8 K ++ m) with hI
  have hIl : I.length = digestBytes v := length_digestOf _ _
  have hlen3 : passLen v t3 t3.internal.pass = (xorByte 0x5c#8 K ++ I).length := by
    rw [show t3.internal.pass = .outerPass from rfl]; simp [passLen, hKl, hIl]
  have hst3 : ∀ j, j < (xorByte 0x5c#8 K ++ I).length → streamByte v t3 j = .ok ((xorByte 0x5c#8 K ++ I).getD j 0) := by
    intro j hj
    rw [List.length_append, length_xorByte] at hj
    have e1 : t3.internal.KP = K := f1K
    have e2 : t3.internal.INNER = I := rfl
    simp only [streamByte, show t3.internal.pass = .outerPass from rfl, paddedKeyByte, e1, e2]
    by_cases h : j < blockBytes v
    · rw [if_pos h, List.getD_append _ _ _ _ (by simpa [hKl] using h), getD_xorByte _ _ (by omega)]
    · rw [if_neg h, List.getD_append_right _ _ _ _ (by simpa [hKl] using h), length_xorByte, hKl]
  obtain ⟨t4, p4, hsc4, hres4⟩ := runs_digest (v := v) (s := t3) f1v ⟨hlen3, fun j h _ => hst3 j h⟩ rfl
  have hl3 : (xorByte 0x5c#8 K ++ I).length = blockBytes v + digestBytes v := by simp [hKl, hIl]
  rw [hl3] at p4 hsc4
  have f4 : t4.seq.phase = .trunc ∧ t4.internal.pass = .outerPass := by
    obtain ⟨_, _, _, rfl⟩ := hsc4; exact ⟨rfl, rfl⟩
  have p5 : Runs 1 t4 (succeed (digestOf v (xorByte 0x5c#8 K ++ I)) s) := by
    apply Runs.one
    simp only [engineStep, f4, microTrunc, hres4, (hh3.trans hsc4.sameHost).succeed]
  have h := (p1.trans p2).trans ((p3.trans p4).trans p5)
  rw [show opsOfDigest v (blockBytes v + digestBytes v)
    = 1 + (1 + blockCount v (blockBytes v + digestBytes v) * opsPerBlock v) + 1 by simp only [opsOfDigest]; omega]
  exact h

/-- R65: the inner pass from INIT on, where a byte of the message holds no value. -/
theorem inner_refused {v : Variant} {s t : State} (hh : SameHost s t) (hv : t.internal.var = v)
    (hp : t.internal.pass = .innerPass) (hs : t.seq = ⟨.init, 0, 0⟩) (hc : msgBytes s ≤ s.params.msgCap) {j : Nat}
    (hj : j < msgBytes s) (hjr : memRead .msg j s = .error .unwrittenByte) (k : Nat) :
    runEngine (1 + blockCount v (blockBytes v + msgBytes s) * opsPerBlock v + k) t = .refused .unwrittenByte := by
  refine digest_refused hv (j := blockBytes v + j) (by rw [hp, hh.passLen]; rfl) (by omega) ?_ ?_ hs k
  · simp only [streamByte, hp, paddedKeyByte]
    rw [if_neg (by omega), Nat.add_sub_cancel_left, hh.memRead, hjr]
  · intro i r' hi h
    simp only [streamByte, hp, paddedKeyByte] at h
    split at h
    · cases h
    · rw [hh.memRead] at h
      exact memRead_error (sp := .msg) (s := s) (show i - blockBytes v < s.params.msgCap by omega) h

/-- R217: `HMAC(v)`: the run of the micro-operations is the function of R217. -/
theorem runCommand_hmac (v : Variant) (s : State) : runCommand .hmac v s = hmacReference v s := by
  unfold runCommand hmacReference
  cases he : isEnabled s.params v with
  | false => simp
  | true =>
    simp only [if_true, Bool.true_eq_false, if_false]
    set s0 := startCommand .hmac v s with hs0
    have hh : SameHost s s0 := sameHost_start .hmac v s
    obtain ⟨k, hk⟩ := opsOfCommand_pos .hmac v s
    have hout : tooLong (blockBytes v + digestBytes v) = false := by cases v <;> decide
    have htl : commandTooLong .hmac v s = true ↔
        (blockBytes v < keyBytes s ∧ tooLong (keyBytes s)) ∨ tooLong (blockBytes v + msgBytes s) := by
      cases hl : longKey v s with
      | true =>
        have : blockBytes v < keyBytes s := by simpa [longKey] using hl
        simp [commandTooLong, commandPasses, passLen, hl, hout, this]
      | false =>
        have : ¬ blockBytes v < keyBytes s := by simpa [longKey] using hl
        simp [commandTooLong, commandPasses, passLen, hl, hout, this]
    by_cases ht : (blockBytes v < keyBytes s ∧ tooLong (keyBytes s)) ∨ tooLong (blockBytes v + msgBytes s)
    · rw [if_pos ht, hk, check_raise rfl ((hh.commandTooLong .hmac v).trans (htl.2 ht)), hh.raise]
    · rw [if_neg ht]
      have ht' : commandTooLong .hmac v s = false := by
        rw [← Bool.not_eq_true]; exact fun h => ht (htl.1 h)
      have ht0 : commandTooLong s0.internal.opr s0.internal.var s0 = false := (hh.commandTooLong .hmac v).trans ht'
      by_cases hc : s.params.msgCap < msgBytes s ∨ s.params.keyCap < keyBytes s
      · rw [if_pos hc, hk, check_refused rfl ht0]
        rw [show s0.internal.opr = .hmac from rfl, hh.commandFits]
        simp only [commandFits, Bool.and_eq_false_iff, decide_eq_false_iff_not]; omega
      · rw [if_neg hc]
        have hf : commandFits .hmac s = true := by
          simp only [commandFits, Bool.and_eq_true, decide_eq_true_eq]; omega
        have hf0 : commandFits s0.internal.opr s0 = true := (hh.commandFits .hmac).trans hf
        cases hl : longKey v s with
        | false =>
          -- the key is taken as it is, in the CHECK of the inner pass
          have hle : keyBytes s ≤ blockBytes v := by simpa [longKey] using hl
          have hpass : s0.internal.pass = .innerPass := by simp [hs0, firstPass, hl]
          have hl0 : longKey s0.internal.var s0 = false := (hh.longKey v).trans hl
          have hops : opsOfCommand .hmac v s = 1 + (1 + blockCount v (blockBytes v + msgBytes s) * opsPerBlock v +
              (1 + opsOfDigest v (blockBytes v + digestBytes v))) := by
            rw [opsOfCommand_accepted ht']
            simp [commandPasses, passLen, hl, opsOfDigest]; omega
          have hgk : gather (fun i => memRead .key i s0) 0 (keyBytes s0) = keyOf s := by
            simp only [hh.memRead, hh.keyBytes]; rfl
          have hkb0 : keyBytes s0 = keyBytes s := hh.keyBytes
          have hv0 : s0.internal.var = v := rfl
          have hq0 : s0.seq = ⟨.check, 0, 0⟩ := rfl
          have hop0 : s0.internal.opr = .hmac := rfl
          have hstep : engineStep s0 = match deriveShortKey s0 with
              | .error r => .refused r
              | .ok s' => .next (advance s') := by
            cases hd : deriveShortKey s0 <;> simp [engineStep, hq0, microCheck, ht0, hf0, hl0, hpass, hd]
          clear_value s0
          cases hkey : keyOf s with
          | error r =>
            rw [hk]
            refine runEngine_refused ?_ k
            rw [hstep, deriveShortKey, hgk, hkey]
          | ok ks =>
            obtain ⟨hkl, _⟩ := keyOf_ok hkey
            have hd : derivedKey v ks = ks ++ zeros (blockBytes v - keyBytes s) := by
              rw [derivedKey, if_neg (by omega), hkl]
            set t : State := { s0 with internal := { s0.internal with KP := derivedKey v ks }, seq := ⟨.init, 0, 0⟩ } with ht
            have p0 : Runs 1 s0 t := by
              apply Runs.one
              rw [hstep, deriveShortKey, hgk, hkey]
              simp only [advance, nextSeq, hq0, hv0, hkb0, ht, hd]
            have hht : SameHost s t := hh.trans ⟨_, _, rfl⟩
            rw [hops, runEngine_add p0]
            cases hm : messageOf s with
            | ok m =>
              obtain ⟨hml, hmb⟩ := messageOf_ok hm
              have h := runs_passes hht (v := v) hv0 hop0 hpass rfl ht' hf (K := derivedKey v ks) rfl
                (length_derivedKey v ks) hml hmb
              rw [Nat.add_assoc] at h
              exact h
            | error r =>
              obtain ⟨rfl, j, hj, hjr⟩ := messageOf_error (by omega) hm
              exact inner_refused hht hv0 hpass rfl (by omega) hj hjr _
        | true =>
          -- the key is hashed first
          have hlt : blockBytes v < keyBytes s := by simpa [longKey] using hl
          have hpass : s0.internal.pass = .keyHash := by simp [hs0, firstPass, hl]
          have hops : opsOfCommand .hmac v s = 1 + (1 + blockCount v (keyBytes s) * opsPerBlock v + (1 + (1 +
              (1 + blockCount v (blockBytes v + msgBytes s) * opsPerBlock v +
              (1 + opsOfDigest v (blockBytes v + digestBytes v)))))) := by
            rw [opsOfCommand_accepted ht']
            simp [commandPasses, passLen, hl, opsOfDigest]; omega
          have p0 := check_go (s := s0) rfl ht0 hf0 (by rw [hpass]; simp)
          set s1 : State := { s0 with seq := ⟨.init, 0, 0⟩ } with hs1
          have hh1 : SameHost s s1 := hh.trans ⟨_, _, rfl⟩
          have hp1 : s1.internal.pass = .keyHash := hpass
          have hlen : passLen v s1 s1.internal.pass = keyBytes s := by rw [hp1, hh1.passLen]; rfl
          have hstream : ∀ j, streamByte v s1 j = memRead .key j s := fun j => by
            simp only [streamByte, hp1, hh1.memRead]
          have hv1 : s1.internal.var = v := rfl
          have hop1 : s1.internal.opr = .hmac := rfl
          have hq1 : s1.seq = ⟨.init, 0, 0⟩ := rfl
          have hkc : keyBytes s ≤ s.params.keyCap := by omega
          clear_value s1
          rw [hops, runEngine_add p0]
          cases hkey : keyOf s with
          | error r =>
            obtain ⟨rfl, j, hj, hjr⟩ := keyOf_error hkc hkey
            exact digest_refused (v := v) (s := s1) hv1 hlen hj ((hstream j).trans hjr)
              (fun i r' hi h => memRead_error (sp := .key) (s := s) (a := i) (Nat.lt_of_lt_of_le hi hkc)
                ((hstream i).symm.trans h)) hq1 _
          | ok ks =>
            obtain ⟨hkl, hkb⟩ := keyOf_ok hkey
            obtain ⟨s2, p1, hsc, hres⟩ := runs_digest (v := v) (s := s1) hv1 (S := ks)
              ⟨by rw [hlen, hkl], fun j h1 _ => by rw [hstream, hkb j h1]⟩ hq1
            rw [hkl] at p1 hsc
            have f2 : s2.seq.phase = .trunc ∧ s2.internal.pass = .keyHash ∧ s2.internal.var = v ∧ s2.internal.opr = .hmac := by
              obtain ⟨_, _, _, rfl⟩ := hsc; exact ⟨rfl, hp1, hv1, hop1⟩
            obtain ⟨f2s, f2p, f2v, f2o⟩ := f2
            have hd : derivedKey v ks = digestOf v ks ++ zeros (blockBytes v - digestBytes v) := by
              rw [derivedKey, if_pos (by omega)]
            set s3 := beginPass .innerPass { s2 with internal := { s2.internal with KP := derivedKey v ks } } with hs3
            have p2 : Runs 1 s2 s3 := by
              apply Runs.one
              simp only [engineStep, f2s, microTrunc, f2p, hres, f2v, hs3, hd]
            have hh3 : SameHost s s3 := (hh1.trans hsc.sameHost).trans ⟨_, _, rfl⟩
            have p3 := check_go (s := s3) rfl
              (by rw [show s3.internal.opr = .hmac from f2o, show s3.internal.var = v from f2v, hh3.commandTooLong, ht'])
              (by rw [show s3.internal.opr = .hmac from f2o, hh3.commandFits, hf])
              (by rw [show s3.internal.var = v from f2v, hh3.longKey, hl]; simp)
            set t : State := { s3 with seq := ⟨.init, 0, 0⟩ } with ht
            have hht : SameHost s t := hh3.trans ⟨_, _, rfl⟩
            rw [runEngine_add p1, runEngine_add p2, runEngine_add p3]
            cases hm : messageOf s with
            | ok m =>
              obtain ⟨hml, hmb⟩ := messageOf_ok hm
              have h := runs_passes hht (v := v) f2v f2o rfl rfl ht' hf (K := derivedKey v ks) rfl
                (length_derivedKey v ks) hml hmb
              rw [Nat.add_assoc] at h
              exact h
            | error r =>
              obtain ⟨rfl, j, hj, hjr⟩ := messageOf_error (by omega) hm
              exact inner_refused hht f2v rfl rfl (by omega) hj hjr _

end Sys2Proof.Machine
end

