-- ==== Sys2Proof/Laws/Exec.lean ====
section
/-! SUPPORT. What `exec` can do, once: every command is `runCommand` of its operation and variant, and its next state is the
error entry or a success with `D` bytes. Later proofs cite these and unfold no meaning. -/

namespace Sys2Proof.Machine

/-- Every arm is the command of its operation and variant. -/
theorem exec_eq (i : Instr) (s : State) : exec i s = runCommand (operationOf i) (variantOf i) s := by
  cases i <;> rfl

theorem exec_instrOf (op : Operation) (v : Variant) (s : State) : exec (instrOf op v) s = runCommand op v s := by
  cases op <;> cases v <;> rfl

/-- Everything a command of either operation can do, as the functions of Machine/Reference.lean. -/
theorem runCommand_eq (op : Operation) (v : Variant) (s : State) :
    runCommand op v s = match op with
      | .hash => hashReference v s
      | .hmac => hmacReference v s := by
  cases op
  · exact runCommand_hash v s
  · exact runCommand_hmac v s

theorem length_hmacOf (v : Variant) (k m : List Byte) : (hmacOf v k m).length = digestBytes v := length_digestOf _ _

/-- The next state of a command is that of the error entry or that of a success with `D` bytes; it is never a fault. -/
theorem exec_cases (i : Instr) (s : State) :
    (∃ e, exec i s = .next (raise e s)) ∨
    (∃ dg : List Byte, dg.length = digestBytes (variantOf i) ∧ exec i s = .next (succeed dg s)) ∨
    (∃ r, exec i s = .refused r) := by
  rw [exec_eq, runCommand_eq]
  cases operationOf i
  · simp only [hashReference]
    split
    · exact .inl ⟨_, rfl⟩
    · split
      · exact .inl ⟨_, rfl⟩
      · split
        · exact .inr (.inr ⟨_, rfl⟩)
        · cases messageOf s with
          | ok m => exact .inr (.inl ⟨_, length_digestOf _ _, rfl⟩)
          | error r => exact .inr (.inr ⟨_, rfl⟩)
  · simp only [hmacReference]
    split
    · exact .inl ⟨_, rfl⟩
    · split
      · exact .inl ⟨_, rfl⟩
      · split
        · exact .inr (.inr ⟨_, rfl⟩)
        · cases keyOf s with
          | ok k =>
            cases messageOf s with
            | ok m => exact .inr (.inl ⟨_, length_hmacOf _ _ _, rfl⟩)
            | error r => exact .inr (.inr ⟨_, rfl⟩)
          | error r => exact .inr (.inr ⟨_, rfl⟩)

/-- The same, as an inversion of a next state. -/
theorem exec_next {i : Instr} {s t : State} (h : exec i s = .next t) :
    (∃ e, t = raise e s) ∨ ∃ dg : List Byte, dg.length = digestBytes (variantOf i) ∧ t = succeed dg s := by
  rcases exec_cases i s with ⟨e, he⟩ | ⟨dg, hl, he⟩ | ⟨r, he⟩
  · rw [he] at h; cases h; exact .inl ⟨e, rfl⟩
  · rw [he] at h; cases h; exact .inr ⟨dg, hl, rfl⟩
  · rw [he] at h; cases h

/-- R64, R65: the only reasons for which a command has no next state. -/
theorem exec_refused {i : Instr} {s : State} {r : Refusal} (h : exec i s = .refused r) :
    (r = .capacityExceeded ∧ (s.params.msgCap < msgBytes s ∨ s.params.keyCap < keyBytes s)) ∨ r = .unwrittenByte := by
  rw [exec_eq, runCommand_eq] at h
  revert h
  cases operationOf i
  · simp only [hashReference]
    split
    · exact fun h => nomatch h
    · split
      · exact fun h => nomatch h
      · split
        · rename_i hc; exact fun h => .inl ⟨by injection h with h; exact h.symm, .inl hc⟩
        · rename_i hc
          cases hm : messageOf s with
          | ok m => exact fun h => nomatch h
          | error r' =>
            obtain ⟨rfl, _⟩ := messageOf_error (by omega) hm
            exact fun h => .inr (by injection h with h; exact h.symm)
  · simp only [hmacReference]
    split
    · exact fun h => nomatch h
    · split
      · exact fun h => nomatch h
      · split
        · rename_i hc; exact fun h => .inl ⟨by injection h with h; exact h.symm, hc⟩
        · rename_i hc
          cases hk : keyOf s with
          | error r' =>
            obtain ⟨rfl, _⟩ := keyOf_error (by omega) hk
            exact fun h => .inr (by injection h with h; exact h.symm)
          | ok k =>
            cases hm : messageOf s with
            | ok m => exact fun h => nomatch h
            | error r' =>
              obtain ⟨rfl, _⟩ := messageOf_error (by omega) hm
              exact fun h => .inr (by injection h with h; exact h.symm)

end Sys2Proof.Machine
end

