-- ==== Sys2Proof/Laws/PerInstr.lean ====
section
/-! SUPPORT. Per-command statements, one lemma per constructor of `Instr`. Family `RoundTrip`: what holds of every command as
syntax: it is well formed, its word is 4 bits, and that word decodes back to it (R92, R95, R100). -/

namespace Sys2Proof.Laws.RoundTrip

/-- R92, R95, R100: the command is well formed; decoding its word gives it back, as a word and as a number; and it is the
command of its operation and its variant. -/
def Statement (i : Instr) : Prop :=
  i.wellFormed = true ∧ decode (encode i) = .ok i ∧ decodeWord (encode i).toNat = .ok i ∧
    instrOf (operationOf i) (variantOf i) = i

theorem hashSha224 : Statement .hashSha224 := ⟨rfl, rfl, rfl, rfl⟩
theorem hashSha256 : Statement .hashSha256 := ⟨rfl, rfl, rfl, rfl⟩
theorem hashSha384 : Statement .hashSha384 := ⟨rfl, rfl, rfl, rfl⟩
theorem hashSha512 : Statement .hashSha512 := ⟨rfl, rfl, rfl, rfl⟩
theorem hashSha512_224 : Statement .hashSha512_224 := ⟨rfl, rfl, rfl, rfl⟩
theorem hashSha512_256 : Statement .hashSha512_256 := ⟨rfl, rfl, rfl, rfl⟩
theorem hmacSha224 : Statement .hmacSha224 := ⟨rfl, rfl, rfl, rfl⟩
theorem hmacSha256 : Statement .hmacSha256 := ⟨rfl, rfl, rfl, rfl⟩
theorem hmacSha384 : Statement .hmacSha384 := ⟨rfl, rfl, rfl, rfl⟩
theorem hmacSha512 : Statement .hmacSha512 := ⟨rfl, rfl, rfl, rfl⟩
theorem hmacSha512_224 : Statement .hmacSha512_224 := ⟨rfl, rfl, rfl, rfl⟩
theorem hmacSha512_256 : Statement .hmacSha512_256 := ⟨rfl, rfl, rfl, rfl⟩

end Sys2Proof.Laws.RoundTrip
end

