-- ==== Sys2Proof/Laws/Result.lean ====
section
/-! SUPPORT. The words of Safety.lean, tied to the machine: what the two ends of a command leave, and when the message and the
key of a command are readable. -/

namespace Sys2Proof.Machine

/-- R246: the error entry, in the words of Safety.lean. -/
theorem failedWith_raise (e : Err) (s : State) : failedWith (raise e s) e := by
  cases e <;> exact ⟨rfl, rfl, fun _ => rfl⟩

theorem commandFrame_raise (e : Err) (s : State) : commandFrame s (raise e s) :=
  ⟨fun _ => rfl, fun _ => rfl, rfl, rfl, rfl, rfl, rfl, rfl, rfl, rfl⟩

/-- R190, R217: a success, in the words of Safety.lean, for a digest that the 7 bits of `DIGEST_LEN` can count. -/
theorem delivers_succeed {dg : List Byte} (s : State) (h : dg.length < 128) : delivers (succeed dg s) dg := by
  refine ⟨rfl, ?_, fun j => read_digest dg j⟩
  simp only [succeed_digestLen, BitVec.toNat_ofNat]
  exact Nat.mod_eq_of_lt (by omega)

theorem commandFrame_succeed (dg : List Byte) (s : State) : commandFrame s (succeed dg s) :=
  ⟨fun _ => rfl, fun _ => rfl, rfl, rfl, rfl, rfl, rfl, rfl, rfl, rfl⟩

theorem digestBytes_lt (v : Variant) : digestBytes v < 128 := by cases v <;> decide

theorem digestBytes_cases (v : Variant) :
    digestBytes v = 28 ∨ digestBytes v = 32 ∨ digestBytes v = 48 ∨ digestBytes v = 64 := by cases v <;> decide

/-- The bytes of a space that are readable up to a length below the bound make one list. -/
theorem gather_memRead {sp : Space} {s : State} {m : List Byte} {n : Nat} (hl : m.length = n) (hc : n ≤ spaceCap sp s)
    (h : ∀ j, j < m.length → Memory.read (spaceOf sp s) j = m[j]?) : gather (fun j => memRead sp j s) 0 n = .ok m := by
  subst hl
  have key : ∀ (m' : List Byte) (i : Nat), (∀ j, j < m'.length → memRead sp (i + j) s = .ok (m'.getD j 0)) →
      gather (fun j => memRead sp j s) i m'.length = .ok m' := by
    intro m'
    induction m' with
    | nil => intro i _; rfl
    | cons b bs ih =>
      intro i h'
      have h0 := h' 0 (by simp)
      have h1 := ih (i + 1) (fun j hj => by
        have := h' (j + 1) (by simpa using hj)
        rw [show i + 1 + j = i + (j + 1) by omega, this]; simp)
      simp only [Nat.add_zero, List.getD_cons_zero] at h0
      simp only [List.length_cons, gather, h0, h1]
  refine key m 0 fun j hj => ?_
  rw [Nat.zero_add, memRead_ok_iff]
  refine ⟨by omega, ?_⟩
  rw [h j hj, List.getD_eq_getElem?_getD, List.getElem?_eq_getElem hj]; rfl

/-- R61: the message of a command is what the engine reads. -/
theorem holdsMessage_iff (s : State) (m : List Byte) :
    holdsMessage s m ↔ msgBytes s ≤ s.params.msgCap ∧ messageOf s = .ok m := by
  constructor
  · rintro ⟨h1, h2, h3⟩
    exact ⟨h2, gather_memRead (sp := .msg) h1 h2 h3⟩
  · rintro ⟨h1, h2⟩
    obtain ⟨h3, h4⟩ := messageOf_ok h2
    refine ⟨h3, h1, fun j hj => ?_⟩
    have := ((memRead_ok_iff .msg j s _).1 (h4 j hj)).2
    rw [show Memory.read s.msg j = some (m.getD j 0) from this, List.getD_eq_getElem?_getD, List.getElem?_eq_getElem hj]; rfl

/-- R62: the same of the key. -/
theorem holdsKey_iff (s : State) (k : List Byte) :
    holdsKey s k ↔ keyBytes s ≤ s.params.keyCap ∧ keyOf s = .ok k := by
  constructor
  · rintro ⟨h1, h2, h3⟩
    exact ⟨h2, gather_memRead (sp := .key) h1 h2 h3⟩
  · rintro ⟨h1, h2⟩
    obtain ⟨h3, h4⟩ := keyOf_ok h2
    refine ⟨h3, h1, fun j hj => ?_⟩
    have := ((memRead_ok_iff .key j s _).1 (h4 j hj)).2
    rw [show Memory.read s.key j = some (k.getD j 0) from this, List.getD_eq_getElem?_getD, List.getElem?_eq_getElem hj]; rfl

/-- R142: the length limit in bytes. -/
theorem tooLong_iff (n : Nat) : tooLong n = true ↔ 2 ^ 58 ≤ n := by
  rw [tooLong, decide_eq_true_iff]; omega

theorem tooLong_false_iff (n : Nat) : tooLong n = false ↔ n < 2 ^ 58 := by
  rw [← Bool.not_eq_true, tooLong_iff]; omega

end Sys2Proof.Machine
end

