-- ==== Sys2Proof/Laws/Step.lean ====
section
/-! SUPPORT. What a step can do, once: `transact_next` lists the next states of a transaction, `step_next` those of a step. -/

namespace Sys2Proof.Machine

/-- The next states of a `CMD` transaction: an error entry, or a success with the digest of an accepted word. -/
theorem commandTransaction_next {c : Nat} {s t : State} (h : commandTransaction c s = .next t) :
    (∃ e, t = raise e s) ∨ ∃ i dg, decodeWord c = .ok i ∧ dg.length = digestBytes (variantOf i) ∧ t = succeed dg s := by
  unfold commandTransaction at h
  split at h
  · rename_i i hi
    rcases exec_next h with he | ⟨dg, hl, rfl⟩
    · exact .inl he
    · exact .inr ⟨i, dg, hi, hl, rfl⟩
  · cases h; exact .inl ⟨_, rfl⟩
  · cases h

/-- R21, R66: the next states of a read. -/
theorem readTransaction_next {sp : Space} {a : Nat} {s t : State} (h : readTransaction sp a s = .next t) :
    ∃ b, memRead sp a s = .ok b ∧ t = { s with reply := .byte b } := by
  unfold readTransaction at h
  split at h
  · rename_i b hb; cases h; exact ⟨b, hb, rfl⟩
  · cases h

/-- R21, R67: the next state of a write. -/
theorem writeTransaction_next {sp : Space} {a : Nat} {b : Byte} {s t : State} (h : writeTransaction sp a b s = .next t) :
    a < spaceCap sp s ∧ t = memWrite sp a b s := by
  unfold writeTransaction at h
  split at h
  · rename_i ha; cases h; exact ⟨ha, rfl⟩
  · cases h

/-- The next states of a transaction (R21). -/
theorem transact_next {x : Transaction} {s t : State} (h : transact x s = .next t) :
    (∃ r, t = { s with reply := r }) ∨
    (∃ sp a b, sp ≠ .digest ∧ a < spaceCap sp s ∧ t = memWrite sp a b s) ∨
    (∃ v, t = { s with msgLen := v }) ∨ (∃ v, t = { s with keyLen := v }) ∨
    (∃ e, t = raise e s) ∨ (∃ v dg, List.length dg = digestBytes v ∧ t = succeed dg s) ∨
    t = { State.powerOn s.params with pending := s.pending, draws := s.draws } := by
  have hr : ∀ {sp a}, readTransaction sp a s = .next t → ∃ r, t = { s with reply := r } := by
    intro sp a h
    obtain ⟨b, _, ht⟩ := readTransaction_next h
    exact ⟨_, ht⟩
  have hw : ∀ {sp a b}, sp ≠ .digest → writeTransaction sp a b s = .next t →
      ∃ sp a b, sp ≠ .digest ∧ a < spaceCap sp s ∧ t = memWrite sp a b s := by
    intro sp a b hsp h
    obtain ⟨ha, ht⟩ := writeTransaction_next h
    exact ⟨sp, a, b, hsp, ha, ht⟩
  cases x with
  | wrMsg i b => exact .inr (.inl (hw (by decide) h))
  | rdMsg i => exact .inl (hr h)
  | wrKey i b => exact .inr (.inl (hw (by decide) h))
  | rdKey i => exact .inl (hr h)
  | wrMsgLen v =>
    simp only [transact, writeMsgLen] at h
    split at h
    · cases h; exact .inr (.inr (.inl ⟨_, rfl⟩))
    · cases h
  | rdMsgLen => cases h; exact .inl ⟨_, rfl⟩
  | wrKeyLen v =>
    simp only [transact, writeKeyLen] at h
    split at h
    · cases h; exact .inr (.inr (.inr (.inl ⟨_, rfl⟩)))
    · cases h
  | rdKeyLen => cases h; exact .inl ⟨_, rfl⟩
  | cmd c =>
    rcases commandTransaction_next h with he | ⟨i, dg, _, hl, ht⟩
    · exact .inr (.inr (.inr (.inr (.inl he))))
    · exact .inr (.inr (.inr (.inr (.inr (.inl ⟨_, dg, hl, ht⟩)))))
  | rdStatus => cases h; exact .inl ⟨_, rfl⟩
  | rdCaps => cases h; exact .inl ⟨_, rfl⟩
  | rdDigestLen => cases h; exact .inl ⟨_, rfl⟩
  | rdDigest j => exact .inl (hr h)
  | reset => cases h; exact .inr (.inr (.inr (.inr (.inr (.inr rfl)))))

/-- The next states of a step (R75, R258): the state itself when nothing is pending, else what the first pending transaction
does. -/
theorem step_next {s t : State} (h : step s = .next t) :
    s.seq.phase = .idle ∧
    ((s.pending = [] ∧ t = s) ∨
     ∃ x rest, s.pending = x :: rest ∧ transact x { s with pending := rest, reply := .nothing } = .next t) := by
  unfold step hostStep at h
  split at h
  · rename_i hi
    refine ⟨hi, ?_⟩
    split at h
    · rename_i hp; cases h; exact .inl ⟨hp, rfl⟩
    · rename_i x rest hp; exact .inr ⟨x, rest, hp, h⟩
  · cases h

end Sys2Proof.Machine
end

