-- ==== Sys2Proof/Tests/Slice0.lean ====
section
/-! SUPPORT. The model's own tests. Expected values are the spec's: its encodings (30_encoding.md), its worked examples and
its vectors (95_test_vectors.md). After the tests, one witness `witness_<Name>` for every statement with hypotheses: states
and operands that meet them. -/

namespace Sys2Proof.Tests

open Sys2Proof Sys2Proof.Machine

set_option Elab.async false

/-! ## Helpers -/

/-- An engine with parameters `p` whose host has written the key `k` and the message `m`, lengths included. -/
def loaded (p : Params) (k m : List Byte) : State :=
  { State.powerOn p with
    msg := Memory.writeBytes [] 0 m, msgLen := BitVec.ofNat 64 m.length,
    key := Memory.writeBytes [] 0 k, keyLen := BitVec.ofNat 64 k.length }

/-- SHA-256 alone, and two small spaces. -/
def small : Params := { enabled := [.sha256], msgCap := 2, keyCap := 3 }

/-- The bytes of `abc`, of `key`. -/
def abc : List Byte := [0x61#8, 0x62#8, 0x63#8]

def keyBytes3 : List Byte := [0x6b#8, 0x65#8, 0x79#8]

/-- What the host can read of the result: `STATUS`, `DIGEST_LEN` and the bytes of `DIGEST`. -/
def resultOf : Outcome → Option (BitVec 3 × BitVec 7 × Memory)
  | .next t => some (t.status, t.digestLen, t.digest)
  | .fault _ => none
  | .refused _ => none

/-- What the transaction returned. -/
def replyOf : Outcome → Option Reply
  | .next t => some t.reply
  | .fault _ => none
  | .refused _ => none

/-- Why the step was refused. -/
def refusalOf : Outcome → Option Refusal
  | .next _ => none
  | .fault _ => none
  | .refused r => some r

/-- The digest `v` of `d` bytes, as a success leaves it. -/
def success (d v : Nat) : Option (BitVec 3 × BitVec 7 × Memory) :=
  some (0b100#3, BitVec.ofNat 7 d, Memory.writeBytes [] 0 (beBytes d v))

/-- A failure with this `STATUS`. -/
def failure (status : BitVec 3) : Option (BitVec 3 × BitVec 7 × Memory) := some (status, 0#7, [])

/-- One step of `s` with the command word `w` next. -/
def run (w : Nat) (s : State) : Outcome := step (s.withFetchWord 8 w)

/-- One step of `s` with the transaction `x` next. -/
def host (x : Transaction) (s : State) : Outcome := step { s with pending := [x] }

/-! ## Well-formedness: one ill-formed term for each check -/

theorem test_no_variant_refused : Params.wf { enabled := [], msgCap := 1, keyCap := 1 } = false := by decide

theorem test_repeated_variant_refused :
    Params.wf { enabled := [.sha256, .sha256], msgCap := 1, keyCap := 1 } = false := by decide

theorem test_msg_cap_refused : Params.wf { enabled := [.sha256], msgCap := 2 ^ 64 + 1, keyCap := 1 } = false := by decide

theorem test_key_cap_refused : Params.wf { enabled := [.sha256], msgCap := 1, keyCap := 2 ^ 64 + 1 } = false := by decide

theorem test_legal_params : Params.wf small = true ∧ Params.wf Params.full = true := by decide

theorem test_ill_formed_transactions :
    Transaction.wellFormed small (.wrMsg 2 0#8) = false ∧ Transaction.wellFormed small (.rdMsg 2) = false ∧
    Transaction.wellFormed small (.wrKey 3 0#8) = false ∧ Transaction.wellFormed small (.rdKey 3) = false ∧
    Transaction.wellFormed small (.wrMsgLen (2 ^ 64)) = false ∧ Transaction.wellFormed small (.wrKeyLen (2 ^ 64)) = false ∧
    Transaction.wellFormed small (.cmd 16) = false ∧ Transaction.wellFormed small (.rdDigest 64) = false := by decide

theorem test_well_formed_transactions :
    Transaction.wellFormed small (.wrMsg 1 0#8) = true ∧ Transaction.wellFormed small (.wrKey 2 0#8) = true ∧
    Transaction.wellFormed small (.wrMsgLen (2 ^ 64 - 1)) = true ∧ Transaction.wellFormed small (.cmd 15) = true := by decide

/-! ## Decoding: the words of 30_encoding.md R92, R93, written out as OP and VAR -/

theorem test_decode_hash_words :
    decode (0#1 ++ 0b000#3) = .ok .hashSha224 ∧ decode (0#1 ++ 0b001#3) = .ok .hashSha256 ∧
    decode (0#1 ++ 0b010#3) = .ok .hashSha384 ∧ decode (0#1 ++ 0b011#3) = .ok .hashSha512 ∧
    decode (0#1 ++ 0b100#3) = .ok .hashSha512_224 ∧ decode (0#1 ++ 0b101#3) = .ok .hashSha512_256 := ⟨rfl, rfl, rfl, rfl, rfl, rfl⟩

theorem test_decode_hmac_words :
    decode (1#1 ++ 0b000#3) = .ok .hmacSha224 ∧ decode (1#1 ++ 0b001#3) = .ok .hmacSha256 ∧
    decode (1#1 ++ 0b010#3) = .ok .hmacSha384 ∧ decode (1#1 ++ 0b011#3) = .ok .hmacSha512 ∧
    decode (1#1 ++ 0b100#3) = .ok .hmacSha512_224 ∧ decode (1#1 ++ 0b101#3) = .ok .hmacSha512_256 := ⟨rfl, rfl, rfl, rfl, rfl, rfl⟩

theorem test_decode_reserved_words :
    decode 0b0110#4 = .error (.reservedVariant .hash 6#3) ∧ decode 0b0111#4 = .error (.reservedVariant .hash 7#3) ∧
    decode 0b1110#4 = .error (.reservedVariant .hmac 6#3) ∧ decode 0b1111#4 = .error (.reservedVariant .hmac 7#3) ∧
    decodeWord 16 = .error (.notACommandWord 16) := ⟨rfl, rfl, rfl, rfl, rfl⟩

/-- R95: no two rows of the opcode map select one word. -/
theorem test_opcode_rows_disjoint :
    opcodeMap.Pairwise fun r q => ∀ c : BitVec 4, ¬(r.selects c = true ∧ q.selects c = true) := by decide

theorem test_table_words : (List.range 16).map (decodeTableWord 8) =
    [some .hashSha224, some .hashSha256, some .hashSha384, some .hashSha512, some .hashSha512_224, some .hashSha512_256,
     none, none, some .hmacSha224, some .hmacSha256, some .hmacSha384, some .hmacSha512, some .hmacSha512_224,
     some .hmacSha512_256, none, none] := by decide

/-! ## The constant tables (40_variant_descriptor.md): their ends, and the recipes of R125 and R132 -/

theorem test_k256_ends : k256.length = 64 ∧ k256.getD 0 0 = 0x428a2f98#32 ∧ k256.getD 63 0 = 0xc67178f2#32 := by decide

theorem test_k512_ends :
    k512.length = 80 ∧ k512.getD 0 0 = 0x428a2f98d728ae22#64 ∧ k512.getD 79 0 = 0x6c44198c4a475817#64 := by decide

/-- The first 80 primes. -/
def primes : List Nat :=
  [2, 3, 5, 7, 11, 13, 17, 19, 23, 29, 31, 37, 41, 43, 47, 53, 59, 61, 67, 71, 73, 79, 83, 89, 97, 101, 103, 107, 109, 113] ++
  [127, 131, 137, 139, 149, 151, 157, 163, 167, 173, 179, 181, 191, 193, 197, 199, 211, 223, 227, 229, 233, 239, 241, 251] ++
  [257, 263, 269, 271, 277, 281, 283, 293, 307, 311, 313, 317, 331, 337, 347, 349, 353, 359, 367, 373, 379, 383, 389, 397] ++
  [401, 409]

/-- R125: the 64-bit constants are the fractions of the cube roots of the primes. -/
theorem test_k512_recipe : ∀ i, i < 80 → ∃ q, q < 8 ∧
    (q * 2 ^ 64 + (k512.getD i 0).toNat) ^ 3 ≤ primes.getD i 0 * 2 ^ 192 ∧
    primes.getD i 0 * 2 ^ 192 < (q * 2 ^ 64 + (k512.getD i 0).toNat + 1) ^ 3 := by decide +kernel

/-- R125: each 32-bit constant is the high half of the 64-bit one. -/
theorem test_k256_recipe : ∀ i, i < 64 → (k256.getD i 0).toNat = (k512.getD i 0).toNat / 2 ^ 32 := by decide +kernel

/-- R132: the initial states of SHA-512 and SHA-384 are the fractions of the square roots of the first 16 primes. -/
theorem test_h0_recipe : ∀ j, j < 16 → ∃ q, q < 8 ∧
    (q * 2 ^ 64 + ((eightList h0Sha512 ++ eightList h0Sha384).getD j 0).toNat) ^ 2 ≤ primes.getD j 0 * 2 ^ 128 ∧
    primes.getD j 0 * 2 ^ 128 < (q * 2 ^ 64 + ((eightList h0Sha512 ++ eightList h0Sha384).getD j 0).toNat + 1) ^ 2 := by
  decide +kernel

/-- R132: those of SHA-256 and SHA-224 are the high and the low halves. -/
theorem test_h0_narrow_recipe : ∀ j, j < 8 →
    ((eightList h0Sha256).getD j 0).toNat = ((eightList h0Sha512).getD j 0).toNat / 2 ^ 32 ∧
    ((eightList h0Sha224).getD j 0).toNat = ((eightList h0Sha384).getD j 0).toNat % 2 ^ 32 := by decide

/-- R132: those of SHA-512/224 and SHA-512/256 are what SHA-512, begun from its initial state xor `0xa5a5a5a5a5a5a5a5`, makes of
the ASCII strings `SHA-512/224` and `SHA-512/256`. -/
theorem test_h0_truncated_recipe :
    let s (tail : List Byte) : List Byte := [0x53#8, 0x48#8, 0x41#8, 0x2d#8, 0x35#8, 0x31#8, 0x32#8, 0x2f#8] ++ tail
    let f (x : BitVec 64) : BitVec 64 := x ^^^ 0xa5a5a5a5a5a5a5a5#64
    let h : Eight 64 := ⟨f h0Sha512.r0, f h0Sha512.r1, f h0Sha512.r2, f h0Sha512.r3, f h0Sha512.r4, f h0Sha512.r5,
      f h0Sha512.r6, f h0Sha512.r7⟩
    foldBlocks core64 .sha512 (s [0x32#8, 0x32#8, 0x34#8]) h 1 = h0Sha512_224 ∧
    foldBlocks core64 .sha512 (s [0x32#8, 0x35#8, 0x36#8]) h 1 = h0Sha512_256 := by decide +kernel

/-! ## Mixing functions (95_test_vectors.md 2.1) -/

theorem test_sigmas_narrow :
    smallSigma core32.smallSigma0 0x12345678#32 = 0xe7fce6ee#32 ∧ smallSigma core32.smallSigma1 0x12345678#32 = 0xa1f78649#32 ∧
    bigSigma core32.bigSigma0 0x12345678#32 = 0x66146474#32 ∧ bigSigma core32.bigSigma1 0x12345678#32 = 0x3561abda#32 := by
  decide

theorem test_sigmas_wide :
    smallSigma core64.smallSigma0 0x0123456789abcdef#64 = 0x6f92c77c6c4f1aa1#64 ∧
    smallSigma core64.smallSigma1 0x0123456789abcdef#64 = 0x70a3460dbbd4317a#64 ∧
    bigSigma core64.bigSigma0 0x0123456789abcdef#64 = 0xb7c57a100c7ec1ab#64 ∧
    bigSigma core64.bigSigma1 0x0123456789abcdef#64 = 0x7703112333475567#64 := by decide

theorem test_choice_majority :
    choice 0x510e527fade682d1#64 0x9b05688c2b3e6c1f#64 0x1f83d9abfb41bd6b#64 = 0x1f85c98c7b273d3b#64 ∧
    majority 0x510e527fade682d1#64 0x9b05688c2b3e6c1f#64 0x1f83d9abfb41bd6b#64 = 0x1b0758afab66ac5b#64 := by decide

/-! ## Padding (41_padder.md R150, 95_test_vectors.md 2.2) -/

theorem test_zero_fill_narrow : [0, 3, 55, 56, 64].map (fun n => (zeroFill .sha256 n, paddedLength .sha256 n, blockCount .sha256 n)) =
    [(55, 64, 1), (52, 64, 1), (0, 64, 1), (63, 128, 2), (55, 128, 2)] := by decide

theorem test_zero_fill_wide : [3, 111, 112].map (fun n => (zeroFill .sha512 n, paddedLength .sha512 n, blockCount .sha512 n)) =
    [(108, 128, 1), (0, 128, 1), (127, 256, 2)] := by decide

theorem test_padded_abc : padded .sha256 abc = beBytes 64
    0x61626380000000000000000000000000000000000000000000000000000000000000000000000000000000000000000000000000000000000000000000000018 := by
  decide +kernel

theorem test_padding_of_56 : padding .sha256 56 = 0x80#8 :: (zeros 63 ++ [0, 0, 0, 0, 0, 0, 0x01#8, 0xc0#8]) := by decide

theorem test_padding_of_111 : padding .sha512 111 = 0x80#8 :: (zeros 14 ++ [0x03#8, 0x78#8]) := by decide

/-! ## The commands, one step each (95_test_vectors.md 2.4, 2.6) -/

/-- The message `a`. -/
theorem test_hash_sha224 : resultOf (run 0x0 (loaded Params.full [] [0x61#8])) =
    success 28 0xabd37534c7d9a2efb9465de931cd7055ffdb8879563ae98078d6d6d5 := by decide +kernel

theorem test_hash_sha256 : resultOf (run 0x1 (loaded Params.full [] abc)) =
    success 32 0xba7816bf8f01cfea414140de5dae2223b00361a396177a9cb410ff61f20015ad := by decide +kernel

/-- The message `a`. -/
theorem test_hash_sha384 : resultOf (run 0x2 (loaded Params.full [] [0x61#8])) =
    success 48 0x54a59b9f22b0b80880d8427e548b7c23abd873486e1f035dce9cd697e85175033caa88e6d57bc35efae0b5afd3145f31 := by
  decide +kernel

/-- The empty message. -/
theorem test_hash_sha512 : resultOf (run 0x3 State.reset) =
    success 64 0xcf83e1357eefb8bdf1542850d66d8007d620e4050b5715dc83f4a921d36ce9ce47d0d13c5d85f2b0ff8318d2877eec2f63b931bd47417a81a538327af927da3e := by
  decide +kernel

/-- The empty message. -/
theorem test_hash_sha512_224 : resultOf (run 0x4 State.reset) =
    success 28 0x6ed0dd02806fa89e25de060c19d3ac86cabb87d6a0ddd05c333b84f4 := by decide +kernel

/-- The empty message. -/
theorem test_hash_sha512_256 : resultOf (run 0x5 State.reset) =
    success 32 0xc672b8d1ef56ed28ab87c3622c5114069bdd3ad7b8f9737498d0c01ecef0967a := by decide +kernel

/-- A key of 65 bytes, one more than a block, so that it is hashed; the message `abc`. -/
theorem test_hmac_sha224_long_key : resultOf (run 0x8 (loaded Params.full (List.replicate 65 0x61#8) abc)) =
    success 28 0xedd9bc1e2389c79c5cdb6ce0eb910d349b6f0cb9e603d5801e871ac7 := by decide +kernel

/-- H7: the key `key`, the empty message. -/
theorem test_hmac_sha256 : resultOf (run 0x9 (loaded Params.full keyBytes3 [])) =
    success 32 0x5d5d139563c95b5967b9bd9a8c9b233a9dedb45072794cd232dc1b74832607d0 := by decide +kernel

/-- H9: the empty key, the message `abc`. -/
theorem test_hmac_sha512 : resultOf (run 0xB (loaded Params.full [] abc)) =
    success 64 0x29689f6b79a8dd686068c2eeae97fd8769ad3ba65cb5381f838358a8045a358ee3ba1739c689c7805e31734fb6072f87261d1256995370d55725cba00d10bdd0 := by
  decide +kernel

/-! ## Errors (95_test_vectors.md 2.8) -/

/-- E1 to E4. -/
theorem test_reserved_words_fail : [0x6, 0x7, 0xE, 0xF].map (fun w => resultOf (run w State.reset)) =
    List.replicate 4 (failure 0b010#3) := by decide

/-- E5, E7. -/
theorem test_disabled_variant_fails : resultOf (run 0x0 (State.powerOn small)) = failure 0b010#3 ∧
    resultOf (run 0xB (State.powerOn small)) = failure 0b010#3 := by decide

/-- E8, E9. -/
theorem test_unsupported_variant_first :
    resultOf (run 0x1 { State.powerOn { enabled := [.sha384, .sha512], msgCap := 1, keyCap := 1 } with
      msgLen := BitVec.ofNat 64 (2 ^ 58) }) = failure 0b010#3 ∧
    resultOf (run 0x6 { State.reset with msgLen := BitVec.ofNat 64 (2 ^ 60) }) = failure 0b010#3 := by decide

/-- E10, E11. -/
theorem test_message_too_long :
    resultOf (run 0x1 { State.reset with msgLen := BitVec.ofNat 64 (2 ^ 58) }) = failure 0b001#3 ∧
    resultOf (run 0x3 { State.reset with msgLen := BitVec.ofNat 64 (2 ^ 64 - 1) }) = failure 0b001#3 := by decide +kernel

/-- E13. -/
theorem test_capacity_refused :
    refusalOf (run 0x1 { State.powerOn small with msgLen := BitVec.ofNat 64 (2 ^ 58 - 1) }) = some .capacityExceeded := by
  decide +kernel

/-- E14, E16. -/
theorem test_hmac_inner_stream_too_long :
    resultOf (run 0x9 { State.reset with msgLen := BitVec.ofNat 64 (2 ^ 58 - 64) }) = failure 0b001#3 ∧
    resultOf (run 0xB { State.reset with msgLen := BitVec.ofNat 64 (2 ^ 58 - 128) }) = failure 0b001#3 := by decide +kernel

/-- E19. -/
theorem test_hmac_key_too_long :
    resultOf (run 0x9 { State.reset with keyLen := BitVec.ofNat 64 (2 ^ 58) }) = failure 0b001#3 := by decide +kernel

/-! ## Host transactions (95_test_vectors.md 2.9) -/

/-- T3, T5. -/
theorem test_reads_after_reset_refused : refusalOf (host (.rdDigest 0) State.reset) = some .indexOutOfRange ∧
    refusalOf (host (.rdMsg 0) State.reset) = some .unwrittenByte := by decide

/-- T6, T7. -/
theorem test_caps : replyOf (host .rdCaps State.reset) = some (.caps 0b111111#6) ∧
    replyOf (host .rdCaps (State.powerOn { enabled := [.sha256, .sha512], msgCap := 1, keyCap := 1 })) =
      some (.caps 0b001010#6) := by decide

/-- T11. -/
theorem test_length_register_holds_64_bits :
    replyOf (host .rdMsgLen { State.reset with msgLen := BitVec.ofNat 64 (2 ^ 64 - 1) }) =
      some (.length 0xffffffffffffffff#64) ∧
    refusalOf (host (.wrMsgLen (2 ^ 64)) State.reset) = some .lengthOutOfRange := by decide

/-- T12. -/
theorem test_overwrite_byte :
    replyOf (Sys2Proof.core.run 2 { loaded small [] [0x61#8] with pending := [.wrMsg 0 0x62#8, .rdMsg 0] }) =
      some (.byte 0x62#8) := by decide

/-- T14. -/
theorem test_reset_clears :
    resultOf (host .reset { loaded small keyBytes3 [0x61#8] with
      status := 0b100#3, digestLen := 32#7, digest := [(0, 0#8)] }) = failure 0b000#3 := by decide

/-- R31: the numbers of the ports. -/
theorem test_ports : [Transaction.cmd 0, .rdStatus, .rdCaps, .wrMsgLen 0, .wrKeyLen 0, .rdDigestLen, .wrMsg 0 0#8, .rdKey 0,
    .rdDigest 0].map portOf = (List.range 9).map some := by decide

/-! ## Host scripts (30_encoding.md R102) -/

theorem test_pseudo_instructions :
    ldMsg abc ++ issue .hashSha512_256 = [.wrMsg 0 0x61#8, .wrMsg 1 0x62#8, .wrMsg 2 0x63#8, .wrMsgLen 3, .cmd 0x5] ∧
    ldKey [0x6b#8] ++ issue .hmacSha512_256 = [.wrKey 0 0x6b#8, .wrKeyLen 1, .cmd 0xD] ∧
    rdDigestAll 2 = [.rdDigestLen, .rdDigest 0, .rdDigest 1] ∧
    movDigestToKey [7#8] = [.rdDigestLen, .rdDigest 0, .wrKey 0 7#8, .wrKeyLen 1] := by decide

/-! ## Witnesses

For each statement of Certificates/Slice0/Obligations.lean that has hypotheses: concrete states and operands that meet the
hypotheses of each of its clauses, at a boundary of their range where there is one. -/

/-- A command is next: `HASH.SHA256` on `abc`. -/
def ready : State := loaded Params.full keyBytes3 abc

/-- The state after a success with the digest `dg`. -/
def delivered (dg : List Byte) : State := succeed dg ready

/-- The state with the sequencer at `q`, variant `v`, pass `p`. -/
def running (q : Sequencer) (v : Variant) (p : Pass) : State :=
  { ready with seq := q, internal := { ready.internal with var := v, pass := p } }

theorem holdsMessage_loaded (p : Params) (k m : List Byte) (h : m.length < 2 ^ 64) (hc : m.length ≤ p.msgCap) :
    holdsMessage (loaded p k m) m := by
  have hl : msgBytes (loaded p k m) = m.length := by
    simp only [msgBytes, loaded, BitVec.toNat_ofNat]; exact Nat.mod_eq_of_lt h
  exact ⟨hl.symm, hl ▸ hc, fun j _ => read_digest m j⟩

theorem holdsKey_loaded (p : Params) (k m : List Byte) (h : k.length < 2 ^ 64) (hc : k.length ≤ p.keyCap) :
    holdsKey (loaded p k m) k := by
  have hl : keyBytes (loaded p k m) = k.length := by
    simp only [keyBytes, loaded, BitVec.toNat_ofNat]; exact Nat.mod_eq_of_lt h
  exact ⟨hl.symm, hl ▸ hc, fun j _ => read_digest k j⟩

theorem holds_ready : holdsMessage ready abc ∧ holdsKey ready keyBytes3 :=
  ⟨holdsMessage_loaded _ _ _ (by decide) (by decide), holdsKey_loaded _ _ _ (by decide) (by decide)⟩

theorem enabled_full (v : Variant) : isEnabled Params.full v = true := by cases v <;> decide

/-- A HASH of a loaded message runs to its end. -/
theorem exec_hash_loaded (v : Variant) (p : Params) (k m : List Byte) (he : isEnabled p v = true) (h : m.length < 2 ^ 58)
    (hc : m.length ≤ p.msgCap) :
    exec (instrOf .hash v) (loaded p k m) = .next (succeed (digestOf v m) (loaded p k m)) := by
  obtain ⟨h1, h2⟩ := (holdsMessage_iff _ _).1 (holdsMessage_loaded p k m (by omega) hc)
  have hl : msgBytes (loaded p k m) = m.length := (holdsMessage_loaded p k m (by omega) hc).1.symm
  rw [exec_instrOf, runCommand_eq]
  simp only [hashReference]
  rw [if_neg (by rw [show (loaded p k m).params = p from rfl, he]; simp), if_neg (by rw [tooLong_iff, hl]; omega),
    if_neg (by omega), h2]

/-- The longest message that HASH accepts, `2^58 - 1` bytes. -/
def longest : List Byte := List.replicate (2 ^ 58 - 1) 0#8

theorem length_longest : longest.length = 2 ^ 58 - 1 := List.length_replicate

/-- The engine with one variant disabled: only SHA-256 is enabled, or only SHA-512. -/
def without (v : Variant) : State :=
  State.powerOn { enabled := [if v = .sha256 then .sha512 else .sha256], msgCap := 2, keyCap := 3 }

theorem witness_StepRunsTheDecodedCommand :
    ({ ready with pending := [.cmd 1, .rdStatus] } : State).seq.phase = .idle ∧
    decodeWord 1 = .ok .hashSha256 ∧ decodeWord 13 = .ok .hmacSha512_256 ∧ State.reset.seq.phase = .idle := ⟨rfl, rfl, rfl, rfl⟩

theorem witness_IdleHoldsAndRunningBlocks :
    State.reset.seq.phase = .idle ∧ State.reset.pending = [] ∧ (running ⟨.round, 0, 63⟩ .sha256 .plain).seq.phase ≠ .idle := by
  decide

theorem witness_TransactionTable :
    Memory.read ready.msg 2 = some 0x63#8 ∧ 2 < ready.params.msgCap ∧ (State.powerOn small).params.msgCap ≤ 2 ∧
    Memory.read ready.key 2 = some 0x79#8 ∧ 2 < ready.params.keyCap ∧ (State.powerOn small).params.keyCap ≤ 3 ∧
    2 ^ 64 ≤ 2 ^ 64 ∧ Memory.read (delivered (zeros 28)).digest 27 = some 0#8 ∧ 27 < (delivered (zeros 28)).digestLen.toNat ∧
    (delivered (zeros 28)).digestLen.toNat ≤ 28 ∧ 16 ≤ 16 := by decide

theorem witness_TransactionsLeaveTheResultAlone :
    transact .rdStatus ready = .next { ready with reply := .status ready.status } ∧
    transact (.rdMsg 0) ready = .next { ready with reply := .byte 0x61#8 } ∧
    (∃ t, transact (.cmd 1) ready = .next t) ∧
    (∃ t, transact (.wrMsg 0 0#8) ready = .next t) ∧ (∃ t, transact (.wrKey 0 0#8) ready = .next t) ∧
    (∃ t, transact (.wrMsgLen 1) ready = .next t) ∧ (∃ t, transact (.wrKeyLen 1) ready = .next t) ∧
    (∃ t, transact .reset ready = .next t) :=
  ⟨rfl, rfl, ⟨_, exec_hash_loaded .sha256 Params.full keyBytes3 abc rfl (by decide) (by decide)⟩,
    ⟨_, rfl⟩, ⟨_, rfl⟩, ⟨_, rfl⟩, ⟨_, rfl⟩, ⟨_, rfl⟩⟩

theorem witness_ReadReturnsTheByteLastWritten :
    1 < (State.powerOn small).params.msgCap ∧ 2 < (State.powerOn small).params.keyCap ∧
    2 ^ 64 - 1 < State.reset.params.msgCap := by decide

theorem delivers_delivered : delivers (delivered (zeros 28)) (zeros 28) := delivers_succeed _ (by decide)

theorem witness_DigestReadableBelowDigestLen :
    Inv (delivered (zeros 28)) ∧ delivers (delivered (zeros 28)) (zeros 28) ∧ (zeros 28)[27]? = some 0#8 ∧
    (zeros 28).length ≤ 28 := by
  refine ⟨?_, delivers_delivered, rfl, by decide⟩
  have hm : ∀ a, (Memory.read ready.msg a).isSome = true → a < 2 ^ 64 := fun a h => by
    rw [show ready.msg = Memory.writeBytes [] 0 abc from rfl, read_digest] at h
    have : a < abc.length := by simpa using h
    have : abc.length = 3 := rfl
    omega
  have hk : ∀ a, (Memory.read ready.key a).isSome = true → a < 2 ^ 64 := fun a h => by
    rw [show ready.key = Memory.writeBytes [] 0 keyBytes3 from rfl, read_digest] at h
    have : a < keyBytes3.length := by simpa using h
    have : keyBytes3.length = 3 := rfl
    omega
  exact ⟨by decide, by decide, by decide, by decide, hm, hk, fun j => by
    rw [show (delivered (zeros 28)).digest = Memory.writeBytes [] 0 (zeros 28) from rfl, read_digest,
      show (delivered (zeros 28)).digestLen = 28#7 from rfl]
    simp [zeros], .inr (.inr (.inr ⟨rfl, .inl rfl⟩)), rfl⟩

theorem witness_FirstCommandAfterReset : (∀ v, isEnabled Params.full v = true) ∧ isEnabled small .sha256 = true :=
  ⟨enabled_full, rfl⟩

theorem witness_CapsIsConstant : small.wf = true ∧ Params.full.wf = true ∧ step State.reset = .next State.reset :=
  ⟨by decide, by decide, rfl⟩

/-- The engine with `v` alone and two small spaces. -/
def only (v : Variant) : State := State.powerOn { enabled := [v], msgCap := 2, keyCap := 3 }

/-- The hypotheses of `hashOutsideRules v` and `hmacOutsideRules v`: one byte more than the capacity, of the message and of the
key; a message, and a key, that exactly fills its space and whose last byte was not written. -/
def overCapacity (v : Variant) : Prop :=
  let s : State := { only v with msgLen := 3#64 }
  let u : State := { only v with keyLen := 4#64 }
  let x : State := { only v with msg := [(0, 7#8)], msgLen := 2#64 }
  let y : State := { only v with key := [(0, 7#8), (1, 7#8)], keyLen := 3#64 }
  isEnabled (only v).params v = true ∧ msgBytes s < 2 ^ 58 ∧ s.params.msgCap < msgBytes s ∧
  keyBytes s < 2 ^ 58 ∧ blockBytes v + msgBytes s < 2 ^ 58 ∧
  keyBytes u < 2 ^ 58 ∧ blockBytes v + msgBytes u < 2 ^ 58 ∧ u.params.keyCap < keyBytes u ∧
  msgBytes x < 2 ^ 58 ∧ msgBytes x ≤ x.params.msgCap ∧ 1 < msgBytes x ∧ Memory.read x.msg 1 = none ∧
  keyBytes x < 2 ^ 58 ∧ blockBytes v + msgBytes x < 2 ^ 58 ∧ keyBytes x ≤ x.params.keyCap ∧
  keyBytes y < 2 ^ 58 ∧ blockBytes v + msgBytes y < 2 ^ 58 ∧ msgBytes y ≤ y.params.msgCap ∧ keyBytes y ≤ y.params.keyCap ∧
  2 < keyBytes y ∧ Memory.read y.key 2 = none ∧ 1 < x.params.msgCap ∧ 2 < y.params.keyCap

theorem overCapacity_holds (v : Variant) : overCapacity v := by unfold overCapacity; cases v <;> decide

/-- For every variant: the hypotheses of the HASH statements: a short message, the longest one, a disabled variant, a message
of `2^58` bytes and one of `2^64 - 1`. -/
def HashHypotheses (v : Variant) : Prop :=
  isEnabled ready.params v = true ∧ holdsMessage ready abc ∧ abc.length < 2 ^ 58 ∧
  isEnabled (loaded Params.full [] longest).params v = true ∧ holdsMessage (loaded Params.full [] longest) longest ∧
  longest.length < 2 ^ 58 ∧ isEnabled (without v).params v = false ∧
  2 ^ 58 ≤ msgBytes { State.reset with msgLen := BitVec.ofNat 64 (2 ^ 58) } ∧
  2 ^ 58 ≤ msgBytes { State.reset with msgLen := BitVec.ofNat 64 (2 ^ 64 - 1) } ∧
  overCapacity v

theorem witness_HashCommands (v : Variant) : HashHypotheses v :=
  ⟨enabled_full v, holds_ready.1, by decide, enabled_full v,
    holdsMessage_loaded _ _ _ (by rw [length_longest]; decide) (by rw [length_longest]; decide),
    by rw [length_longest]; decide, by cases v <;> decide, by decide, by decide, overCapacity_holds v⟩

theorem witness_HashSha224Command : HashHypotheses .sha224 := witness_HashCommands .sha224
theorem witness_HashSha256Command : HashHypotheses .sha256 := witness_HashCommands .sha256
theorem witness_HashSha384Command : HashHypotheses .sha384 := witness_HashCommands .sha384
theorem witness_HashSha512Command : HashHypotheses .sha512 := witness_HashCommands .sha512
theorem witness_HashSha512_224Command : HashHypotheses .sha512_224 := witness_HashCommands .sha512_224
theorem witness_HashSha512_256Command : HashHypotheses .sha512_256 := witness_HashCommands .sha512_256

theorem witness_HashRefinesDigest (v : Variant) :
    isEnabled (without v).params v = false ∧ isEnabled ready.params v = true ∧ holdsMessage ready abc ∧
    2 ^ 61 ≤ 8 * msgBytes { State.reset with msgLen := BitVec.ofNat 64 (2 ^ 58) } ∧
    holdsMessage (loaded Params.full [] longest) longest ∧ longest.length = 2 ^ 58 - 1 ∧ State.reset.msgLen = 0#64 ∧
    exec (instrOf .hash v) ready = .next (succeed (digestOf v abc) ready) :=
  ⟨by cases v <;> decide, enabled_full v, holds_ready.1, by decide, (witness_HashCommands v).2.2.2.2.1, length_longest, rfl,
    exec_hash_loaded v _ _ _ (enabled_full v) (by decide) (by decide)⟩

/-- An HMAC of a loaded key and message runs to its end. -/
theorem exec_hmac_loaded (v : Variant) (p : Params) (k m : List Byte) (he : isEnabled p v = true) (h : m.length < 2 ^ 58 - 128)
    (hk : k.length < 2 ^ 58) (hc : m.length ≤ p.msgCap) (hkc : k.length ≤ p.keyCap) :
    exec (instrOf .hmac v) (loaded p k m) = .next (succeed (hmacOf v k m) (loaded p k m)) := by
  obtain ⟨h1, h2⟩ := (holdsMessage_iff _ _).1 (holdsMessage_loaded p k m (by omega) hc)
  obtain ⟨h3, h4⟩ := (holdsKey_iff _ _).1 (holdsKey_loaded p k m (by omega) hkc)
  have hl : msgBytes (loaded p k m) = m.length := (holdsMessage_loaded p k m (by omega) hc).1.symm
  have hkl : keyBytes (loaded p k m) = k.length := (holdsKey_loaded p k m (by omega) hkc).1.symm
  have hb : blockBytes v ≤ 128 := by cases v <;> decide
  rw [exec_instrOf, runCommand_eq]
  simp only [hmacReference]
  rw [if_neg (by rw [show (loaded p k m).params = p from rfl, he]; simp),
    if_neg (by rw [tooLong_iff, tooLong_iff, hl, hkl]; omega), if_neg (by omega), h2, h4]

/-- The longest message that HMAC accepts with blocks of `b` bytes, and the shortest key that is hashed. -/
def longestHmac (b : Nat) : List Byte := List.replicate (2 ^ 58 - b - 1) 0#8

/-- For every variant: the hypotheses of the HMAC statements: a short key and message, the longest key, the longest message, a
disabled variant, a key and a message that are one byte too long. -/
def HmacHypotheses (v : Variant) : Prop :=
  isEnabled ready.params v = true ∧ holdsKey ready keyBytes3 ∧ holdsMessage ready abc ∧
  keyBytes3.length < 2 ^ 58 ∧ abc.length < 2 ^ 58 - blockBytes v ∧
  holdsKey (loaded Params.full longest []) longest ∧ longest.length < 2 ^ 58 ∧
  holdsMessage (loaded Params.full [] (longestHmac (blockBytes v))) (longestHmac (blockBytes v)) ∧
  (longestHmac (blockBytes v)).length < 2 ^ 58 - blockBytes v ∧ isEnabled (without v).params v = false ∧
  2 ^ 58 ≤ keyBytes { State.reset with keyLen := BitVec.ofNat 64 (2 ^ 58) } ∧
  2 ^ 58 - blockBytes v ≤ msgBytes { State.reset with msgLen := BitVec.ofNat 64 (2 ^ 58 - blockBytes v) } ∧
  blockBytes v < (zeros (blockBytes v + 1)).length ∧ overCapacity v

theorem witness_HmacCommands (v : Variant) : HmacHypotheses v := by
  have hb : blockBytes v = 64 ∨ blockBytes v = 128 := by cases v <;> decide
  have hl : (longestHmac (blockBytes v)).length = 2 ^ 58 - blockBytes v - 1 := List.length_replicate
  have hcap : Params.full.msgCap = 2 ^ 64 := rfl
  refine ⟨enabled_full v, holds_ready.2, holds_ready.1, by decide, ?_,
    holdsKey_loaded _ _ _ (by rw [length_longest]; decide) (by rw [length_longest]; decide), by rw [length_longest]; decide,
    holdsMessage_loaded _ _ _ ?_ ?_, ?_, by cases v <;> decide, by decide, by cases v <;> decide,
    by cases v <;> decide, overCapacity_holds v⟩
  · rw [show abc.length = 3 from rfl]; omega
  · rw [hl]; omega
  · rw [hl, hcap]; omega
  · rw [hl]; omega

theorem witness_HmacSha224Command : HmacHypotheses .sha224 := witness_HmacCommands .sha224
theorem witness_HmacSha256Command : HmacHypotheses .sha256 := witness_HmacCommands .sha256
theorem witness_HmacSha384Command : HmacHypotheses .sha384 := witness_HmacCommands .sha384
theorem witness_HmacSha512Command : HmacHypotheses .sha512 := witness_HmacCommands .sha512
theorem witness_HmacSha512_224Command : HmacHypotheses .sha512_224 := witness_HmacCommands .sha512_224
theorem witness_HmacSha512_256Command : HmacHypotheses .sha512_256 := witness_HmacCommands .sha512_256

theorem witness_HmacRefinesConstruction (v : Variant) :
    isEnabled (without v).params v = false ∧ isEnabled ready.params v = true ∧ holdsKey ready keyBytes3 ∧
    holdsMessage ready abc ∧ State.reset.keyLen = 0#64 ∧ State.reset.msgLen = 0#64 ∧
    (blockBytes v < keyBytes { State.reset with keyLen := BitVec.ofNat 64 (2 ^ 58) } ∧
      2 ^ 61 ≤ 8 * keyBytes { State.reset with keyLen := BitVec.ofNat 64 (2 ^ 58) }) ∧
    2 ^ 61 ≤ 8 * (blockBytes v + msgBytes { State.reset with msgLen := BitVec.ofNat 64 (2 ^ 58 - blockBytes v) }) ∧
    exec (instrOf .hmac v) ready = .next (succeed (hmacOf v keyBytes3 abc) ready) :=
  ⟨by cases v <;> decide, enabled_full v, holds_ready.2, holds_ready.1, rfl, rfl, by cases v <;> decide,
    by cases v <;> decide, exec_hmac_loaded v _ _ _ (enabled_full v) (by decide) (by decide) (by decide) (by decide)⟩

theorem witness_DerivedKeyAndPads (v : Variant) :
    blockBytes v < (zeros (blockBytes v + 1)).length ∧ (zeros (blockBytes v)).length ≤ blockBytes v ∧
    (zeros (blockBytes v)).length = blockBytes v ∧ blockBytes v - 1 < blockBytes v := by cases v <;> decide

/-- One engine with a key one byte longer than a block, and one with its digest as the key. -/
theorem witness_LongKeyEqualsItsDigest (v : Variant) :
    let k := zeros (blockBytes v + 1)
    blockBytes v < k.length ∧ k.length < 2 ^ 58 ∧ abc.length < 2 ^ 58 - blockBytes v ∧
    isEnabled (loaded Params.full k abc).params v = true ∧ isEnabled (loaded Params.full (digestOf v k) abc).params v = true ∧
    holdsMessage (loaded Params.full k abc) abc ∧ holdsMessage (loaded Params.full (digestOf v k) abc) abc ∧
    holdsKey (loaded Params.full k abc) k ∧ holdsKey (loaded Params.full (digestOf v k) abc) (digestOf v k) := by
  have hd : digestBytes v ≤ 64 := by cases v <;> decide
  have hk : Params.full.keyCap = 2 ^ 64 := rfl
  refine ⟨by cases v <;> decide, by cases v <;> decide, by cases v <;> decide, enabled_full v, enabled_full v,
    holdsMessage_loaded _ _ _ (by decide) (by decide), holdsMessage_loaded _ _ _ (by decide) (by decide),
    holdsKey_loaded _ _ _ (by cases v <;> decide) (by cases v <;> decide), holdsKey_loaded _ _ _ ?_ ?_⟩
  · rw [length_digestOf]; omega
  · rw [length_digestOf, hk]; omega

theorem witness_TrailingZerosOfAShortKey (v : Variant) :
    let j := blockBytes v - 3
    keyBytes3.length + j ≤ blockBytes v ∧ abc.length < 2 ^ 58 - blockBytes v ∧
    isEnabled ready.params v = true ∧ isEnabled (loaded Params.full (keyBytes3 ++ zeros j) abc).params v = true ∧
    holdsMessage ready abc ∧ holdsMessage (loaded Params.full (keyBytes3 ++ zeros j) abc) abc ∧
    holdsKey ready keyBytes3 ∧ holdsKey (loaded Params.full (keyBytes3 ++ zeros j) abc) (keyBytes3 ++ zeros j) :=
  ⟨by cases v <;> decide, by cases v <;> decide, enabled_full v, enabled_full v, holds_ready.1,
    holdsMessage_loaded _ _ _ (by decide) (by decide), holds_ready.2,
    holdsKey_loaded _ _ _ (by cases v <;> decide) (by cases v <;> decide)⟩

theorem witness_HmacPassesAndStreams (v : Variant) :
    blockBytes v < keyBytes { State.reset with keyLen := 129#64 } ∧ keyBytes { State.reset with keyLen := 64#64 } ≤ blockBytes v ∧
    (running ⟨.fill, 0, 0⟩ v .innerPass).internal.pass = .innerPass ∧
    (running ⟨.fill, 0, 0⟩ v .outerPass).internal.pass = .outerPass ∧
    (running ⟨.fill, 0, 0⟩ v .keyHash).internal.pass = .keyHash ∧
    passLen v (running ⟨.fill, 0, 0⟩ v .innerPass) .innerPass ≤ blockBytes v + 3 ∧
    (running ⟨.trunc, 1, 0⟩ v .keyHash).seq = ⟨.trunc, 1, 0⟩ ∧ (running ⟨.trunc, 1, 0⟩ v .innerPass).seq = ⟨.trunc, 1, 0⟩ ∧
    (running ⟨.trunc, 1, 0⟩ v .outerPass).seq = ⟨.trunc, 1, 0⟩ ∧ isEnabled State.reset.params v = true := by
  cases v <;> decide

/-- A command that succeeds, one that raises each error, and one that is refused. -/
theorem exec_examples :
    exec .hashSha256 ready = .next (succeed (digestOf .sha256 abc) ready) ∧
    exec .hashSha224 (State.powerOn small) = .next (raise .unsupportedVariant (State.powerOn small)) ∧
    exec .hashSha256 { State.reset with msgLen := BitVec.ofNat 64 (2 ^ 58) } =
      .next (raise .messageTooLong { State.reset with msgLen := BitVec.ofNat 64 (2 ^ 58) }) ∧
    exec .hashSha256 { State.reset with msgLen := 1#64 } = .refused .unwrittenByte := by
  refine ⟨exec_hash_loaded .sha256 _ _ _ rfl (by decide) (by decide), rfl, ?_, rfl⟩
  rw [exec_eq, runCommand_eq]; rfl

theorem witness_CommandsKeepTheirInputs :
    (∃ t, exec .hashSha256 ready = .next t) ∧ (∃ t, exec .hashSha224 (State.powerOn small) = .next t) ∧
    (∃ t, transact (.cmd 1) ready = .next t) ∧ (∃ t, transact (.cmd 6) ready = .next t) :=
  ⟨⟨_, exec_examples.1⟩, ⟨_, exec_examples.2.1⟩, ⟨_, exec_examples.1⟩, ⟨_, rfl⟩⟩

theorem witness_ResultRegistersAfterACommand :
    (∃ t, exec .hashSha256 ready = .next t ∧ statusValid t.status = true) ∧
    (∃ t, exec .hashSha224 (State.powerOn small) = .next t ∧ statusValid t.status = false) :=
  ⟨⟨_, exec_examples.1, rfl⟩, ⟨_, exec_examples.2.1, rfl⟩⟩

theorem witness_NoHiddenState :
    sameInputs .hmac ready { ready with internal := Config.discarded 7, status := 0b010#3, reply := .digestLen 3#7 } ∧
    sameInputs .hash ready { ready with key := [], keyLen := 0#64 } ∧
    (let s' := loaded { Params.full with msgCap := 3, keyCap := 3 } keyBytes3 abc
     s'.params.enabled = ready.params.enabled ∧ s'.msgLen = ready.msgLen ∧ s'.msg = ready.msg ∧ s'.keyLen = ready.keyLen ∧
     s'.key = ready.key ∧ (∃ t, exec .hashSha256 s' = .next t)) ∧ (∃ t, exec .hashSha256 ready = .next t) ∧
    (∃ r, exec .hashSha256 { State.reset with msgLen := 1#64 } = .refused r) :=
  ⟨⟨rfl, rfl, fun _ _ => rfl, fun _ => ⟨rfl, fun _ _ => rfl⟩⟩, ⟨rfl, rfl, fun _ _ => rfl, nofun⟩,
    ⟨rfl, rfl, rfl, rfl, rfl, ⟨_, exec_hash_loaded .sha256 _ _ _ rfl (by decide) (by decide)⟩⟩, ⟨_, exec_examples.1⟩, ⟨_, exec_examples.2.2.2⟩⟩

theorem witness_EveryCommandEnds :
    inputsReady .hash ready ∧ inputsReady .hmac ready ∧ inputsReady .hmac (without .sha224) ∧ 15 < 16 :=
  ⟨⟨⟨_, holds_ready.1⟩, nofun⟩, ⟨⟨_, holds_ready.1⟩, fun _ => ⟨_, holds_ready.2⟩⟩,
    ⟨⟨[], rfl, by decide, nofun⟩, fun _ => ⟨[], rfl, by decide, nofun⟩⟩, by decide⟩

theorem witness_ErrorEntryWrites :
    (∃ t, exec .hashSha224 (State.powerOn small) = .next t ∧ failedWith t .unsupportedVariant) ∧
    (∃ t, exec .hashSha256 { State.reset with msgLen := BitVec.ofNat 64 (2 ^ 58) } = .next t ∧ failedWith t .messageTooLong) :=
  ⟨⟨_, exec_examples.2.1, failedWith_raise _ _⟩, ⟨_, exec_examples.2.2.1, failedWith_raise _ _⟩⟩

theorem witness_MessageTooLongExactly (v : Variant) :
    isEnabled State.reset.params v = true ∧ wordClass .sha224 = .narrow ∧ wordClass .sha384 = .wide ∧
    2 ^ 58 ≤ msgBytes { State.reset with msgLen := BitVec.ofNat 64 (2 ^ 58) } ∧
    ¬ 2 ^ 58 ≤ msgBytes { State.reset with msgLen := BitVec.ofNat 64 (2 ^ 58 - 1) } :=
  ⟨enabled_full v, rfl, rfl, by decide, by decide⟩

theorem witness_UnsupportedVariantExactly :
    6 ≤ (varField 0x6#4).toNat ∧ variantOfCode (varField 0x8#4) = some .sha224 ∧ .sha224 ∉ (State.powerOn small).params.enabled ∧
    ({ State.powerOn small with msgLen := 1#64 } : State).params = (State.powerOn small).params ∧
    (∀ v, v ∈ State.reset.params.enabled) := ⟨by decide, by decide, by decide, rfl, fun v => by cases v <;> decide⟩

theorem witness_UnsupportedVariantWins :
    isEnabled { State.powerOn small with msgLen := BitVec.ofNat 64 (2 ^ 58) }.params (variantOf .hmacSha512) = false ∧
    2 ^ 58 ≤ msgBytes { State.powerOn small with msgLen := BitVec.ofNat 64 (2 ^ 58) } ∧
    ({ State.reset with msgLen := BitVec.ofNat 64 (2 ^ 60) } : State).msgLen = BitVec.ofNat 64 (2 ^ 60) := by decide

theorem witness_ErrorsDependOnLengthsAlone :
    let s : State := { State.reset with msgLen := BitVec.ofNat 64 (2 ^ 58) }
    let s' : State := { s with params := { s.params with msgCap := 1 }, msg := [(0, 7#8)] }
    s'.params.enabled = s.params.enabled ∧ s'.msgLen = s.msgLen ∧ s'.keyLen = s.keyLen ∧
    exec .hashSha256 s = .next (raise .messageTooLong s) := ⟨rfl, rfl, rfl, exec_examples.2.2.1⟩

theorem witness_CapacityExceededRefused (v : Variant) :
    overCapacity v ∧ State.reset.params.msgCap = 2 ^ 64 ∧ State.reset.params.keyCap = 2 ^ 64 := ⟨overCapacity_holds v, rfl, rfl⟩

theorem witness_UnwrittenByteRefused (v : Variant) : overCapacity v := overCapacity_holds v

theorem witness_InvHoldsAtReset : Params.wf small = true ∧ Params.wf Params.full = true := by decide

theorem witness_EveryStepKeepsInv : Inv (delivered (zeros 28)) ∧ step (delivered (zeros 28)) = .next (delivered (zeros 28)) :=
  ⟨witness_DigestReadableBelowDigestLen.1, rfl⟩

theorem witness_ZeroFillFormula : wordClass .sha256 = .narrow ∧ wordClass .sha512 = .wide ∧ 55 % 64 ≤ 55 ∧ ¬ 56 % 64 ≤ 55 := by
  decide

theorem witness_PaddingIsLeastMultiple :
    (55 + 1 + 0 + lenBytes .sha256) % blockBytes .sha256 = 0 ∧ (56 + 1 + 63 + lenBytes .sha256) % blockBytes .sha256 = 0 ∧
    (112 + 1 + 127 + lenBytes .sha512) % blockBytes .sha512 = 0 := by decide

theorem witness_PaddedStreamBytes :
    63 < paddedLength .sha256 abc.length ∧ abc.length < 2 ^ 58 ∧ longest.length < 2 ^ 58 ∧ wordClass .sha512 = .wide ∧ 7 < 8 :=
  ⟨by decide, by decide, by rw [length_longest]; decide, rfl, by decide⟩

theorem witness_BlockCountFormula : 2 ^ 58 - 1 < 2 ^ 58 ∧ wordClass .sha256 = .narrow ∧ wordClass .sha512 = .wide := by decide

theorem witness_RotateAndShift : (0 < 1 ∧ 1 < 32 ∧ 31 < 32) ∧ (0 < 63 ∧ 63 < 64 ∧ 0 < 64) := by decide

theorem witness_PackIsBigEndian :
    let s := running ⟨.pack, 0, 0⟩ .sha256 .plain
    let u := { running ⟨.pack, 1, 0⟩ .sha512 .outerPass with
      internal := { (running ⟨.pack, 1, 0⟩ .sha512 .outerPass).internal with BLK := zeros 128 } }
    s.seq = ⟨.pack, 0, 0⟩ ∧ wordClass s.internal.var = .narrow ∧
    ({ s.internal with BLK := zeros 64 } : Internal).BLK.length = 64 ∧
    u.seq = ⟨.pack, 1, 0⟩ ∧ wordClass u.internal.var = .wide ∧ u.internal.BLK.length = 128 ∧ 15 < 16 := by decide

theorem witness_MicroOperationsOfACompression :
    16 ≤ 16 ∧ (⟨⟨0, 0, 0, 0, 0, 0, 0, 0⟩, ⟨0, 0, 0, 0, 0, 0, 0, 0⟩, List.replicate 16 0#32⟩ : Bank 32).W.length = 16 ∧
    16 ≤ 79 ∧ (⟨⟨0, 0, 0, 0, 0, 0, 0, 0⟩, ⟨0, 0, 0, 0, 0, 0, 0, 0⟩, List.replicate 79 0#64⟩ : Bank 64).W.length = 79 := by
  decide

theorem witness_CompressionRun :
    (running ⟨.pack, 0, 0⟩ .sha224 .plain).seq = ⟨.pack, 0, 0⟩ ∧
    wordClass (running ⟨.pack, 0, 0⟩ .sha224 .plain).internal.var = .narrow ∧
    (running ⟨.pack, 1, 0⟩ .sha384 .outerPass).seq = ⟨.pack, 1, 0⟩ ∧
    wordClass (running ⟨.pack, 1, 0⟩ .sha384 .outerPass).internal.var = .wide := by decide

/-- `ready` in FILL of block `blk` of pass `p` of variant `v`, with a derived key and an inner digest. -/
def filling (blk : Nat) (v : Variant) (p : Pass) : State :=
  let s := running ⟨.fill, blk, 0⟩ v p
  { s with internal := { s.internal with KP := zeros (blockBytes v), INNER := zeros (digestBytes v) } }

/-- The streams of the four passes of `filling`. -/
def streamOf (v : Variant) : Pass → List Byte
  | .plain => abc
  | .keyHash => keyBytes3
  | .innerPass => xorByte 0x36#8 (zeros (blockBytes v)) ++ abc
  | .outerPass => xorByte 0x5c#8 (zeros (blockBytes v)) ++ zeros (digestBytes v)

theorem holdsStream_filling (blk : Nat) (v : Variant) (p : Pass) : holdsStream (filling blk v p) (streamOf v p) := by
  cases p with
  | plain => exact holds_ready.1
  | keyHash => exact holds_ready.2
  | innerPass => exact ⟨by simp [filling, running], abc, holds_ready.1, rfl⟩
  | outerPass => exact ⟨by simp [filling, running], by simp [filling, running], rfl⟩

/-- Every pass, the last block of its stream; block 0 of an inner pass whose message no byte of was written, so that its stream
is readable in that block and not beyond. -/
theorem witness_InitAndFill (v : Variant) (p : Pass) :
    (running ⟨.init, 0, 0⟩ .sha224 .plain).seq = ⟨.init, 0, 0⟩ ∧
    initialState (running ⟨.init, 0, 0⟩ .sha224 .plain).internal.var = .narrow h0Sha224 ∧
    initialState (running ⟨.init, 0, 0⟩ .sha512_256 .plain).internal.var = .wide h0Sha512_256 ∧
    (let blk := blockCount v (streamOf v p).length - 1
     (filling blk v p).seq = ⟨.fill, blk, 0⟩ ∧ holdsStream (filling blk v p) (streamOf v p) ∧
     (streamOf v p).length = passLen v (filling blk v p) p ∧ blk < blockCount v (streamOf v p).length) ∧
    (let s : State := { filling 0 v .innerPass with msg := [] }
     (∀ j b, j < blockBytes v → (streamOf v .innerPass)[j]? = some b → streamByte v s j = .ok b) ∧
     streamByte v s (blockBytes v) = .error .unwrittenByte) ∧
    (running ⟨.fill, 0, 0⟩ .sha256 .plain).internal.pass = .plain ∧
    holdsMessage (running ⟨.fill, 0, 0⟩ .sha256 .plain) abc ∧ 0 < blockCount .sha256 abc.length ∧ 63 < blockBytes .sha256 := by
  refine ⟨rfl, rfl, rfl, ⟨rfl, holdsStream_filling _ v p, ?_, Nat.sub_lt (blockCount_pos _ _) Nat.one_pos⟩,
    ⟨fun j b hj hb => ?_, by cases v <;> rfl⟩, rfl, holds_ready.1, by decide, by decide⟩
  · cases p <;> simp [streamOf, passLen, filling, running] <;> rfl
  rw [streamOf, List.getElem?_append_left (by simpa using hj)] at hb
  simp only [xorByte, List.getElem?_map, zeros, List.getElem?_replicate, hj, if_true, Option.map_some, Option.some.injEq] at hb
  subst hb
  simp [streamByte, filling, running, paddedKeyByte, hj, zeros]

theorem witness_TruncatedDigestBytes :
    wordClass (running ⟨.trunc, 0, 0⟩ .sha224 .plain).internal.var = .narrow ∧ 27 < digestBytes .sha224 ∧
    wordClass (running ⟨.trunc, 0, 0⟩ .sha512_224 .plain).internal.var = .wide ∧ 27 < digestBytes .sha512_224 := by decide

/-- The last round of the last block, and the FOLD after it. -/
theorem witness_SequencerStaysInBounds :
    let s := running ⟨.round, 0, 63⟩ .sha256 .plain
    let u := running ⟨.fold, 0, 0⟩ .sha256 .plain
    sequencerInBounds s ∧ engineStep s = .next (microRound s) ∧ sequencerInBounds u ∧ engineStep u = .next (microFold u) :=
  ⟨⟨by decide, by decide⟩, rfl, ⟨by decide, by decide⟩, rfl⟩

theorem witness_BigEndianRoundTrip : 7 < 8 ∧ 2 ^ 64 - 1 < 2 ^ (8 * 8) ∧ 0 < 2 ^ (8 * 0) := by decide

end Sys2Proof.Tests
end

/-! PROOFS. The words and byte sequences of 00_scope.md: the rotate and the shift of R14, and the big-endian encoding of
R15 and its inverse. -/

namespace Sys2Proof.Machine

/-! R14: the rotate is the library's rotate, for an amount inside the word. -/

theorem rotr_eq_rotateRight {w n : Nat} (x : BitVec w) (h : n < w) : rotr x n = x.rotateRight n := by
  rw [BitVec.rotateRight_def, Nat.mod_eq_of_lt h, rotr]

/-- The bits of the rotate: below `w - n` the sum `i + n` stays inside the word, from there on it wraps once. -/
theorem getLsbD_rotr {w n i : Nat} (x : BitVec w) (hn : n < w) (hi : i < w) :
    (rotr x n).getLsbD i = x.getLsbD ((i + n) % w) := by
  rw [rotr_eq_rotateRight x hn, BitVec.getLsbD_rotateRight, Nat.mod_eq_of_lt hn]
  by_cases h : i < w - n
  · rw [Nat.mod_eq_of_lt (by omega : i + n < w), Nat.add_comm i n]
    simp [h]
  · have hwrap : (i + n) % w = i - (w - n) := by
      rw [Nat.mod_eq_sub_mod (by omega), Nat.mod_eq_of_lt (by omega)]
      omega
    rw [hwrap]
    simp [h, hi]

/-- The bits a left shift by `w - n` keeps in the word are the low `n` of the operand. -/
theorem toNat_shiftLeft_sub {w n : Nat} (x : BitVec w) (h : n ≤ w) :
    (x <<< (w - n)).toNat = (x.toNat % 2 ^ n) <<< (w - n) := by
  have hw : 2 ^ w = 2 ^ n * 2 ^ (w - n) := by rw [← Nat.pow_add, Nat.add_sub_cancel' h]
  rw [BitVec.toNat_shiftLeft, Nat.shiftLeft_eq, Nat.shiftLeft_eq, hw, Nat.mul_mod_mul_right]

theorem toNat_shr {w : Nat} (x : BitVec w) (n : Nat) : (shr x n).toNat = x.toNat / 2 ^ n := by
  rw [shr, BitVec.toNat_ushiftRight, Nat.shiftRight_eq_div_pow]

/-- The two shifted parts have no bit in common, so that their disjunction is their sum. -/
theorem toNat_rotr {w n : Nat} (x : BitVec w) (h : n ≤ w) :
    (rotr x n).toNat = x.toNat / 2 ^ n + x.toNat % 2 ^ n * 2 ^ (w - n) := by
  have hlow : x.toNat / 2 ^ n < 2 ^ (w - n) := by
    apply Nat.div_lt_of_lt_mul
    rw [← Nat.pow_add, Nat.add_sub_cancel' h]
    exact x.isLt
  calc (rotr x n).toNat = (shr x n).toNat ||| (x <<< (w - n)).toNat := BitVec.toNat_or ..
    _ = (x.toNat % 2 ^ n) <<< (w - n) ||| x.toNat / 2 ^ n := by rw [toNat_shr, toNat_shiftLeft_sub x h, Nat.or_comm]
    _ = x.toNat / 2 ^ n + x.toNat % 2 ^ n * 2 ^ (w - n) := by
      rw [← Nat.shiftLeft_add_eq_or_of_lt hlow, Nat.shiftLeft_eq, Nat.add_comm]

/-! R15: the encoding and its inverse, one last (least significant) byte at a time. -/

/-- The model truncates to a byte where R15 writes `mod 256`. -/
theorem getElem?_beBytes {k i : Nat} (v : Nat) (h : i < k) :
    (beBytes k v)[i]? = some (BitVec.ofNat 8 (v / 2 ^ (8 * (k - 1 - i)) % 256)) := by
  have hmod (n : Nat) : BitVec.ofNat 8 (n % 256) = BitVec.ofNat 8 n := BitVec.eq_of_toNat_eq (Nat.mod_mod n 256)
  rw [beBytes, List.getElem?_map, List.getElem?_range h, hmod]
  rfl

theorem beBytes_succ (k v : Nat) : beBytes (k + 1) v = beBytes k (v / 256) ++ [BitVec.ofNat 8 v] := by
  have hbyte : ∀ i ∈ List.range k, beByte (k + 1) v i = beByte k (v / 256) i := by
    intro i hi
    have hexp : 8 * (k + 1 - 1 - i) = 8 + 8 * (k - 1 - i) := by
      have := List.mem_range.mp hi
      omega
    rw [beByte, beByte, hexp, Nat.pow_add, Nat.div_div_eq_div_mul]
  have hlast : beByte (k + 1) v k = BitVec.ofNat 8 v := by simp [beByte]
  rw [beBytes, beBytes, List.range_succ, List.map_append, List.map_congr_left hbyte, List.map_singleton, hlast]

@[simp] theorem beNat_append_singleton (s : List Byte) (b : Byte) : beNat (s ++ [b]) = beNat s * 256 + b.toNat := by
  simp [beNat]

/-- Reading an encoding back, with no bound on the value: the `k` bytes hold `v` modulo `2^(8k)`. -/
theorem beNat_beBytes (k v : Nat) : beNat (beBytes k v) = v % 2 ^ (8 * k) := by
  induction k generalizing v with
  | zero => simp [beBytes, beNat, Nat.mod_one]
  | succ k ih =>
    have hpow : 2 ^ (8 * (k + 1)) = 256 * 2 ^ (8 * k) := by rw [Nat.mul_add, Nat.pow_add, Nat.mul_comm]
    rw [beBytes_succ, beNat_append_singleton, ih, BitVec.toNat_ofNat, hpow, Nat.mod_mul]
    omega

theorem beBytes_beNat (s : List Byte) : beBytes s.length (beNat s) = s := by
  induction s using List.reverseRecOn with
  | nil => rfl
  | append_singleton s b ih =>
    have hb : b.toNat < 256 := b.isLt
    have hinit : (beNat s * 256 + b.toNat) / 256 = beNat s := by omega
    have hlast : BitVec.ofNat 8 (beNat s * 256 + b.toNat) = b := by
      apply BitVec.eq_of_toNat_eq
      rw [BitVec.toNat_ofNat]
      omega
    rw [List.length_append, List.length_singleton, beBytes_succ, beNat_append_singleton, hinit, hlast, ih]

/-- Settles O49: the bits of the rotate by the library's rotate, its number as the sum of two disjoint parts. -/
theorem rotateAndShift : Obligations.RotateAndShift :=
  ⟨fun _ _ _ x _ hn hi => getLsbD_rotr x hn hi, fun _ _ x _ hn => toNat_rotr x hn.le, fun _ n x => toNat_shr x n⟩

/-- Settles O58: both round trips by induction on the last byte. -/
theorem bigEndianRoundTrip : Obligations.BigEndianRoundTrip :=
  ⟨fun _ v _ h => getElem?_beBytes v h, length_beBytes,
    fun k v h => by rw [beNat_beBytes, Nat.mod_eq_of_lt h], beBytes_beNat⟩

end Sys2Proof.Machine

/-! PROOFS. What a transaction can change (R21), and the invariant, which holds at reset (R50) and which every step keeps
(R27 to R29). -/

namespace Sys2Proof.Machine

/-! R21: the effect of each transaction. -/

/-- R21: the column "effect" of the table of transactions, as a relation of the states before and after. -/
def hostEffect (s t : State) : Transaction → Prop
  | .wrMsg i b => t = memWrite .msg i b s
  | .wrKey i b => t = memWrite .key i b s
  | .wrMsgLen v => t = { s with msgLen := BitVec.ofNat 64 v }
  | .wrKeyLen v => t = { s with keyLen := BitVec.ofNat 64 v }
  | .cmd _ => (∃ e, t = raise e s) ∨ ∃ dg, t = succeed dg s
  | .reset => t = { State.powerOn s.params with pending := s.pending, draws := s.draws }
  | .rdMsg _ | .rdKey _ | .rdDigest _ | .rdMsgLen | .rdKeyLen | .rdStatus | .rdCaps | .rdDigestLen =>
    ∃ r, t = { s with reply := r }

theorem writeMsgLen_next {v : Nat} {s t : State} (h : writeMsgLen v s = .next t) :
    t = { s with msgLen := BitVec.ofNat 64 v } := by
  unfold writeMsgLen at h
  split at h <;> cases h
  rfl

theorem writeKeyLen_next {v : Nat} {s t : State} (h : writeKeyLen v s = .next t) :
    t = { s with keyLen := BitVec.ofNat 64 v } := by
  unfold writeKeyLen at h
  split at h <;> cases h
  rfl

/-- R21: a transaction that has a next state has the effect of its row. -/
theorem hostEffect_of_transact {x : Transaction} {s t : State} (h : transact x s = .next t) : hostEffect s t x := by
  have hread {sp : Space} {a : Nat} (h : readTransaction sp a s = .next t) : ∃ r, t = { s with reply := r } :=
    let ⟨_, _, ht⟩ := readTransaction_next h
    ⟨_, ht⟩
  cases x with
  | wrMsg i b => exact (writeTransaction_next h).2
  | wrKey i b => exact (writeTransaction_next h).2
  | wrMsgLen v => exact writeMsgLen_next h
  | wrKeyLen v => exact writeKeyLen_next h
  | cmd c =>
    rcases commandTransaction_next h with he | ⟨_, dg, _, _, ht⟩
    · exact .inl he
    · exact .inr ⟨dg, ht⟩
  | reset => cases h; rfl
  | rdMsg i => exact hread h
  | rdKey i => exact hread h
  | rdDigest j => exact hread h
  | rdMsgLen => cases h; exact ⟨_, rfl⟩
  | rdKeyLen => cases h; exact ⟨_, rfl⟩
  | rdStatus => cases h; exact ⟨_, rfl⟩
  | rdCaps => cases h; exact ⟨_, rfl⟩
  | rdDigestLen => cases h; exact ⟨_, rfl⟩

/-- R24, R25, R49: what each transaction leaves as it was, by its row. -/
theorem hostEffect_frame {x : Transaction} {s t : State} (h : hostEffect s t x) :
    (t.params = s.params ∧ t.pending = s.pending) ∧
    ((∀ c, x ≠ .cmd c) → x ≠ .reset →
      t.status = s.status ∧ t.digestLen = s.digestLen ∧ t.digest = s.digest ∧ t.internal = s.internal ∧ t.seq = s.seq) ∧
    ((∀ i b, x ≠ .wrMsg i b) → x ≠ .reset → t.msg = s.msg) ∧
    ((∀ i b, x ≠ .wrKey i b) → x ≠ .reset → t.key = s.key) ∧
    ((∀ v, x ≠ .wrMsgLen v) → x ≠ .reset → t.msgLen = s.msgLen) ∧
    ((∀ v, x ≠ .wrKeyLen v) → x ≠ .reset → t.keyLen = s.keyLen) := by
  cases x with
  | wrMsg i b | wrKey i b | wrMsgLen v | wrKeyLen v => cases h; simp
  | reset => cases h; simp
  | cmd c => rcases h with ⟨e, rfl⟩ | ⟨dg, rfl⟩ <;> simp
  | rdMsg | rdKey | rdDigest | rdMsgLen | rdKeyLen | rdStatus | rdCaps | rdDigestLen => obtain ⟨r, rfl⟩ := h; simp

theorem transact_params {x : Transaction} {s t : State} (h : transact x s = .next t) : t.params = s.params :=
  (hostEffect_frame (hostEffect_of_transact h)).1.1

/-- Settles O6: every clause is read off the effect of the transaction's row. -/
theorem transactionsLeaveTheResultAlone : Obligations.TransactionsLeaveTheResultAlone := by
  refine ⟨fun x s t hc hr h => ?_, fun x s t h => ?_, fun x s t hx hr h a => ?_, fun x s t hx hr h a => ?_,
    fun x s t hx hr h => ?_, fun x s t hx hr h => ?_⟩ <;>
    obtain ⟨hparams, hresult, hmsg, hkey, hmsgLen, hkeyLen⟩ := hostEffect_frame (hostEffect_of_transact h)
  · obtain ⟨hst, hdl, hdg, hin, hsq⟩ := hresult hc hr
    exact ⟨hst, hdl, fun j => by rw [hdg], hin, hsq⟩
  · exact hparams
  · rw [hmsg hx hr]
  · rw [hkey hx hr]
  · exact hmsgLen hx hr
  · exact hkeyLen hx hr

/-! The invariant: at reset, and after each of the effects that a step can have. -/

/-- The invariant does not speak of the lengths, the internal registers or the model's own fields. -/
theorem Inv.frame {s : State} (h : Inv s) (ml kl : BitVec 64) (i : Internal) (p : List Transaction) (r : Reply) (d : Nat) :
    Inv { s with msgLen := ml, keyLen := kl, internal := i, pending := p, reply := r, draws := d } :=
  { h with }

/-- R9, R10, R50: the invariant at power-on. -/
theorem inv_powerOn {p : Params} (hp : p.wf = true) : Inv (State.powerOn p) where
  params_wf := hp
  msg_wf := wf_nil
  key_wf := wf_nil
  digest_wf := wf_nil
  msg_below := nofun
  key_below := nofun
  digest_exact := fun _ => ⟨nofun, nofun⟩
  result_legal := .inl ⟨rfl, rfl⟩
  idle := rfl

/-- R67: after a write below a bound, only indices below it hold bytes. -/
theorem read_write_below {m : Memory} {cap i : Nat} (v : Byte) (hi : i < cap)
    (hm : ∀ a, (Memory.read m a).isSome = true → a < cap) :
    ∀ a, (Memory.read (Memory.write m i v) a).isSome = true → a < cap := by
  intro a ha
  by_cases h : a = i
  · exact h ▸ hi
  · rw [read_write_other m v h] at ha
    exact hm a ha

/-- R61, R62: a write to `MSG` or `KEY` below its capacity keeps the invariant. -/
theorem Inv.memWrite {s : State} (h : Inv s) {sp : Space} {a : Nat} (b : Byte) (hsp : sp ≠ .digest) (ha : a < spaceCap sp s) :
    Inv (memWrite sp a b s) := by
  cases sp with
  | msg => exact { h with msg_wf := wf_write h.msg_wf a b, msg_below := read_write_below b ha h.msg_below }
  | key => exact { h with key_wf := wf_write h.key_wf a b, key_below := read_write_below b ha h.key_below }
  | digest => exact absurd rfl hsp

/-- R246: the error entry leaves no digest and a legal `STATUS`. -/
theorem Inv.raise {s : State} (h : Inv s) (e : Err) : Inv (raise e s) :=
  { h with
    digest_wf := wf_nil
    digest_exact := fun _ => ⟨nofun, nofun⟩
    result_legal := by
      cases e
      · exact .inr (.inl ⟨rfl, rfl⟩)
      · exact .inr (.inr (.inl ⟨rfl, rfl⟩))
    idle := rfl }

/-- R28: the lengths that `DIGEST_LEN` holds after a success. -/
theorem digestBytes_legal (v : Variant) : BitVec.ofNat 7 (digestBytes v) = 28#7 ∨ BitVec.ofNat 7 (digestBytes v) = 32#7 ∨
    BitVec.ofNat 7 (digestBytes v) = 48#7 ∨ BitVec.ofNat 7 (digestBytes v) = 64#7 := by
  rcases digestBytes_cases v with h | h | h | h <;> simp [h]

/-- R29, R190: a success replaces the digest whole, so that it is readable exactly below its length. -/
theorem Inv.succeed {s : State} (h : Inv s) {v : Variant} {dg : List Byte} (hl : dg.length = digestBytes v) :
    Inv (succeed dg s) :=
  { h with
    digest_wf := wf_writeBytes wf_nil dg 0
    digest_exact := by
      obtain ⟨_, hlen, hread⟩ := delivers_succeed s (hl ▸ digestBytes_lt v)
      intro j
      rw [hlen, hread j]
      simp
    result_legal := .inr (.inr (.inr ⟨rfl, by rw [succeed_digestLen, hl]; exact digestBytes_legal v⟩))
    idle := rfl }

/-- Every transaction keeps the invariant. -/
theorem Inv.transact {x : Transaction} {s t : State} (h : Inv s) (hx : transact x s = .next t) : Inv t := by
  rcases transact_next hx with ⟨r, rfl⟩ | ⟨sp, a, b, hsp, ha, rfl⟩ | ⟨v, rfl⟩ | ⟨v, rfl⟩ | ⟨e, rfl⟩ | ⟨v, dg, hl, rfl⟩ | rfl
  · exact h.frame _ _ _ _ _ _
  · exact h.memWrite b hsp ha
  · exact h.frame _ _ _ _ _ _
  · exact h.frame _ _ _ _ _ _
  · exact h.raise e
  · exact h.succeed hl
  · exact (inv_powerOn h.params_wf).frame _ _ _ _ _ _

/-- Settles O42: a step is no change or one transaction, and each effect of a transaction keeps the invariant. -/
theorem everyStepKeepsInv : Obligations.EveryStepKeepsInv := by
  intro s t h hst
  rcases (step_next hst).2 with ⟨_, rfl⟩ | ⟨x, rest, _, hx⟩
  · exact h
  · exact (h.frame s.msgLen s.keyLen s.internal rest .nothing s.draws).transact hx

/-- Settles O41: the empty spaces and the zero registers of power-on, with legal parameters. -/
theorem invHoldsAtReset : Obligations.InvHoldsAtReset :=
  ⟨fun _ hp => inv_powerOn hp, inv_powerOn (by decide)⟩

end Sys2Proof.Machine

/-! PROOFS. The rows of the table of transactions (R21, R65, R66), reset (R50), `CAPS` (R30), and the registers and spaces after
a command (R26 to R32). -/

namespace Sys2Proof.Machine

/-! R21, R63, R65, R66: the reads of the three spaces. -/

/-- R21, R66: a read has a next state exactly when the byte is readable. -/
theorem readTransaction_isNext_iff (sp : Space) (a : Nat) (s : State) :
    (∃ t, readTransaction sp a s = .next t) ↔ ∃ b, memRead sp a s = .ok b := by
  constructor
  · rintro ⟨t, h⟩
    obtain ⟨b, hb, _⟩ := readTransaction_next h
    exact ⟨b, hb⟩
  · rintro ⟨b, hb⟩
    exact ⟨_, by rw [readTransaction, hb]; rfl⟩

/-- R21, R66: a read below the bound of a byte that holds a value returns it. -/
theorem readTransaction_of_read {sp : Space} {a : Nat} {s : State} {b : Byte} (ha : a < spaceCap sp s)
    (hb : Memory.read (spaceOf sp s) a = some b) : readTransaction sp a s = .next { s with reply := .byte b } := by
  rw [readTransaction, (memRead_ok_iff sp a s b).2 ⟨ha, hb⟩]
  rfl

theorem memRead_of_le {sp : Space} {a : Nat} {s : State} (ha : spaceCap sp s ≤ a) :
    memRead sp a s = .error .indexOutOfRange := by
  rw [memRead, if_neg (Nat.not_lt.2 ha)]

/-- R21: a read from the bound on is refused. -/
theorem readTransaction_of_le {sp : Space} {a : Nat} {s : State} (ha : spaceCap sp s ≤ a) :
    readTransaction sp a s = .refused .indexOutOfRange := by
  rw [readTransaction, memRead_of_le ha]

/-- Settles O8: by the invariant the bytes of `DIGEST` are those below `DIGEST_LEN`; a delivered digest has that length. -/
theorem digestReadableBelowDigestLen : Obligations.DigestReadableBelowDigestLen := by
  refine ⟨fun s j h => ?_, fun s dg j b ⟨_, hlen, hread⟩ hb => ?_, fun s dg j ⟨_, hlen, _⟩ hj => ?_⟩
  · have hread : (∃ b, memRead .digest j s = .ok b) ↔ j < s.digestLen.toNat := by
      simp only [memRead_ok_iff, exists_and_left, ← Option.isSome_iff_exists]
      exact ⟨And.left, fun hj => ⟨hj, (h.digest_exact j).2 hj⟩⟩
    exact (readTransaction_isNext_iff .digest j s).trans hread
  · have hj : j < s.digestLen.toNat := hlen ▸ (List.getElem?_eq_some_iff.1 hb).1
    exact readTransaction_of_read hj ((hread j).trans hb)
  · exact readTransaction_of_le (hlen.trans_le hj)

/-- R95: the word of a command decodes to it. -/
theorem decodeWord_encode (i : Instr) : decodeWord (encode i).toNat = .ok i := by cases i <;> rfl

/-- R100: `CMD` of a command's word is the command. -/
theorem commandTransaction_encode (i : Instr) (s : State) : commandTransaction (encode i).toNat s = exec i s := by
  rw [commandTransaction, decodeWord_encode]

/-- R21: a number of 16 or more is no command word. -/
theorem commandTransaction_of_le {c : Nat} (s : State) (hc : 16 ≤ c) :
    commandTransaction c s = .refused .commandOutOfRange := by
  rw [commandTransaction, decodeWord, if_neg (Nat.not_lt.2 hc)]

/-- R24, R25: the 64-bit values are the lengths that can be written. -/
theorem writeLengths (s : State) (v : BitVec 64) :
    writeMsgLen v.toNat s = .next { s with msgLen := v } ∧ writeKeyLen v.toNat s = .next { s with keyLen := v } := by
  simp [writeMsgLen, writeKeyLen, v.isLt]

theorem writeLengths_of_le (s : State) {v : Nat} (hv : 2 ^ 64 ≤ v) :
    writeMsgLen v s = .refused .lengthOutOfRange ∧ writeKeyLen v s = .refused .lengthOutOfRange := by
  rw [writeMsgLen, writeKeyLen, if_neg (Nat.not_lt.2 hv), if_neg (Nat.not_lt.2 hv)]
  exact ⟨rfl, rfl⟩

/-- Settles O5: row by row; the writes of bytes and the reads of registers are so by definition. -/
theorem transactionTable : Obligations.TransactionTable :=
  ⟨fun _ _ _ => rfl, fun _ _ _ => rfl, fun _ _ _ => readTransaction_of_read (sp := .msg),
    fun _ _ => readTransaction_of_le (sp := .msg), fun _ _ _ => readTransaction_of_read (sp := .key),
    fun _ _ => readTransaction_of_le (sp := .key), writeLengths, fun s _ => writeLengths_of_le s,
    fun _ => ⟨rfl, rfl, rfl, rfl, rfl⟩, fun _ _ _ => readTransaction_of_read (sp := .digest),
    fun _ _ => readTransaction_of_le (sp := .digest), fun s i => commandTransaction_encode i s,
    fun s _ => commandTransaction_of_le s⟩

/-- R65: no transaction reads a byte that holds no value. -/
theorem readTransaction_ne_next {sp : Space} {a : Nat} {s u : State} (h : Memory.read (spaceOf sp s) a = none) :
    readTransaction sp a s ≠ .next u := by
  intro hu
  obtain ⟨b, hb, _⟩ := readTransaction_next hu
  rw [((memRead_ok_iff sp a s b).1 hb).2] at h
  cases h

/-- Settles O9: `RESET` leaves the state of power-on, whose fields are the values of R50 and whose spaces are empty. -/
theorem resetValues : Obligations.ResetValues :=
  ⟨fun _ => ⟨_, rfl, rfl, rfl, fun _ => memRead_of_le (sp := .digest) (Nat.zero_le _), rfl, rfl, fun _ => rfl, fun _ => rfl,
      fun _ _ => readTransaction_ne_next (sp := .msg) rfl, fun _ _ => readTransaction_ne_next (sp := .key) rfl,
      rfl, rfl, rfl, rfl, rfl⟩,
    fun _ => ⟨rfl, rfl, fun _ => memRead_of_le (sp := .digest) (Nat.zero_le _), rfl, rfl, fun _ => rfl, fun _ => rfl, rfl, rfl⟩⟩

/-! R30: `CAPS`. -/

/-- R30: bit `v` of `CAPS`. -/
theorem getLsbD_capsOf (p : Params) (v : Variant) : (capsOf p).getLsbD (codeOf v).toNat = isEnabled p v := by
  unfold capsOf
  cases v <;> simp only [codeOf, BitVec.getLsbD_append] <;> simp

theorem isEnabled_iff (p : Params) (v : Variant) : isEnabled p v = true ↔ v ∈ p.enabled := by
  simp [isEnabled]

/-- R9: legal parameters enable some variant. -/
theorem Params.exists_enabled {p : Params} (h : p.wf = true) : ∃ v, v ∈ p.enabled := by
  simp only [Params.wf, Params.someEnabled, Bool.and_eq_true, Bool.not_eq_true', List.isEmpty_eq_false_iff] at h
  exact List.exists_mem_of_ne_nil _ h.1.1

/-- R9, R10: the parameters are fixed for the life of the engine. -/
theorem step_params {s t : State} (h : step s = .next t) : t.params = s.params := by
  rcases (step_next h).2 with ⟨_, rfl⟩ | ⟨x, rest, _, hx⟩
  · rfl
  · have hparams := transact_params hx
    exact hparams

/-- Settles O11: the bits are those of the enabled variants, one of them is set, and no step changes the parameters. -/
theorem capsIsConstant : Obligations.CapsIsConstant := by
  refine ⟨fun p v => ?_, fun p hp h0 => ?_, fun s t h => ?_⟩
  · rw [getLsbD_capsOf, isEnabled_iff]
  · obtain ⟨v, hv⟩ := Params.exists_enabled hp
    rw [← isEnabled_iff, ← getLsbD_capsOf, h0, BitVec.getLsbD_zero] at hv
    cases hv
  · have hparams := step_params h
    exact ⟨hparams, by rw [hparams]⟩

/-! R26, R27, R28, R32: what a command leaves. -/

/-- Settles O30: both ends of a command, the error entry and the success, keep the inputs. -/
theorem commandsKeepTheirInputs : Obligations.CommandsKeepTheirInputs := by
  refine ⟨fun i s t h => ?_, fun c s t h => ?_⟩
  · rcases exec_next h with ⟨e, rfl⟩ | ⟨dg, _, rfl⟩
    · exact commandFrame_raise e s
    · exact commandFrame_succeed dg s
  · rcases commandTransaction_next h with ⟨e, rfl⟩ | ⟨_, dg, _, _, rfl⟩
    · exact commandFrame_raise e s
    · exact commandFrame_succeed dg s

/-- R27: the two values of `STATUS` after an error. -/
theorem statusError_cases (e : Err) : statusError e = 0b001#3 ∨ statusError e = 0b010#3 := by
  cases e
  · exact .inl rfl
  · exact .inr rfl

theorem statusValid_statusError (e : Err) : statusValid (statusError e) = false := by cases e <;> rfl

/-- Settles O31: by the two ends of a command, with `VALID = 0` after the error entry and `VALID = 1` after a success. -/
theorem resultRegistersAfterACommand : Obligations.ResultRegistersAfterACommand := by
  intro i s t h
  rcases exec_next h with ⟨e, rfl⟩ | ⟨dg, hl, rfl⟩
  · refine ⟨.inr (statusError_cases e), fun hv => ?_, fun _ => rfl, .inl rfl⟩
    rw [raise_status, statusValid_statusError] at hv
    cases hv
  · obtain ⟨hst, hlen, _⟩ := delivers_succeed s (hl ▸ digestBytes_lt (variantOf i))
    obtain ⟨hvalid, herr, _⟩ := status_fields
    refine ⟨.inl hst, fun _ => ⟨hst ▸ herr, hlen.trans hl⟩, fun hv => ?_, .inr ?_⟩
    · rw [hst, hvalid] at hv
      cases hv
    · rw [succeed_digestLen, hl]
      exact digestBytes_legal (variantOf i)

end Sys2Proof.Machine

/-! PROOFS. The result of a command as a function of its inputs alone (R48): `commandResult` is what both operations compute,
`finish` what the engine makes of it, and `commandResult` is the same on states that agree on the inputs. -/

namespace Sys2Proof.Machine

/-- R190, R217: the digest of a command that passes its checks, when all bytes it reads hold values. -/
def commandDigest (op : Operation) (v : Variant) (s : State) : Except Refusal (List Byte) :=
  match op with
  | .hash => (messageOf s).map (digestOf v)
  | .hmac => (keyOf s).bind fun k => (messageOf s).map (hmacOf v k)

/-- R48: the digest or the error of a command, or the reason for which it has no step. -/
def commandResult (op : Operation) (v : Variant) (s : State) : Except Refusal (Except Err (List Byte)) :=
  if isEnabled s.params v = false then .ok (.error .unsupportedVariant)
  else if commandTooLong op v s then .ok (.error .messageTooLong)
  else if commandFits op s then (commandDigest op v s).map .ok
  else .error .capacityExceeded

/-- R190, R217, R246: the end of a command with that result. -/
def finish (s : State) : Except Refusal (Except Err (List Byte)) → Outcome
  | .error r => .refused r
  | .ok (.error e) => .next (raise e s)
  | .ok (.ok dg) => .next (succeed dg s)

/-- R182: the stream of a HASH is the message. -/
theorem commandTooLong_hash (v : Variant) (s : State) : commandTooLong .hash v s = tooLong (msgBytes s) := by
  simp [commandTooLong, commandPasses, passLen]

/-- R215: the streams of an HMAC that can be too long; the outer one never is. -/
theorem commandTooLong_hmac (v : Variant) (s : State) : commandTooLong .hmac v s = true ↔
    (blockBytes v < keyBytes s ∧ tooLong (keyBytes s) = true) ∨ tooLong (blockBytes v + msgBytes s) = true := by
  have houter : tooLong (blockBytes v + digestBytes v) = false := by cases v <;> rfl
  by_cases hl : blockBytes v < keyBytes s <;> simp [commandTooLong, commandPasses, passLen, longKey, hl, houter]

theorem commandFits_hash (s : State) : commandFits .hash s = true ↔ msgBytes s ≤ s.params.msgCap := by
  rw [commandFits, decide_eq_true_iff]

theorem commandFits_hmac (s : State) :
    commandFits .hmac s = true ↔ msgBytes s ≤ s.params.msgCap ∧ keyBytes s ≤ s.params.keyCap := by
  rw [commandFits, Bool.and_eq_true, decide_eq_true_iff, decide_eq_true_iff]

theorem hashReference_eq_finish (v : Variant) (s : State) : hashReference v s = finish s (commandResult .hash v s) := by
  rw [hashReference, commandResult, commandTooLong_hash]
  split
  · rfl
  split
  · rfl
  by_cases hc : s.params.msgCap < msgBytes s
  · rw [if_pos hc, if_neg (by rw [commandFits_hash]; omega)]
    rfl
  · rw [if_neg hc, if_pos (by rw [commandFits_hash]; omega), commandDigest]
    cases messageOf s <;> rfl

theorem hmacReference_eq_finish (v : Variant) (s : State) : hmacReference v s = finish s (commandResult .hmac v s) := by
  rw [hmacReference, commandResult]
  simp only [← commandTooLong_hmac]
  split
  · rfl
  split
  · rfl
  by_cases hc : s.params.msgCap < msgBytes s ∨ s.params.keyCap < keyBytes s
  · rw [if_pos hc, if_neg (by rw [commandFits_hmac]; omega)]
    rfl
  · rw [if_neg hc, if_pos (by rw [commandFits_hmac]; omega), commandDigest]
    cases keyOf s <;> cases messageOf s <;> rfl

/-- R91: a command ends with its result. -/
theorem exec_eq_finish (i : Instr) (s : State) :
    exec i s = finish s (commandResult (operationOf i) (variantOf i) s) := by
  rw [exec_eq, runCommand_eq]
  cases operationOf i
  · exact hashReference_eq_finish _ s
  · exact hmacReference_eq_finish _ s

theorem operationOf_instrOf (op : Operation) (v : Variant) : operationOf (instrOf op v) = op := by
  cases op <;> cases v <;> rfl

theorem variantOf_instrOf (op : Operation) (v : Variant) : variantOf (instrOf op v) = v := by
  cases op <;> cases v <;> rfl

/-- R190, R217: a command that passes its checks and reads only bytes that hold values succeeds. -/
theorem exec_of_commandDigest {op : Operation} {v : Variant} {s : State} {dg : List Byte} (he : isEnabled s.params v = true)
    (ht : commandTooLong op v s = false) (hf : commandFits op s = true) (hd : commandDigest op v s = .ok dg) :
    exec (instrOf op v) s = .next (succeed dg s) := by
  rw [exec_eq_finish, operationOf_instrOf, variantOf_instrOf, commandResult, he, ht, hf, hd]
  rfl

/-- R50, R273: the checks that a command makes straight after power-on all pass. -/
theorem powerOn_checks (op : Operation) (v : Variant) (p : Params) :
    commandTooLong op v (State.powerOn p) = false ∧ commandFits op (State.powerOn p) = true := by
  constructor
  · cases op <;> cases v <;> rfl
  · cases op
    · exact (commandFits_hash _).2 (Nat.zero_le _)
    · exact (commandFits_hmac _).2 ⟨Nat.zero_le _, Nat.zero_le _⟩

/-- Settles O10: straight after power-on the message and the key are empty, and every check passes. -/
theorem firstCommandAfterReset : Obligations.FirstCommandAfterReset := by
  have hend (op : Operation) (p : Params) (v : Variant) (dg : List Byte) (he : isEnabled p v = true)
      (hd : commandDigest op v (State.powerOn p) = .ok dg) (hl : dg.length = digestBytes v) :
      ∃ t, exec (instrOf op v) (State.powerOn p) = .next t ∧ delivers t dg ∧ commandFrame (State.powerOn p) t := by
    obtain ⟨ht, hf⟩ := powerOn_checks op v p
    exact ⟨_, exec_of_commandDigest he ht hf hd, delivers_succeed _ (hl ▸ digestBytes_lt v),
      commandFrame_succeed _ _⟩
  exact fun p v he => ⟨hend .hash p v _ he rfl (length_digestOf v _), hend .hmac p v _ he rfl (length_hmacOf v _ _)⟩

/-! R48: on what the result depends. -/

/-- R66: below the bound of a space in both states, what `MemRead` answers depends on the byte alone. -/
theorem memRead_congr_below {sp : Space} {a : Nat} {s t : State} (hs : a < spaceCap sp s) (ht : a < spaceCap sp t)
    (hb : Memory.read (spaceOf sp t) a = Memory.read (spaceOf sp s) a) : memRead sp a t = memRead sp a s := by
  rw [memRead, memRead, if_pos hs, if_pos ht, hb]

/-- A gathering depends on the bytes asked for alone. -/
theorem gather_congr {f g : Nat → Except Refusal Byte} {i k : Nat} (h : ∀ j, i ≤ j → j < i + k → f j = g j) :
    gather f i k = gather g i k := by
  induction k generalizing i with
  | zero => rfl
  | succ k ih => rw [gather, gather, h i le_rfl (by omega), ih fun j h1 h2 => h j (by omega) (by omega)]

theorem messageOf_congr {s t : State} (hl : msgBytes t = msgBytes s)
    (hb : ∀ j, j < msgBytes s → memRead .msg j t = memRead .msg j s) : messageOf t = messageOf s := by
  rw [messageOf, messageOf, hl]
  exact gather_congr fun j _ hj => hb j (by omega)

theorem keyOf_congr {s t : State} (hl : keyBytes t = keyBytes s)
    (hb : ∀ j, j < keyBytes s → memRead .key j t = memRead .key j s) : keyOf t = keyOf s := by
  rw [keyOf, keyOf, hl]
  exact gather_congr fun j _ hj => hb j (by omega)

/-- R48: the states agree on the inputs of a command, the capacities left out. -/
structure SameBytes (op : Operation) (s t : State) : Prop where
  enabled : t.params.enabled = s.params.enabled
  msgBytes : msgBytes t = msgBytes s
  msg : ∀ j, j < Machine.msgBytes s → Memory.read t.msg j = Memory.read s.msg j
  keyBytes : op = .hmac → keyBytes t = keyBytes s
  key : op = .hmac → ∀ j, j < Machine.keyBytes s → Memory.read t.key j = Memory.read s.key j

section
variable {op : Operation} {s t : State} (v : Variant)

theorem sameBytes_of_inputs (hp : t.params.enabled = s.params.enabled) (hl : t.msgLen = s.msgLen)
    (hm : ∀ j, j < msgBytes s → Memory.read t.msg j = Memory.read s.msg j)
    (hk : op = .hmac → t.keyLen = s.keyLen ∧ ∀ j, j < keyBytes s → Memory.read t.key j = Memory.read s.key j) :
    SameBytes op s t :=
  ⟨hp, congrArg BitVec.toNat hl, hm, fun ho => congrArg BitVec.toNat (hk ho).1, fun ho => (hk ho).2⟩

theorem SameBytes.isEnabled (h : SameBytes op s t) : isEnabled t.params v = isEnabled s.params v := by
  rw [Machine.isEnabled, Machine.isEnabled, h.enabled]

/-- R247: the length check reads `MSG_LEN`, and for HMAC `KEY_LEN`. -/
theorem SameBytes.commandTooLong (h : SameBytes op s t) : commandTooLong op v t = commandTooLong op v s := by
  cases op
  · rw [commandTooLong_hash, commandTooLong_hash, h.msgBytes]
  · rw [Bool.eq_iff_iff, commandTooLong_hmac, commandTooLong_hmac, h.msgBytes, h.keyBytes rfl]

theorem SameBytes.commandFits (h : SameBytes op s t) (hp : t.params = s.params) : commandFits op t = commandFits op s := by
  cases op
  · rw [Machine.commandFits, Machine.commandFits, h.msgBytes, hp]
  · rw [Machine.commandFits, Machine.commandFits, h.msgBytes, h.keyBytes rfl, hp]

/-- R48, R188: the digest depends on the bytes of the message, and for HMAC of the key, when they are readable alike. -/
theorem SameBytes.commandDigest (h : SameBytes op s t)
    (hm : ∀ j, j < Machine.msgBytes s → memRead .msg j t = memRead .msg j s)
    (hk : op = .hmac → ∀ j, j < Machine.keyBytes s → memRead .key j t = memRead .key j s) :
    commandDigest op v t = commandDigest op v s := by
  have hmsg := messageOf_congr h.msgBytes hm
  cases op
  · rw [Machine.commandDigest, Machine.commandDigest, hmsg]
  · rw [Machine.commandDigest, Machine.commandDigest, hmsg, keyOf_congr (h.keyBytes rfl) (hk rfl)]

/-- R61, R62, R64: where the message, and for HMAC the key, fit their spaces, their bytes are below the capacities. -/
theorem commandFits_le (h : commandFits op s = true) :
    msgBytes s ≤ s.params.msgCap ∧ (op = .hmac → keyBytes s ≤ s.params.keyCap) := by
  cases op
  · exact ⟨(commandFits_hash s).1 h, nofun⟩
  · obtain ⟨hm, hk⟩ := (commandFits_hmac s).1 h
    exact ⟨hm, fun _ => hk⟩

/-- R48: where both states have room for the inputs, the capacities have no part in the digest. -/
theorem SameBytes.commandDigest_of_fits (h : SameBytes op s t) (hs : Machine.commandFits op s = true)
    (ht : Machine.commandFits op t = true) : Machine.commandDigest op v t = Machine.commandDigest op v s := by
  obtain ⟨hms, hks⟩ := commandFits_le hs
  obtain ⟨hmt, hkt⟩ := commandFits_le ht
  rw [h.msgBytes] at hmt
  refine h.commandDigest v (fun j hj => ?_) (fun ho j hj => ?_)
  · exact memRead_congr_below (sp := .msg) (hj.trans_le hms) (hj.trans_le hmt) (h.msg j hj)
  · exact memRead_congr_below (sp := .key) (hj.trans_le (hks ho)) (hj.trans_le (h.keyBytes ho ▸ hkt ho)) (h.key ho j hj)

/-- R48: with the same capacities, the same result or the same refusal. -/
theorem SameBytes.commandResult (h : SameBytes op s t) (hp : t.params = s.params) :
    commandResult op v t = commandResult op v s := by
  have hdigest := h.commandDigest v (fun j hj => memRead_congr (sp := .msg) (congrArg Params.msgCap hp) (h.msg j hj))
    (fun ho j hj => memRead_congr (sp := .key) (congrArg Params.keyCap hp) (h.key ho j hj))
  rw [Machine.commandResult, Machine.commandResult, h.isEnabled, h.commandTooLong, h.commandFits hp, hdigest]

/-- R48: whatever the capacities are, two results that are no refusals are the same. -/
theorem SameBytes.commandResult_of_ok (h : SameBytes op s t) {x y : Except Err (List Byte)}
    (hx : Machine.commandResult op v s = .ok x) (hy : Machine.commandResult op v t = .ok y) : y = x := by
  rw [Machine.commandResult] at hx hy
  rw [h.isEnabled, h.commandTooLong] at hy
  by_cases he : Machine.isEnabled s.params v = false
  · rw [if_pos he] at hx hy
    exact Except.ok.inj (hy.symm.trans hx)
  by_cases hl : Machine.commandTooLong op v s = true
  · rw [if_neg he, if_pos hl] at hx hy
    exact Except.ok.inj (hy.symm.trans hx)
  rw [if_neg he, if_neg hl] at hx hy
  split at hx
  case isFalse => cases hx
  split at hy
  case isFalse => cases hy
  case isTrue hs ht =>
    rw [h.commandDigest_of_fits v hs ht, hx] at hy
    exact (Except.ok.inj hy).symm

end

/-- R190, R217, R246: what the host sees of the end of a command is its result alone. -/
theorem finish_next {s t : State} {x : Except Refusal (Except Err (List Byte))} (h : finish s x = .next t) (s' : State) :
    ∃ t', finish s' x = .next t' ∧ sameResult t t' := by
  match x with
  | .error r => cases h
  | .ok (.error e) => cases h; exact ⟨_, rfl, rfl, rfl, fun _ => rfl⟩
  | .ok (.ok dg) => cases h; exact ⟨_, rfl, rfl, rfl, fun _ => rfl⟩

theorem finish_refused {s : State} {x : Except Refusal (Except Err (List Byte))} {r : Refusal}
    (h : finish s x = .refused r) : x = .error r := by
  match x with
  | .error _ => cases h; rfl
  | .ok (.error _) => cases h
  | .ok (.ok _) => cases h

theorem finish_next_ok {s t : State} {x : Except Refusal (Except Err (List Byte))} (h : finish s x = .next t) :
    ∃ y, x = .ok y := by
  cases x with
  | error r => cases h
  | ok y => exact ⟨y, rfl⟩

/-- R48: the result is a function of the inputs, capacities included. -/
theorem commandResult_sameInputs {op : Operation} {s t : State} (h : sameInputs op s t) (v : Variant) :
    commandResult op v t = commandResult op v s := by
  obtain ⟨hp, hl, hm, hk⟩ := h
  exact (sameBytes_of_inputs (congrArg Params.enabled hp) hl hm hk).commandResult v hp

theorem exec_sameInputs {i : Instr} {s s' t : State} (h : sameInputs (operationOf i) s s') (ht : exec i s = .next t) :
    ∃ t', exec i s' = .next t' ∧ sameResult t t' := by
  rw [exec_eq_finish] at ht ⊢
  rw [commandResult_sameInputs h]
  exact finish_next ht s'

/-- R32: a command leaves its own inputs as they were. -/
theorem sameInputs_of_frame {op : Operation} {s t : State} (h : commandFrame s t) : sameInputs op s t := by
  obtain ⟨hrm, hrk, _, _, hml, hkl, hp, _⟩ := h
  exact ⟨hp, hml, fun j _ => hrm j, fun _ => ⟨hkl, fun j _ => hrk j⟩⟩

/-- Settles O32: `commandResult` reads nothing but the inputs, and what the host sees is that result. -/
theorem noHiddenState : Obligations.NoHiddenState := by
  refine ⟨fun i s s' h => ⟨fun t ht => exec_sameInputs h ht, fun r hr => ?_⟩,
    fun i s s' t t' hp hl hm hk ht ht' => ?_, fun i s t ht => ?_⟩
  · rw [exec_eq_finish] at hr ⊢
    rw [commandResult_sameInputs h, finish_refused hr]
    rfl
  · rw [exec_eq_finish] at ht ht'
    obtain ⟨x, hx⟩ := finish_next_ok ht
    obtain ⟨y, hy⟩ := finish_next_ok ht'
    cases (sameBytes_of_inputs hp hl hm hk).commandResult_of_ok (variantOf i) hx hy
    rw [hx] at ht
    obtain ⟨u, hu, hsame⟩ := finish_next ht s'
    rw [hy, hu] at ht'
    cases ht'
    exact hsame
  · exact exec_sameInputs (sameInputs_of_frame (commandsKeepTheirInputs.1 i s t ht)) ht

end Sys2Proof.Machine

/-! PROOFS. The bounds of the sequencer (R45, R189): they speak of the sequencer and of the pass in progress alone, the order of
the phases keeps them, and every micro-operation is a change that keeps the pass, then a move of the sequencer. -/

namespace Sys2Proof.Machine

/-- The bounds read the sequencer, the variant and the number of blocks of the pass. -/
theorem sequencerInBounds_congr {s t : State} (hq : t.seq = s.seq) (hv : t.internal.var = s.internal.var)
    (hb : passBlocks t.internal.var t = passBlocks s.internal.var s) (h : sequencerInBounds s) : sequencerInBounds t := by
  rw [sequencerInBounds, hq, hb, hv]
  exact h

theorem passBlocks_advance (v : Variant) (s : State) : passBlocks v (advance s) = passBlocks v s := by
  simp only [passBlocks, advance_internal]
  cases s.internal.pass <;> rfl

theorem sixteen_lt_rounds (v : Variant) : 16 < rounds v := by
  rcases blockBytes_cases v with h | h <;> omega

theorem passBlocks_pos (v : Variant) (s : State) : 0 < passBlocks v s := blockCount_pos _ _

/-- R189: the order of the phases stays within the bounds. -/
theorem sequencerInBounds_advance {s : State} (h : sequencerInBounds s) : sequencerInBounds (advance s) := by
  have hr := sixteen_lt_rounds s.internal.var
  have hb := passBlocks_pos s.internal.var s
  rcases hq : s.seq with ⟨ph, blk, t⟩
  simp only [sequencerInBounds, hq] at h
  simp only [sequencerInBounds, advance_seq, advance_internal, passBlocks_advance, hq]
  cases ph with
  | idle => rfl
  | check => exact ⟨rfl, rfl⟩
  | init => exact ⟨hb, rfl⟩
  | fill => exact ⟨h.1, rfl⟩
  | pack => exact ⟨h.1, le_rfl, hr⟩
  | sched =>
    obtain ⟨hblk, ht, _⟩ := h
    by_cases hmore : t + 1 < rounds s.internal.var
    · simp only [nextSeq, if_pos hmore]
      exact ⟨hblk, ht.trans (Nat.le_succ t), hmore⟩
    · simp only [nextSeq, if_neg hmore]
      exact ⟨hblk, trivial⟩
  | load => exact ⟨h.1, Nat.zero_lt_of_lt hr⟩
  | round =>
    by_cases hmore : t + 1 < rounds s.internal.var
    · simp only [nextSeq, if_pos hmore]
      exact ⟨h.1, hmore⟩
    · simp only [nextSeq, if_neg hmore]
      exact ⟨h.1, trivial⟩
  | fold =>
    by_cases hmore : blk + 1 < passBlocks s.internal.var s
    · simp only [nextSeq, if_pos hmore]
      exact ⟨hmore, trivial⟩
    · simp only [nextSeq, if_neg hmore]
      exact ⟨Nat.le_antisymm h.1 (Nat.not_lt.1 hmore), trivial⟩
  | trunc => rfl

/-- An idle engine is within the bounds. -/
theorem sequencerInBounds_of_idle {s : State} (h : s.seq = Sequencer.idle) : sequencerInBounds s := by
  rw [sequencerInBounds, h]
  rfl

/-- A digest computation begins within the bounds. -/
theorem sequencerInBounds_of_check {s : State} (h : s.seq = ⟨.check, 0, 0⟩) : sequencerInBounds s := by
  rw [sequencerInBounds, h]
  exact ⟨rfl, rfl⟩

/-- R189: a change of the word registers and the buffers, which keeps the pass in progress, then a move of the sequencer. -/
theorem sequencerInBounds_advance_internal {s : State} (i : Internal) (hv : i.var = s.internal.var)
    (hp : i.pass = s.internal.pass) (h : sequencerInBounds s) : sequencerInBounds (advance { s with internal := i }) := by
  have hb : passBlocks i.var { s with internal := i } = passBlocks s.internal.var s := by
    rw [passBlocks, passBlocks, hv, hp]
    cases s.internal.pass <;> rfl
  exact sequencerInBounds_advance (sequencerInBounds_congr (s := s) rfl hv hb h)

theorem onBank_eq_internal (f : {w : Nat} → CoreConsts w → Bank w → Bank w) (s : State) :
    onBank f s = { s with internal := (onBank f s).internal } := by
  unfold onBank
  split <;> rfl

theorem sequencerInBounds_advance_onBank {s : State} (f : {w : Nat} → CoreConsts w → Bank w → Bank w)
    (h : sequencerInBounds s) : sequencerInBounds (advance (onBank f s)) := by
  rw [onBank_eq_internal]
  exact sequencerInBounds_advance_internal _ (onBank_internal_var s f) (onBank_internal_pass s f) h

theorem sequencerInBounds_microInit {s : State} (h : sequencerInBounds s) : sequencerInBounds (microInit s) := by
  unfold microInit
  split <;> exact sequencerInBounds_advance_internal _ rfl rfl h

/-- R182: CHECK ends the command or moves on. -/
theorem sequencerInBounds_microCheck {s t : State} (h : sequencerInBounds s) (ht : microCheck s = .next t) :
    sequencerInBounds t := by
  unfold microCheck at ht
  split at ht
  · cases ht; exact sequencerInBounds_of_idle rfl
  split at ht
  case isFalse => cases ht
  split at ht
  case isFalse => cases ht; exact sequencerInBounds_advance h
  split at ht
  · cases ht
  · rename_i s' hkey
    cases ht
    unfold deriveShortKey at hkey
    split at hkey
    · cases hkey
    · cases hkey; exact sequencerInBounds_advance_internal _ rfl rfl h

/-- R184: FILL moves on when the bytes of the block are readable. -/
theorem sequencerInBounds_microFill {s t : State} (h : sequencerInBounds s) (ht : microFill s = .next t) :
    sequencerInBounds t := by
  unfold microFill at ht
  split at ht
  · cases ht
  · cases ht; exact sequencerInBounds_advance_internal _ rfl rfl h

/-- R189, R214: TRUNC ends the command or begins the next digest computation. -/
theorem sequencerInBounds_microTrunc (s : State) : sequencerInBounds (microTrunc s) := by
  unfold microTrunc
  cases s.internal.pass
  · exact sequencerInBounds_of_idle rfl
  · exact sequencerInBounds_of_check rfl
  · exact sequencerInBounds_of_check rfl
  · exact sequencerInBounds_of_idle rfl

/-- Settles O57: a command begins at CHECK, and each micro-operation keeps the bounds. -/
theorem sequencerStaysInBounds : Obligations.SequencerStaysInBounds := by
  refine ⟨fun _ _ _ => sequencerInBounds_of_check rfl, fun s t h ht => ?_⟩
  rw [engineStep] at ht
  cases hph : s.seq.phase <;> rw [hph] at ht
  case check => exact sequencerInBounds_microCheck h ht
  case fill => exact sequencerInBounds_microFill h ht
  case idle => cases ht; exact h
  case init => cases ht; exact sequencerInBounds_microInit h
  case trunc => cases ht; exact sequencerInBounds_microTrunc s
  case pack | sched | load | round | fold => cases ht; exact sequencerInBounds_advance_onBank _ h

end Sys2Proof.Machine

/-! PROOFS. The memory rules (20_memory.md): outside the rules a command has no step (R64, R65), a byte reads back as last
written (R66, R67), and a step takes the host's next transaction (R75). -/

namespace Sys2Proof.Machine

/-! R64, R65: a command past its checks that has no step. -/

/-- R64: a command past its checks whose inputs do not fit their spaces. -/
theorem exec_of_not_commandFits {op : Operation} {v : Variant} {s : State} (he : isEnabled s.params v = true)
    (ht : commandTooLong op v s = false) (hf : ¬ commandFits op s = true) :
    exec (instrOf op v) s = .refused .capacityExceeded := by
  rw [exec_eq_finish, operationOf_instrOf, variantOf_instrOf, commandResult, he, ht, if_neg (by decide), if_neg (by decide),
    if_neg hf]
  rfl

/-- R65: a command past its checks that cannot read all of its inputs. -/
theorem exec_of_commandDigest_error {op : Operation} {v : Variant} {s : State} {r : Refusal} (he : isEnabled s.params v = true)
    (ht : commandTooLong op v s = false) (hf : commandFits op s = true) (hd : commandDigest op v s = .error r) :
    exec (instrOf op v) s = .refused r := by
  rw [exec_eq_finish, operationOf_instrOf, variantOf_instrOf, commandResult, he, ht, hf, hd]
  rfl

/-- R182: a message below the limit passes the check of a HASH. -/
theorem commandTooLong_hash_of_lt (v : Variant) {s : State} (hm : msgBytes s < 2 ^ 58) :
    commandTooLong .hash v s = false := by
  rw [commandTooLong_hash, tooLong_false_iff]
  exact hm

/-- R215: a key and an inner stream below the limit pass the check of an HMAC. -/
theorem commandTooLong_hmac_of_lt {v : Variant} {s : State} (hk : keyBytes s < 2 ^ 58) (hm : blockBytes v + msgBytes s < 2 ^ 58) :
    commandTooLong .hmac v s = false := by
  rw [← Bool.not_eq_true, commandTooLong_hmac, tooLong_iff, tooLong_iff]
  omega

/-- R65: below the bound, `MemRead` of a byte that holds no value. -/
theorem memRead_of_unwritten {sp : Space} {a : Nat} {s : State} (ha : a < spaceCap sp s)
    (hb : Memory.read (spaceOf sp s) a = none) : memRead sp a s = .error .unwrittenByte := by
  rw [memRead, if_pos ha, hb]

/-- R65: bytes of a space cannot all be read when one of them holds no value. -/
theorem gather_memRead_of_unwritten {sp : Space} {s : State} {n j : Nat} (hn : n ≤ spaceCap sp s) (hj : j < n)
    (hb : Memory.read (spaceOf sp s) j = none) : gather (fun a => memRead sp a s) 0 n = .error .unwrittenByte :=
  gather_error (Nat.zero_le j) (by omega) (memRead_of_unwritten (by omega) hb)
    fun _ _ _ ha hr => memRead_error (by omega) hr

/-- R64, R65: `HASH(v)` outside the rules: what it reads is the message alone. -/
theorem hash_outsideRules (v : Variant) : hashOutsideRules v := by
  refine ⟨fun s he hm hc => ?_, fun s j he hm hc hj hb => ?_⟩
  · exact exec_of_not_commandFits he (commandTooLong_hash_of_lt v hm) (by rw [commandFits_hash]; omega)
  · have hmsg : messageOf s = .error .unwrittenByte := gather_memRead_of_unwritten (sp := .msg) hc hj hb
    refine exec_of_commandDigest_error he (commandTooLong_hash_of_lt v hm) ((commandFits_hash s).2 hc) ?_
    rw [commandDigest, hmsg]
    rfl

/-- R64, R65: `HMAC(v)` outside the rules: the key is read before the message, so when a byte of the message holds no value the
key either was read or was refused for the same reason. -/
theorem hmac_outsideRules (v : Variant) : hmacOutsideRules v := by
  refine ⟨fun s he hk hm hc => ?_, fun s j he hk hm hcm hck hj => ?_⟩
  · exact exec_of_not_commandFits he (commandTooLong_hmac_of_lt hk hm) (by rw [commandFits_hmac]; omega)
  · refine exec_of_commandDigest_error he (commandTooLong_hmac_of_lt hk hm) ((commandFits_hmac s).2 ⟨hcm, hck⟩) ?_
    rw [commandDigest]
    rcases hj with ⟨hj, hb⟩ | ⟨hj, hb⟩
    · have hmsg : messageOf s = .error .unwrittenByte := gather_memRead_of_unwritten (sp := .msg) hcm hj hb
      cases hkey : keyOf s with
      | ok k => rw [hmsg]; rfl
      | error r => rw [(keyOf_error hck hkey).1]; rfl
    · have hkey : keyOf s = .error .unwrittenByte := gather_memRead_of_unwritten (sp := .key) hck hj hb
      rw [hkey]
      rfl

/-- R64: a length register holds less than `2^64`, so a space of that capacity is never exceeded. -/
theorem exec_ne_capacityExceeded {s : State} (i : Instr) (hm : s.params.msgCap = 2 ^ 64) (hk : s.params.keyCap = 2 ^ 64) :
    exec i s ≠ .refused .capacityExceeded := by
  intro h
  have hml : msgBytes s < 2 ^ 64 := s.msgLen.isLt
  have hkl : keyBytes s < 2 ^ 64 := s.keyLen.isLt
  rcases exec_refused h with ⟨_, hc⟩ | hr
  · omega
  · cases hr

/-- Settles O39: past the checks the command looks at the capacity, which at `2^64` no length register exceeds. -/
theorem capacityExceededRefused : Obligations.CapacityExceededRefused :=
  ⟨fun v => (hash_outsideRules v).1, fun v => (hmac_outsideRules v).1, fun i _ => exec_ne_capacityExceeded i⟩

/-- R65: a read below the bound of a byte that holds no value. -/
theorem readTransaction_of_unwritten {sp : Space} {a : Nat} {s : State} (ha : a < spaceCap sp s)
    (hb : Memory.read (spaceOf sp s) a = none) : readTransaction sp a s = .refused .unwrittenByte := by
  rw [readTransaction, memRead_of_unwritten ha hb]

/-- Settles O40: a command gathers every byte of its message and key, and a byte that holds no value ends the gathering. -/
theorem unwrittenByteRefused : Obligations.UnwrittenByteRefused :=
  ⟨fun v => (hash_outsideRules v).2, fun v => (hmac_outsideRules v).2,
    fun _ _ => readTransaction_of_unwritten (sp := .msg), fun _ _ => readTransaction_of_unwritten (sp := .key)⟩

/-! R75: the host's next transaction. -/

/-- R75: an idle engine takes the next transaction. -/
theorem step_of_pending {s : State} {x : Transaction} {rest : List Transaction} (hi : s.seq.phase = .idle)
    (hp : s.pending = x :: rest) : step s = transact x { s with pending := rest, reply := .nothing } := by
  rw [step, hostStep, if_pos hi, hp]

/-- R100: `CMD` of a word that decodes to a command is that command. -/
theorem transact_cmd_of_decodeWord {c : Nat} {i : Instr} (hd : decodeWord c = .ok i) (s : State) :
    transact (.cmd c) s = exec i s := by
  rw [transact, commandTransaction, hd]

/-- Settles O3: the step is the pending transaction, and `CMD` of a command's word is the command. -/
theorem stepRunsTheDecodedCommand : Obligations.StepRunsTheDecodedCommand := by
  refine ⟨fun s c rest i hi hp hd => ?_, fun s x rest => step_of_pending, fun s nbits i hi => ?_⟩
  · rw [step_of_pending hi hp, transact_cmd_of_decodeWord hd]
  · rw [step_of_pending (s := s.withFetchWord nbits (encode i).toNat) hi rfl, transact_cmd_of_decodeWord (decodeWord_encode i)]
    rfl

/-! R66, R67: a byte written to a space and read again. -/

/-- R67: a write moves the bound of no space. -/
theorem spaceCap_memWrite (sp sp' : Space) (a : Nat) (b : Byte) (s : State) :
    spaceCap sp' (memWrite sp a b s) = spaceCap sp' s := by
  cases sp <;> rfl

/-- R67: the bytes of the space written. -/
theorem spaceOf_memWrite (sp : Space) (a : Nat) (b : Byte) (s : State) :
    spaceOf sp (memWrite sp a b s) = Memory.write (spaceOf sp s) a b := by
  cases sp <;> rfl

/-- R67: the other spaces keep their bytes. -/
theorem spaceOf_memWrite_ne {sp sp' : Space} (h : sp' ≠ sp) (a : Nat) (b : Byte) (s : State) :
    spaceOf sp' (memWrite sp a b s) = spaceOf sp' s := by
  cases sp <;> cases sp'
  case msg.msg | key.key | digest.digest => exact absurd rfl h
  all_goals rfl

/-- R66, R67: the byte just written is the one that is read. -/
theorem readTransaction_memWrite {sp : Space} {a : Nat} {s : State} (b : Byte) (ha : a < spaceCap sp s) :
    readTransaction sp a (memWrite sp a b s) = .next { memWrite sp a b s with reply := .byte b } :=
  readTransaction_of_read (by rw [spaceCap_memWrite]; exact ha) (by rw [spaceOf_memWrite, read_write_same])

/-- R67: the other indices of the space read as before. -/
theorem memRead_memWrite_other {sp : Space} {a j : Nat} (hj : j ≠ a) (b : Byte) (s : State) :
    memRead sp j (memWrite sp a b s) = memRead sp j s :=
  memRead_congr (spaceCap_memWrite sp sp a b s) (by rw [spaceOf_memWrite, read_write_other _ b hj])

/-- R67: the other spaces read as before. -/
theorem memRead_memWrite_ne {sp sp' : Space} (h : sp' ≠ sp) (a j : Nat) (b : Byte) (s : State) :
    memRead sp' j (memWrite sp a b s) = memRead sp' j s :=
  memRead_congr (spaceCap_memWrite sp sp' a b s) (by rw [spaceOf_memWrite_ne h])

/-- R21: a write below the capacity completes. -/
theorem writeTransaction_of_lt {sp : Space} {a : Nat} {s : State} (b : Byte) (ha : a < spaceCap sp s) :
    writeTransaction sp a b s = .next (memWrite sp a b s) := if_pos ha

/-- Settles O7: the state after the write is the one with the byte written; what it reads as is said of any space. -/
theorem readReturnsTheByteLastWritten : Obligations.ReadReturnsTheByteLastWritten :=
  ⟨fun s i b hi => ⟨memWrite .msg i b s, writeTransaction_of_lt b hi, readTransaction_memWrite b hi,
      fun _ hj => memRead_memWrite_other hj b s, fun j => memRead_memWrite_ne (by decide) i j b s,
      fun j => memRead_memWrite_ne (by decide) i j b s, rfl⟩,
    fun s i b hi => ⟨memWrite .key i b s, writeTransaction_of_lt b hi, readTransaction_memWrite b hi,
      fun _ hj => memRead_memWrite_other hj b s, fun j => memRead_memWrite_ne (by decide) i j b s,
      fun j => memRead_memWrite_ne (by decide) i j b s, rfl⟩⟩

end Sys2Proof.Machine

/-! PROOFS. The command word (30_encoding.md): its two fields (R92) and the variant codes (R93), the decoder's answers on words
and on numbers as one case analysis each (R95, R100), and the end of every command (R91). -/

namespace Sys2Proof.Machine

/-! R92, R93: the fields of a word, and the codes of the variants. -/

/-- R92: `OP` is bit 3, above the code. -/
@[simp] theorem opField_append (op : Operation) (x : BitVec 3) : opField (opBit op ++ x) = op := by
  rw [opField, BitVec.getLsbD_append]
  cases op <;> rfl

/-- R92: `VAR` is the three bits below `OP`. -/
@[simp] theorem varField_append (op : Operation) (x : BitVec 3) : varField (opBit op ++ x) = x :=
  BitVec.extractLsb'_append_eq_right

/-- R92: a word is its two fields. -/
theorem opField_append_varField (c : BitVec 4) : opBit (opField c) ++ varField c = c := by
  revert c
  decide

/-- R92: `c = OP*8 + VAR`. -/
theorem toNat_opBit_append (op : Operation) (x : BitVec 3) :
    (opBit op ++ x).toNat = 8 * (opBit op).toNat + x.toNat := by
  rw [BitVec.toNat_append, ← Nat.shiftLeft_add_eq_or_of_lt x.isLt, Nat.shiftLeft_eq, Nat.mul_comm]

theorem toNat_eq_fields (c : BitVec 4) : c.toNat = 8 * (opBit (opField c)).toNat + (varField c).toNat := by
  rw [← toNat_opBit_append, opField_append_varField]

theorem opField_eq_hmac_iff (c : BitVec 4) : opField c = .hmac ↔ c.getLsbD 3 = true := by
  rw [opField]
  cases c.getLsbD 3 <;> decide

theorem toNat_varField (c : BitVec 4) : (varField c).toNat = c.toNat % 8 := by
  rw [varField, BitVec.extractLsb'_toNat, Nat.shiftRight_zero]

/-- R93: each variant has its own code. -/
theorem variantOfCode_eq_some_iff {x : BitVec 3} {v : Variant} : variantOfCode x = some v ↔ x = codeOf v := by
  revert x
  cases v <;> decide

/-- R93: 6 and 7 name no variant. -/
theorem variantOfCode_eq_none_iff {x : BitVec 3} : variantOfCode x = none ↔ 6 ≤ x.toNat := by
  revert x
  decide

/-! R95, R100: what the decoder answers. -/

theorem encode_instrOf (op : Operation) (v : Variant) : encode (instrOf op v) = opBit op ++ codeOf v := by
  rw [encode, operationOf_instrOf, variantOf_instrOf]

/-- R92, R94: the fields of the word of a command. -/
theorem fields_encode (i : Instr) :
    opField (encode i) = operationOf i ∧ varField (encode i) = codeOf (variantOf i) :=
  ⟨opField_append _ _, varField_append _ _⟩

/-- R96, R100: a word with the code 6 or 7 is rejected with its fields. -/
theorem decode_reserved (op : Operation) {x : BitVec 3} (hx : 6 ≤ x.toNat) :
    decode (opBit op ++ x) = .error (.reservedVariant op x) := by
  rw [decode, varField_append, variantOfCode_eq_none_iff.2 hx, opField_append]

/-- R95, R100: a word is that of a command, which it decodes to, or one of the reserved words. -/
theorem decode_cases (c : BitVec 4) :
    (∃ i, c = encode i ∧ decode c = .ok i) ∨
    ∃ op x, c = opBit op ++ x ∧ 6 ≤ x.toNat ∧ decode c = .error (.reservedVariant op x) := by
  cases h : variantOfCode (varField c) with
  | some v =>
    refine .inl ⟨instrOf (opField c) v, ?_, by rw [decode, h]⟩
    rw [encode_instrOf, ← variantOfCode_eq_some_iff.1 h, opField_append_varField]
  | none =>
    exact .inr ⟨opField c, varField c, (opField_append_varField c).symm, variantOfCode_eq_none_iff.1 h, by rw [decode, h]⟩

/-- R90: on a number of 4 bits the decoder is that of the word. -/
theorem decodeWord_toNat (c : BitVec 4) : decodeWord c.toNat = decode c := by
  rw [decodeWord, if_pos c.isLt, BitVec.ofNat_toNat, BitVec.setWidth_eq]

theorem decodeWord_of_le {c : Nat} (hc : 16 ≤ c) : decodeWord c = .error (.notACommandWord c) :=
  if_neg (Nat.not_lt.2 hc)

/-- R90, R95: a number is the word of a command, a reserved word, or no word, and the decoder says which. -/
theorem decodeWord_cases (c : Nat) :
    (∃ i, c = (encode i).toNat ∧ decodeWord c = .ok i) ∨
    (∃ op x, (c = 8 * (opBit op).toNat + x.toNat ∧ 6 ≤ x.toNat) ∧ decodeWord c = .error (.reservedVariant op x)) ∨
    (16 ≤ c ∧ decodeWord c = .error (.notACommandWord c)) := by
  by_cases hc : 16 ≤ c
  · exact .inr (.inr ⟨hc, decodeWord_of_le hc⟩)
  obtain ⟨w, rfl⟩ : ∃ w : BitVec 4, w.toNat = c := ⟨BitVec.ofNat 4 c, Nat.mod_eq_of_lt (Nat.not_le.1 hc)⟩
  rw [decodeWord_toNat]
  rcases decode_cases w with ⟨i, rfl, hi⟩ | ⟨op, x, rfl, hx, hr⟩
  · exact .inl ⟨i, rfl, hi⟩
  · exact .inr (.inl ⟨op, x, ⟨toNat_opBit_append op x, hx⟩, hr⟩)

theorem decodeWord_eq_ok_iff (c : Nat) (i : Instr) : decodeWord c = .ok i ↔ c = (encode i).toNat := by
  refine ⟨fun h => ?_, fun h => h ▸ decodeWord_encode i⟩
  rcases decodeWord_cases c with ⟨j, hc, hj⟩ | ⟨op, x, _, hr⟩ | ⟨_, hn⟩
  · cases hj.symm.trans h
    exact hc
  · cases hr.symm.trans h
  · cases hn.symm.trans h

theorem decodeWord_eq_notACommandWord_iff (c : Nat) : decodeWord c = .error (.notACommandWord c) ↔ 16 ≤ c := by
  refine ⟨fun h => ?_, decodeWord_of_le⟩
  rcases decodeWord_cases c with ⟨i, _, hi⟩ | ⟨op, x, _, hr⟩ | ⟨hc, _⟩
  · cases hi.symm.trans h
  · cases hr.symm.trans h
  · exact hc

theorem decodeWord_eq_reservedVariant_iff (c : Nat) (op : Operation) (x : BitVec 3) :
    decodeWord c = .error (.reservedVariant op x) ↔ c = 8 * (opBit op).toNat + x.toNat ∧ 6 ≤ x.toNat := by
  constructor
  · intro h
    rcases decodeWord_cases c with ⟨i, _, hi⟩ | ⟨op', x', hc, hr⟩ | ⟨_, hn⟩
    · cases hi.symm.trans h
    · cases hr.symm.trans h
      exact hc
    · cases hn.symm.trans h
  · rintro ⟨rfl, hx⟩
    rw [← toNat_opBit_append, decodeWord_toNat, decode_reserved op hx]

/-- Settles O2: a number is a command's word, a reserved word or no word, and each is decoded as what it is. -/
theorem decodeAndEncodeAgree : Obligations.DecodeAndEncodeAgree :=
  ⟨decodeWord_eq_ok_iff, decodeWord_eq_notACommandWord_iff, decodeWord_eq_reservedVariant_iff⟩

/-- R95: a word decodes to a command exactly when it is that command's word. -/
theorem decode_eq_ok_iff (c : BitVec 4) (i : Instr) : decode c = .ok i ↔ c = encode i := by
  rw [← decodeWord_toNat, decodeWord_eq_ok_iff, BitVec.toNat_inj]

/-- R95: the row of a command: its word, all of whose bits count. -/
def rowOf (i : Instr) : OpcodeRow := ⟨encode i, 0xF#4, i⟩

/-- R95: the opcode map is the rows of the twelve commands. -/
theorem mem_opcodeMap_iff (r : OpcodeRow) : r ∈ opcodeMap ↔ r = rowOf r.instr := by
  constructor
  · revert r
    decide
  · intro h
    rw [h]
    cases r.instr <;> decide

/-- R95: a word selects a row when it is the row's word. -/
theorem and_mask_eq_pattern_iff (c : BitVec 4) (i : Instr) : c &&& (rowOf i).mask = (rowOf i).pattern ↔ c = encode i := by
  have hmask : c &&& 0xF#4 = c := BitVec.and_allOnes
  rw [rowOf, hmask]

/-- R95, R100: decoding is selection of a row of the opcode map. -/
theorem decode_eq_ok_iff_selects (c : BitVec 4) (i : Instr) :
    decode c = .ok i ↔ ∃ r ∈ opcodeMap, r.instr = i ∧ c &&& r.mask = r.pattern := by
  rw [decode_eq_ok_iff, ← and_mask_eq_pattern_iff]
  constructor
  · exact fun h => ⟨rowOf i, (mem_opcodeMap_iff _).2 rfl, rfl, h⟩
  · rintro ⟨r, hr, rfl, hc⟩
    rwa [← (mem_opcodeMap_iff r).1 hr]

/-- Settles O1: the fields of a word, the codes, the opcode map as the rows of the commands, and the sixteen words. -/
theorem opcodeMapDecodes : Obligations.OpcodeMapDecodes :=
  ⟨toNat_eq_fields, opField_eq_hmac_iff, toNat_varField, fields_encode, rfl, rfl, rfl, rfl, rfl, rfl, rfl, rfl,
    decode_eq_ok_iff_selects, rfl, by decide, rfl, rfl, rfl, rfl, rfl, rfl, rfl, rfl, rfl, rfl, rfl, rfl, rfl, rfl, rfl, rfl⟩

/-! R91, R98: the end of every command. -/

/-- R259, R274: what HMAC asks of the host is all that any command asks. -/
theorem inputsReady_of_hmac {s : State} (h : inputsReady .hmac s) (op : Operation) : inputsReady op s :=
  ⟨h.1, fun _ => h.2 rfl⟩

/-- R64, R65: inputs that are ready fit their spaces, and all their bytes can be read. -/
theorem inputsReady_readable {op : Operation} {s : State} (h : inputsReady op s) (v : Variant) :
    commandFits op s = true ∧ ∃ dg, commandDigest op v s = .ok dg := by
  obtain ⟨⟨m, hm⟩, hkey⟩ := h
  obtain ⟨hmf, hmo⟩ := (holdsMessage_iff s m).1 hm
  cases op with
  | hash => exact ⟨(commandFits_hash s).2 hmf, digestOf v m, by rw [commandDigest, hmo]; rfl⟩
  | hmac =>
    obtain ⟨k, hk⟩ := hkey rfl
    obtain ⟨hkf, hko⟩ := (holdsKey_iff s k).1 hk
    exact ⟨(commandFits_hmac s).2 ⟨hmf, hkf⟩, hmacOf v k m, by rw [commandDigest, hko, hmo]; rfl⟩

/-- R182, R245: with inputs that are ready the result is one of the two errors or a digest. -/
theorem commandResult_of_inputsReady {op : Operation} {s : State} (h : inputsReady op s) (v : Variant) :
    ∃ x, commandResult op v s = .ok x := by
  obtain ⟨hf, dg, hd⟩ := inputsReady_readable h v
  rw [commandResult, if_pos hf, hd]
  split
  · exact ⟨_, rfl⟩
  split
  · exact ⟨_, rfl⟩
  · exact ⟨_, rfl⟩

theorem finish_ok (s : State) (x : Except Err (List Byte)) : ∃ t, finish s (.ok x) = .next t := by
  cases x <;> exact ⟨_, rfl⟩

/-- R91: a command whose inputs are ready has a next state. -/
theorem exec_of_inputsReady {i : Instr} {s : State} (h : inputsReady (operationOf i) s) : ∃ t, exec i s = .next t := by
  obtain ⟨x, hx⟩ := commandResult_of_inputsReady h (variantOf i)
  rw [exec_eq_finish, hx]
  exact finish_ok s x

/-- R91, R96: `CMD` of each of the sixteen words has a next state; a reserved word needs nothing of the host. -/
theorem transact_cmd_of_inputsReady {c : Nat} {s : State} (hc : c < 16) (h : inputsReady .hmac s) :
    ∃ t, transact (.cmd c) s = .next t := by
  rcases decodeWord_cases c with ⟨i, _, hi⟩ | ⟨op, x, _, hr⟩ | ⟨hle, _⟩
  · rw [transact_cmd_of_decodeWord hi]
    exact exec_of_inputsReady (inputsReady_of_hmac h _)
  · exact ⟨raise .unsupportedVariant s, by rw [transact, commandTransaction, hr]⟩
  · omega

/-- R240: a command is never a fault. -/
theorem exec_ne_fault (i : Instr) (s : State) (f : Fault) : exec i s ≠ .fault f := by
  intro h
  rcases exec_cases i s with ⟨_, he⟩ | ⟨_, _, he⟩ | ⟨_, he⟩ <;> cases he.symm.trans h

/-- Settles O33: with its inputs ready a command has a result, which it ends with; that leaves one of the three values in `STATUS`
(R27) and the engine idle (R32). -/
theorem everyCommandEnds : Obligations.EveryCommandEnds := by
  refine ⟨fun i s h => ?_, fun c s hc h => transact_cmd_of_inputsReady hc h, exec_ne_fault⟩
  obtain ⟨t, ht⟩ := exec_of_inputsReady h
  obtain ⟨hstatus, _⟩ := resultRegistersAfterACommand i s t ht
  obtain ⟨_, _, _, _, _, _, _, _, _, hidle⟩ := commandsKeepTheirInputs.1 i s t ht
  exact ⟨t, ht, hstatus, hidle⟩

end Sys2Proof.Machine

/-! PROOFS. The VariantDescriptor (40_variant_descriptor.md): the sizes of R113 that follow from the word size, the amounts of
the sigmas (R115 to R119), and choice and majority bit by bit (R120, R121). -/

namespace Sys2Proof.Machine

/-! R113: every size of a variant follows its word size. -/

theorem lenBytes_eq_wordBytes (v : Variant) : lenBytes v = 2 * wordBytes v := by cases v <;> rfl

theorem blockBytes_eq_wordBytes (v : Variant) : blockBytes v = 16 * wordBytes v := by cases v <;> rfl

/-- R111: the digest is at most the eight words of the final state. -/
theorem digestBytes_le_wordBytes (v : Variant) : digestBytes v ≤ 8 * wordBytes v := by cases v <;> decide

theorem length_k256 : k256.length = 64 := rfl

theorem length_k512 : k512.length = 80 := rfl

/-- Settles O48: the table row by row, the derived sizes from the word size, and the K table of each width. -/
theorem variantTable : Obligations.VariantTable := by
  refine ⟨rfl, fun v => ⟨rfl, lenBytes_eq_wordBytes v, blockBytes_eq_wordBytes v, digestBytes_le_wordBytes v⟩, ?_⟩
  exact ⟨rfl, length_k256, rfl, length_k512, rfl⟩

/-! R115 to R119: the sigmas, with the amounts of their word width. -/

theorem smallSigma_core32 (x : BitVec 32) :
    smallSigma core32.smallSigma0 x = rotr x 7 ^^^ rotr x 18 ^^^ shr x 3 ∧
    smallSigma core32.smallSigma1 x = rotr x 17 ^^^ rotr x 19 ^^^ shr x 10 := ⟨rfl, rfl⟩

theorem smallSigma_core64 (x : BitVec 64) :
    smallSigma core64.smallSigma0 x = rotr x 1 ^^^ rotr x 8 ^^^ shr x 7 ∧
    smallSigma core64.smallSigma1 x = rotr x 19 ^^^ rotr x 61 ^^^ shr x 6 := ⟨rfl, rfl⟩

theorem bigSigma_core32 (x : BitVec 32) :
    bigSigma core32.bigSigma0 x = rotr x 2 ^^^ rotr x 13 ^^^ rotr x 22 ∧
    bigSigma core32.bigSigma1 x = rotr x 6 ^^^ rotr x 11 ^^^ rotr x 25 := ⟨rfl, rfl⟩

theorem bigSigma_core64 (x : BitVec 64) :
    bigSigma core64.bigSigma0 x = rotr x 28 ^^^ rotr x 34 ^^^ rotr x 39 ∧
    bigSigma core64.bigSigma1 x = rotr x 14 ^^^ rotr x 18 ^^^ rotr x 41 := ⟨rfl, rfl⟩

/-- Settles O50: the formulas are the sigmas at the amounts of their width; the examples are words that the model evaluates. -/
theorem sigmaFunctions : Obligations.SigmaFunctions := by
  refine ⟨fun x => (smallSigma_core32 x).1, fun x => (smallSigma_core64 x).1, fun x => (smallSigma_core32 x).2,
    fun x => (smallSigma_core64 x).2, fun x => (bigSigma_core32 x).1, fun x => (bigSigma_core64 x).1,
    fun x => (bigSigma_core32 x).2, fun x => (bigSigma_core64 x).2, ?_⟩
  decide

/-! R120, R121: choice and majority, one bit at a time. -/

/-- R120: the bit of `e` says which of `f` and `g` gives the bit; outside the word all three bits are 0. -/
theorem getLsbD_choice {w : Nat} (i : Nat) (e f g : BitVec w) :
    (choice e f g).getLsbD i = if e.getLsbD i then f.getLsbD i else g.getLsbD i := by
  by_cases hi : i < w
  · rw [choice, BitVec.getLsbD_xor, BitVec.getLsbD_and, BitVec.getLsbD_and, BitVec.getLsbD_not]
    cases e.getLsbD i <;> simp [hi]
  · simp [BitVec.getLsbD_of_ge _ i (Nat.le_of_not_lt hi)]

/-- R121: the exclusive or of the three conjunctions is their disjunction: where two of them hold, all three do. -/
theorem xor_and_eq_atLeastTwo : ∀ a b c : Bool, ((a && b) ^^ (a && c) ^^ (b && c)) = Bool.atLeastTwo a b c := by decide

/-- R121: a bit of majority is the majority of the three bits. -/
theorem getLsbD_majority {w : Nat} (i : Nat) (a b c : BitVec w) :
    (majority a b c).getLsbD i = Bool.atLeastTwo (a.getLsbD i) (b.getLsbD i) (c.getLsbD i) := by
  rw [majority, BitVec.getLsbD_xor, BitVec.getLsbD_xor, BitVec.getLsbD_and, BitVec.getLsbD_and, BitVec.getLsbD_and,
    xor_and_eq_atLeastTwo]

/-- R121: two equal operands outvote the third. -/
theorem majority_self_left {w : Nat} (x y : BitVec w) : majority x x y = x := by
  refine BitVec.eq_of_getLsbD_eq fun i _ => ?_
  rw [getLsbD_majority, Bool.atLeastTwo]
  cases x.getLsbD i <;> rfl

theorem choice_allOnes {w : Nat} (x y : BitVec w) : choice (BitVec.allOnes w) x y = x :=
  BitVec.eq_of_getLsbD_eq fun i hi => by rw [getLsbD_choice, BitVec.getLsbD_allOnes, decide_eq_true hi, if_pos rfl]

theorem choice_zero {w : Nat} (x y : BitVec w) : choice 0#w x y = y :=
  BitVec.eq_of_getLsbD_eq fun i _ => by rw [getLsbD_choice, BitVec.getLsbD_zero, if_neg Bool.false_ne_true]

/-- Settles O51: the formulas are the definitions, the rest is said of each bit; the examples are evaluated. -/
theorem choiceAndMajority : Obligations.ChoiceAndMajority := by
  refine ⟨fun _ _ _ _ => rfl, fun _ _ _ _ => rfl, fun _ i => getLsbD_choice i, fun _ i a b c => ?_,
    fun _ x y => ⟨majority_self_left x y, choice_allOnes x y, choice_zero x y⟩, by decide, by decide⟩
  rw [getLsbD_majority]
  simp [Bool.atLeastTwo, or_assoc]

end Sys2Proof.Machine

/-! PROOFS. The Padder (41_padder.md): the zero fill as the one number below the block size that completes the last block (R143,
R144, R147), the bytes of the padded stream (R145, R146), its blocks (R148, R149), and the length limit (R142). -/

namespace Sys2Proof.Machine

theorem sizes_of_narrow {v : Variant} (h : wordClass v = .narrow) : blockBytes v = 64 ∧ lenBytes v = 8 := by
  rw [blockBytes, lenBytes, h]
  exact ⟨rfl, rfl⟩

theorem sizes_of_wide {v : Variant} (h : wordClass v = .wide) : blockBytes v = 128 ∧ lenBytes v = 16 := by
  rw [blockBytes, lenBytes, h]
  exact ⟨rfl, rfl⟩

/-- R145: the length field is shorter than a block, with room for the byte `0x80`. -/
theorem lenBytes_lt_blockBytes (v : Variant) : lenBytes v < blockBytes v := by cases v <;> decide

/-! The zero fill. -/

theorem zeroFill_lt (v : Variant) (n : Nat) : zeroFill v n < blockBytes v := Nat.mod_lt _ (blockBytes_pos v)

/-- R147: every number of zero bytes that completes the last block is the zero fill modulo the block size. -/
theorem zeroFill_eq_mod {v : Variant} {n z : Nat} (h : (n + 1 + z + lenBytes v) % blockBytes v = 0) :
    zeroFill v n = z % blockBytes v := by
  have hsum : n + 1 + zeroFill v n + lenBytes v ≡ n + 1 + z + lenBytes v [MOD blockBytes v] :=
    (paddedLength_mod v n).trans h.symm
  have hz : zeroFill v n ≡ z [MOD blockBytes v] := (hsum.add_right_cancel' _).add_left_cancel' _
  exact (Nat.mod_eq_of_lt (zeroFill_lt v n)).symm.trans hz

/-- R147: below the block size there is only one such number. -/
theorem zeroFill_eq {v : Variant} {n z : Nat} (hz : z < blockBytes v) (h : (n + 1 + z + lenBytes v) % blockBytes v = 0) :
    zeroFill v n = z :=
  (zeroFill_eq_mod h).trans (Nat.mod_eq_of_lt hz)

/-- R144: over the integers the block that `zeroFill` adds before its subtraction is not needed. -/
theorem zeroFill_eq_emod (v : Variant) (n : Nat) :
    (zeroFill v n : Int) = ((blockBytes v : Int) - 1 - lenBytes v - (n % blockBytes v : Nat)) % blockBytes v := by
  have hF := lenBytes_lt_blockBytes v
  have hr := Nat.mod_lt n (blockBytes_pos v)
  have hcast : ((blockBytes v - 1 - lenBytes v + blockBytes v - n % blockBytes v : Nat) : Int) =
      (blockBytes v : Int) - 1 - lenBytes v - (n % blockBytes v : Nat) + blockBytes v := by omega
  rw [zeroFill, Int.natCast_emod, hcast, Int.add_emod_right]

/-- R143: the zero fill in bits is eight times the one in bytes, and so are both sides of its formula. -/
theorem zeroFill_bits_eq_emod (v : Variant) (n : Nat) :
    (8 * zeroFill v n : Int) =
      (8 * ((blockBytes v : Int) - 1 - lenBytes v) - (8 * n : Int) % (8 * blockBytes v)) % (8 * blockBytes v) := by
  rw [zeroFill_eq_emod, Int.mul_emod_mul_of_pos _ _ (by decide), ← Int.mul_sub, Int.mul_emod_mul_of_pos _ _ (by decide),
    Int.natCast_emod]

/-- R144: the last bytes of the stream, the byte `0x80` and the length field share a block, or the length field needs a further
one. -/
theorem zeroFill_eq_ite (v : Variant) (n : Nat) :
    zeroFill v n =
      if n % blockBytes v ≤ blockBytes v - 1 - lenBytes v then blockBytes v - 1 - lenBytes v - n % blockBytes v
      else 2 * blockBytes v - 1 - lenBytes v - n % blockBytes v := by
  have hF := lenBytes_lt_blockBytes v
  have hr := Nat.mod_lt n (blockBytes_pos v)
  have hn := Nat.div_add_mod n (blockBytes v)
  split
  · have hsum : n + 1 + (blockBytes v - 1 - lenBytes v - n % blockBytes v) + lenBytes v =
        blockBytes v * (n / blockBytes v + 1) := by rw [Nat.mul_add]; omega
    exact zeroFill_eq (by omega) (by rw [hsum, Nat.mul_mod_right])
  · have hsum : n + 1 + (2 * blockBytes v - 1 - lenBytes v - n % blockBytes v) + lenBytes v =
        blockBytes v * (n / blockBytes v + 2) := by rw [Nat.mul_add]; omega
    exact zeroFill_eq (by omega) (by rw [hsum, Nat.mul_mod_right])

theorem zeroFill_narrow {v : Variant} (n : Nat) (h : wordClass v = .narrow) :
    zeroFill v n = if n % 64 ≤ 55 then 55 - n % 64 else 119 - n % 64 := by
  simpa [sizes_of_narrow h] using zeroFill_eq_ite v n

theorem zeroFill_wide {v : Variant} (n : Nat) (h : wordClass v = .wide) :
    zeroFill v n = if n % 128 ≤ 111 then 111 - n % 128 else 239 - n % 128 := by
  simpa [sizes_of_wide h] using zeroFill_eq_ite v n

/-- Settles O43: the formulas over the integers, and by cases the number that completes the last block. -/
theorem zeroFillFormula : Obligations.ZeroFillFormula := by
  refine ⟨zeroFill_bits_eq_emod, zeroFill_eq_emod, fun v h => ?_, fun v h => ?_, zeroFill_lt, fun _ => zeroFill_narrow,
    fun _ => zeroFill_wide⟩
  · obtain ⟨hB, hF⟩ := sizes_of_narrow h
    omega
  · obtain ⟨hB, hF⟩ := sizes_of_wide h
    omega

/-! The padding and the padded length. -/

/-- R145: the padding is from `1 + F` to `B + F` bytes long. -/
theorem length_padding_bounds (v : Variant) (n : Nat) :
    lenBytes v + 1 ≤ (padding v n).length ∧ (padding v n).length ≤ blockBytes v + lenBytes v := by
  have hz := zeroFill_lt v n
  rw [length_padding]
  omega

/-- R147: a stream of one block gets a second block, all of it padding. -/
theorem zeroFill_blockBytes (v : Variant) : zeroFill v (blockBytes v) = blockBytes v - 1 - lenBytes v := by
  have hF := lenBytes_lt_blockBytes v
  have hsum : blockBytes v + 1 + (blockBytes v - 1 - lenBytes v) + lenBytes v = 2 * blockBytes v := by omega
  exact zeroFill_eq (by omega) (by rw [hsum, Nat.mul_mod_left])

theorem paddedLength_blockBytes (v : Variant) : paddedLength v (blockBytes v) = 2 * blockBytes v := by
  have hF := lenBytes_lt_blockBytes v
  rw [paddedLength, zeroFill_blockBytes]
  omega

/-- Settles O44: a number of zero bytes that completes the last block is no less than its remainder, the zero fill. -/
theorem paddingIsLeastMultiple : Obligations.PaddingIsLeastMultiple := by
  refine ⟨paddedLength_mod, fun v n z h => ?_, fun v n => ?_, fun v => ⟨zeroFill_blockBytes v, paddedLength_blockBytes v⟩⟩
  · rw [zeroFill_eq_mod h]
    exact Nat.mod_le z _
  · obtain ⟨hlo, hhi⟩ := length_padding_bounds v n
    exact ⟨hlo, hhi, length_padding v n, rfl⟩

/-! The bytes of the padded stream. -/

/-- R145: the bytes of the padded stream, with the length field as the bytes of its encoding. -/
theorem padded_getElem?_beBytes (v : Variant) (S : List Byte) (j : Nat) (h : j < paddedLength v S.length) :
    (padded v S)[j]? =
      if j < S.length then S[j]?
      else if j = S.length then some 0x80#8
      else if j < paddedLength v S.length - lenBytes v then some 0x00#8
      else (beBytes (lenBytes v) (8 * S.length))[j - (paddedLength v S.length - lenBytes v)]? := by
  rw [padded_getElem? v S j h, padByte]
  split_ifs with hS h80 hz
  · rw [List.getD_eq_getElem?_getD, List.getElem?_eq_getElem hS, Option.getD_some]
  · rfl
  · rfl
  · have hi : j - (paddedLength v S.length - lenBytes v) < lenBytes v := by omega
    rw [beBytes, List.getElem?_map, List.getElem?_range hi, Option.map_some]

/-- R145: behind the stream, the byte `0x80` and the zero bytes stands the length field, and nothing behind it. -/
theorem padded_drop_lenBytes (v : Variant) (S : List Byte) :
    (padded v S).drop (paddedLength v S.length - lenBytes v) = beBytes (lenBytes v) (8 * S.length) := by
  have hsplit : padded v S = (S ++ 0x80#8 :: zeros (zeroFill v S.length)) ++ beBytes (lenBytes v) (8 * S.length) := by
    simp [padded, padding]
  rw [hsplit]
  refine List.drop_left' ?_
  rw [paddedLength, List.length_append, List.length_cons, length_zeros]
  omega

/-- R146: the length field holds the bit length of an accepted stream. -/
theorem beNat_lenField (v : Variant) {n : Nat} (h : n < 2 ^ 58) : beNat (beBytes (lenBytes v) (8 * n)) = 8 * n := by
  have hfit : 2 ^ 64 ≤ 2 ^ (8 * lenBytes v) := Nat.pow_le_pow_right (by decide) (by cases v <;> decide)
  rw [beNat_beBytes, Nat.mod_eq_of_lt (by omega)]

/-- R146: the bit length of an accepted stream is below `2^64`, so the first half of a 16-byte length field is zero. -/
theorem lenField_wide_high {v : Variant} {n j : Nat} (h : n < 2 ^ 58) (hv : wordClass v = .wide) (hj : j < 8) :
    (beBytes (lenBytes v) (8 * n))[j]? = some 0#8 := by
  have hlow : 2 ^ 64 ≤ 2 ^ (8 * (16 - 1 - j)) := Nat.pow_le_pow_right (by decide) (by omega)
  have hdiv : 8 * n / 2 ^ (8 * (16 - 1 - j)) = 0 := Nat.div_eq_of_lt (by omega)
  rw [(sizes_of_wide hv).2, getElem?_beBytes _ (by omega), hdiv]

/-- Settles O45: the parts and the lengths as they are defined, each byte by its index, and the length field read back. -/
theorem paddedStreamBytes : Obligations.PaddedStreamBytes := by
  refine ⟨fun _ _ => rfl, fun v S => ⟨length_padded v S, rfl⟩, fun v n => ⟨length_padding v n, length_padding_bounds v n⟩,
    padded_getElem?_beBytes, fun v S h => ?_, fun _ _ _ => lenField_wide_high⟩
  rw [padded_drop_lenBytes, beNat_lenField v h]

/-! The blocks of the padded stream. -/

theorem blockCount_narrow_le {v : Variant} {n : Nat} (h : n < 2 ^ 58) (hv : wordClass v = .narrow) :
    blockCount v n ≤ 2 ^ 52 + 1 := by
  obtain ⟨hB, hF⟩ := sizes_of_narrow hv
  rw [blockCount_eq, hB, hF]
  omega

theorem blockCount_wide_le {v : Variant} {n : Nat} (h : n < 2 ^ 58) (hv : wordClass v = .wide) :
    blockCount v n ≤ 2 ^ 51 + 1 := by
  obtain ⟨hB, hF⟩ := sizes_of_wide hv
  rw [blockCount_eq, hB, hF]
  omega

/-- R149: the longest stream of one block needs no zero byte. -/
theorem longest_one_block (v : Variant) :
    zeroFill v (blockBytes v - lenBytes v - 1) = 0 ∧ blockCount v (blockBytes v - lenBytes v - 1) = 1 := by
  have hF := lenBytes_lt_blockBytes v
  have hpad : blockBytes v - lenBytes v - 1 + 1 + 0 + lenBytes v = blockBytes v := by omega
  refine ⟨zeroFill_eq (blockBytes_pos v) (by rw [hpad, Nat.mod_self]), ?_⟩
  rw [blockCount_eq, Nat.div_eq_of_lt (by omega)]

/-- R149: one byte more forces a second block, all of whose bytes before the length field are zero. -/
theorem shortest_two_blocks (v : Variant) :
    zeroFill v (blockBytes v - lenBytes v) = blockBytes v - 1 ∧ blockCount v (blockBytes v - lenBytes v) = 2 := by
  have hB := blockBytes_pos v
  have hF := lenBytes_lt_blockBytes v
  have hpad : blockBytes v - lenBytes v + 1 + (blockBytes v - 1) + lenBytes v = 2 * blockBytes v := by omega
  refine ⟨zeroFill_eq (by omega) (by rw [hpad, Nat.mul_mod_left]), ?_⟩
  rw [blockCount_eq, Nat.sub_add_cancel hF.le, Nat.div_self hB]

/-- Settles O46: the count is that of the laws of the stream, its bounds follow from the sizes, and the boundary from R147. -/
theorem blockCountFormula : Obligations.BlockCountFormula := by
  refine ⟨fun v n => ⟨blockCount_mul v n, blockCount_eq v n, blockCount_pos v n⟩, fun _ _ => blockCount_narrow_le,
    fun _ _ => blockCount_wide_le, fun v => ?_⟩
  obtain ⟨hz1, hb1⟩ := longest_one_block v
  exact ⟨hz1, hb1, shortest_two_blocks v⟩

/-! The length limit. -/

/-- R142, R181: `Digest_v` fails exactly on the streams that are too long. -/
theorem digestFn_eq (v : Variant) (S : List Byte) :
    digestFn v S = if 2 ^ 58 ≤ S.length then .error .messageTooLong else .ok (digestOf v S) := by
  rw [digestFn]
  simp only [tooLong_iff]

/-- Settles O47: the limit in bits is its definition, in bytes the law of `tooLong`, and `Digest_v` looks at nothing else. -/
theorem lengthLimit : Obligations.LengthLimit :=
  ⟨fun _ => decide_eq_true_iff, tooLong_iff, by decide, by decide, by decide, digestFn_eq⟩

end Sys2Proof.Machine

/-! PROOFS. The CompressionCore (42_compression_core.md): the words that PACK assembles (R158), what SCHED, LOAD, ROUND and FOLD
write (R159 to R162), and the run of one compression (R156, R157, R166), read off the lane of either word width. -/

namespace Sys2Proof.Machine

/-! R15, R158: the words of the schedule that PACK assembles. -/

theorem slice_succ {s : List Byte} {i k : Nat} (h : i + k < s.length) : slice s i (k + 1) = slice s i k ++ [s.getD (i + k) 0] := by
  rw [slice, slice, List.take_add_one, List.getElem?_drop, List.getD_eq_getElem?_getD, List.getElem?_eq_getElem h]
  rfl

theorem beNat_slice_zero (s : List Byte) (i : Nat) : beNat (slice s i 0) = 0 := rfl

/-- R15: the last byte of a slice is the least significant one. -/
theorem beNat_slice_succ {s : List Byte} {i k : Nat} (h : i + k < s.length) :
    beNat (slice s i (k + 1)) = beNat (slice s i k) * 256 + (s.getD (i + k) 0).toNat := by
  rw [slice_succ h, beNat_append_singleton]

theorem beNat_lt (s : List Byte) : beNat s < 2 ^ (8 * s.length) := by
  have h := beNat_beBytes s.length (beNat s)
  rw [beBytes_beNat] at h
  rw [h]
  exact Nat.mod_lt _ (Nat.two_pow_pos _)

/-- R15: bytes that fit the word are not truncated. -/
theorem toNat_wordBE {w : Nat} {s : List Byte} (h : 8 * s.length ≤ w) : (wordBE w s).toNat = beNat s := by
  rw [wordBE, BitVec.toNat_ofNat, Nat.mod_eq_of_lt ((beNat_lt s).trans_le (Nat.pow_le_pow_right (by decide) h))]

@[simp] theorem length_packWords (w : Nat) (block : List Byte) : (packWords w block).length = 16 := by simp [packWords]

/-- R158: word `i` is the big-endian number of its `w/8` bytes. -/
theorem toNat_getD_packWords (w : Nat) (block : List Byte) {i : Nat} (hi : i < 16) :
    ((packWords w block).getD i 0).toNat = beNat (slice block (w / 8 * i) (w / 8)) := by
  have hfit : 8 * (slice block (w / 8 * i) (w / 8)).length ≤ w := by
    have hlen := List.length_take_le (w / 8) (block.drop (w / 8 * i))
    rw [slice]
    omega
  rw [packWords, List.getD_eq_getElem?_getD, List.getElem?_map, List.getElem?_range hi, Option.map_some, Option.getD_some,
    Nat.mul_comm i]
  exact toNat_wordBE hfit

theorem toNat_getD_packWords32 {block : List Byte} {i : Nat} (hb : block.length = 64) (hi : i < 16) :
    ((packWords 32 block).getD i 0).toNat =
      (block.getD (4 * i) 0).toNat * 2 ^ 24 + (block.getD (4 * i + 1) 0).toNat * 2 ^ 16 +
      (block.getD (4 * i + 2) 0).toNat * 2 ^ 8 + (block.getD (4 * i + 3) 0).toNat := by
  rw [toNat_getD_packWords 32 block hi]
  simp (disch := omega) only [Nat.reduceDiv, beNat_slice_succ, beNat_slice_zero, Nat.add_zero]
  omega

theorem toNat_getD_packWords64 {block : List Byte} {i : Nat} (hb : block.length = 128) (hi : i < 16) :
    ((packWords 64 block).getD i 0).toNat =
      (block.getD (8 * i) 0).toNat * 2 ^ 56 + (block.getD (8 * i + 1) 0).toNat * 2 ^ 48 +
      (block.getD (8 * i + 2) 0).toNat * 2 ^ 40 + (block.getD (8 * i + 3) 0).toNat * 2 ^ 32 +
      (block.getD (8 * i + 4) 0).toNat * 2 ^ 24 + (block.getD (8 * i + 5) 0).toNat * 2 ^ 16 +
      (block.getD (8 * i + 6) 0).toNat * 2 ^ 8 + (block.getD (8 * i + 7) 0).toNat := by
  rw [toNat_getD_packWords 64 block hi]
  simp (disch := omega) only [Nat.reduceDiv, beNat_slice_succ, beNat_slice_zero, Nat.add_zero]
  omega

/-! R46: the lane of each word width is that width's bank and constants. -/

theorem rounds_narrow {v : Variant} (h : wordClass v = .narrow) : rounds v = 64 := by rw [rounds, h]

/-- R111, R186: a variant's initial state has the words of its width, and TRUNC takes the first bytes of such words. -/
theorem exists_initialState_narrow {v : Variant} (h : wordClass v = .narrow) : ∃ h0, initialState v = .narrow h0 ∧
    ∀ H : Eight 32, truncBytes (digestBytes v) H = (outputBytes H).take (digestBytes v) := by
  cases v
  case sha224 => exact ⟨_, rfl, fun H => (truncBytes_narrow H).1⟩
  case sha256 => exact ⟨_, rfl, fun H => (truncBytes_narrow H).2⟩
  all_goals cases h

theorem rounds_wide {v : Variant} (h : wordClass v = .wide) : rounds v = 80 := by rw [rounds, h]

theorem exists_initialState_wide {v : Variant} (h : wordClass v = .wide) : ∃ h0, initialState v = .wide h0 ∧
    ∀ H : Eight 64, truncBytes (digestBytes v) H = (outputBytes H).take (digestBytes v) := by
  cases v
  case sha384 => exact ⟨_, rfl, fun H => (truncBytes_wide H).2.2.1⟩
  case sha512 => exact ⟨_, rfl, fun H => (truncBytes_wide H).2.2.2⟩
  case sha512_224 => exact ⟨_, rfl, fun H => (truncBytes_wide H).1⟩
  case sha512_256 => exact ⟨_, rfl, fun H => (truncBytes_wide H).2.1⟩
  all_goals cases h

theorem exists_lane_narrow {v : Variant} (h : wordClass v = .narrow) :
    ∃ L : Lane 32 v, L.c = core32 ∧ (∀ i, L.get i = i.bank32) ∧
      ∀ b q s, L.put b q s = { s with internal := { s.internal with bank32 := b }, seq := q } := by
  obtain ⟨h0, hi, hd⟩ := exists_initialState_narrow h
  exact ⟨narrowLane v h0 h hi hd, rfl, fun _ => rfl, fun _ _ _ => rfl⟩

theorem exists_lane_wide {v : Variant} (h : wordClass v = .wide) :
    ∃ L : Lane 64 v, L.c = core64 ∧ (∀ i, L.get i = i.bank64) ∧
      ∀ b q s, L.put b q s = { s with internal := { s.internal with bank64 := b }, seq := q } := by
  obtain ⟨h0, hi, hd⟩ := exists_initialState_wide h
  exact ⟨wideLane v h0 h hi hd, rfl, fun _ => rfl, fun _ _ _ => rfl⟩

/-! PACK as one move of the engine. -/

/-- A run of one move is that move. -/
theorem Runs.engineStep {s t : State} (h : Runs 1 s t) : engineStep s = .next t := by
  rw [Runs, runEngine] at h
  split at h
  · cases h; assumption
  · cases h
  · cases h

theorem engineStep_pack_narrow {s : State} {blk t : Nat} (hs : s.seq = ⟨.pack, blk, t⟩)
    (hw : wordClass s.internal.var = .narrow) :
    engineStep s = .next { s with
      internal := { s.internal with bank32 := bankPack s.internal.BLK s.internal.bank32 }, seq := ⟨.sched, blk, 16⟩ } := by
  obtain ⟨L, _, hget, hput⟩ := exists_lane_narrow hw
  rw [(L.runs_pack rfl hs).engineStep, hput, hget]

theorem engineStep_pack_wide {s : State} {blk t : Nat} (hs : s.seq = ⟨.pack, blk, t⟩)
    (hw : wordClass s.internal.var = .wide) :
    engineStep s = .next { s with
      internal := { s.internal with bank64 := bankPack s.internal.BLK s.internal.bank64 }, seq := ⟨.sched, blk, 16⟩ } := by
  obtain ⟨L, _, hget, hput⟩ := exists_lane_wide hw
  rw [(L.runs_pack rfl hs).engineStep, hput, hget]

/-- Settles O52: one move of the engine, whose words are the big-endian numbers of their slices; the examples are evaluated. -/
theorem packIsBigEndian : Obligations.PackIsBigEndian := by
  refine ⟨fun s blk t hs hw => ?_, fun s blk t hs hw => ?_, by decide, by decide⟩
  · exact ⟨_, engineStep_pack_narrow hs hw, length_packWords _ _, rfl, rfl, rfl, rfl,
      fun hb _ hi => toNat_getD_packWords32 hb hi⟩
  · exact ⟨_, engineStep_pack_wide hs hw, length_packWords _ _, rfl, rfl, rfl, rfl,
      fun hb _ hi => toNat_getD_packWords64 hb hi⟩

/-! R156, R157, R166: one compression. -/

/-- Settles O54: the run of the compression on the lane of the word width, counted with the rounds of that width. -/
theorem compressionRun : Obligations.CompressionRun := by
  refine ⟨fun s blk t hs hw => ?_, fun s blk t hs hw => ?_⟩
  · obtain ⟨L, hconsts, hget, hput⟩ := exists_lane_narrow hw
    obtain ⟨b, hH, hrun⟩ := L.runs_compress rfl hs
    rw [rounds_narrow hw, hput] at hrun
    rw [rounds_narrow hw, hconsts, hget] at hH
    exact ⟨b, _, hrun, hH, rfl⟩
  · obtain ⟨L, hconsts, hget, hput⟩ := exists_lane_wide hw
    obtain ⟨b, hH, hrun⟩ := L.runs_compress rfl hs
    rw [rounds_wide hw, hput] at hrun
    rw [rounds_wide hw, hconsts, hget] at hH
    exact ⟨b, _, hrun, hH, rfl⟩

/-! R159 to R162: the micro-operations on a bank of either width. -/

section
variable {w : Nat} (c : CoreConsts w) (b : Bank w) (i : Nat)

theorem length_bankSched_W : (bankSched c i b).W.length = b.W.length + 1 := List.length_append

/-- R159: SCHED leaves the words written so far. -/
theorem getD_bankSched_W_of_lt {j : Nat} (h : j < b.W.length) : (bankSched c i b).W.getD j 0 = b.W.getD j 0 :=
  List.getD_append _ _ _ _ h

/-- R159: the word SCHED writes is the next one. -/
theorem getD_bankSched_W_length : (bankSched c i b).W.getD b.W.length 0 = schedWord c b.W i := by
  simp [bankSched]

/-- R162: FOLD adds word by word. -/
theorem eightList_eightAdd (x y : Eight w) : eightList (eightAdd x y) = (eightList x).zipWith (· + ·) (eightList y) := rfl

end

/-- Settles O53: SCHED appends the next word; LOAD and ROUND are their formulas; FOLD is the addition of the eight words. -/
theorem microOperationsOfACompression : Obligations.MicroOperationsOfACompression := by
  refine fun w c b i => ⟨fun _ hlen => ⟨?_, ?_, fun j hj => ?_, rfl, rfl⟩, ⟨rfl, rfl, rfl⟩, ⟨rfl, rfl, rfl⟩,
    eightList_eightAdd b.H b.loc, rfl, rfl⟩
  · subst hlen
    exact getD_bankSched_W_length c b b.W.length
  · rw [length_bankSched_W, hlen]
  · exact getD_bankSched_W_of_lt c b i (hlen ▸ hj)

end Sys2Proof.Machine

/-! PROOFS. The digest engine (43_digest_engine_hash.md): the bytes that TRUNC takes (R186, R187), INIT and FILL (R183, R184), and
`HASH(v)` from decoding to end (R190), which the six commands (R191 to R196) are with one variant each. -/

namespace Sys2Proof.Machine

/-! R186, R187: the bytes of a digest. -/

theorem getElem?_truncBytes {w d j : Nat} (H : Eight w) (h : j < d) : (truncBytes d H)[j]? = some (digestByte H j) := by
  rw [truncBytes, List.getElem?_map, List.getElem?_range h, Option.map_some]

theorem resultBytes_narrow {s : State} (h : wordClass s.internal.var = .narrow) :
    resultBytes s = truncBytes (digestBytes s.internal.var) s.internal.bank32.H := by
  rw [resultBytes, h]

theorem resultBytes_wide {s : State} (h : wordClass s.internal.var = .wide) :
    resultBytes s = truncBytes (digestBytes s.internal.var) s.internal.bank64.H := by
  rw [resultBytes, h]

/-- Settles O56: TRUNC byte by byte is a map over the indices, and the first bytes of the state words by the laws of the lanes. -/
theorem truncatedDigestBytes : Obligations.TruncatedDigestBytes := by
  refine ⟨length_digestOf, fun s h => ?_, fun s h => ?_⟩
  · obtain ⟨_, _, htake⟩ := exists_initialState_narrow h
    rw [resultBytes_narrow h]
    exact ⟨htake _, fun _ hj => getElem?_truncBytes _ hj⟩
  · obtain ⟨_, _, htake⟩ := exists_initialState_wide h
    rw [resultBytes_wide h]
    exact ⟨htake _, fun _ hj => getElem?_truncBytes _ hj⟩

/-! R183: INIT. -/

theorem engineStep_init_narrow {s : State} {blk t : Nat} {h : Eight 32} (hs : s.seq = ⟨.init, blk, t⟩)
    (hi : initialState s.internal.var = .narrow h) :
    engineStep s = .next (advance { s with internal := { s.internal with bank32 := { s.internal.bank32 with H := h } } }) := by
  simp only [engineStep, hs, microInit, hi]

theorem engineStep_init_wide {s : State} {blk t : Nat} {h : Eight 64} (hs : s.seq = ⟨.init, blk, t⟩)
    (hi : initialState s.internal.var = .wide h) :
    engineStep s = .next (advance { s with internal := { s.internal with bank64 := { s.internal.bank64 with H := h } } }) := by
  simp only [engineStep, hs, microInit, hi]

theorem advance_seq_of_init {s : State} {blk t : Nat} (hs : s.seq = ⟨.init, blk, t⟩) : (advance s).seq = ⟨.fill, 0, 0⟩ := by
  rw [advance_seq, hs, nextSeq]

/-! R184: FILL. -/

/-- R184: a byte of the padded stream needs of the stream that byte alone, and only when it is before the padding. -/
theorem paddedByte_of_streamByte {v : Variant} {s : State} {S : List Byte} {j : Nat}
    (hl : S.length = passLen v s s.internal.pass) (hj : j < paddedLength v S.length)
    (hS : ∀ b, S[j]? = some b → streamByte v s j = .ok b) : paddedByte v s j = .ok ((padded v S).getD j 0) := by
  rw [paddedByte, ← hl, List.getD_eq_getElem?_getD, padded_getElem? v S j hj, Option.getD_some]
  split
  case isTrue h => rw [hS _ (List.getElem?_eq_getElem h), List.getD_eq_getElem?_getD, List.getElem?_eq_getElem h, Option.getD_some]
  case isFalse => rfl

/-- R184: to gather a block, the bytes of the stream in that block are enough. -/
theorem gather_streamBlock {v : Variant} {s : State} {S : List Byte} {blk : Nat}
    (hl : S.length = passLen v s s.internal.pass) (hb : blk < blockCount v S.length)
    (hS : ∀ j b, blk * blockBytes v ≤ j → j < (blk + 1) * blockBytes v → S[j]? = some b → streamByte v s j = .ok b) :
    gather (paddedByte v s) (blk * blockBytes v) (blockBytes v) = .ok (streamBlock v S blk) := by
  have hend : (blk + 1) * blockBytes v ≤ paddedLength v S.length := by
    rw [← blockCount_mul]
    exact Nat.mul_le_mul_right _ hb
  rw [Nat.succ_mul] at hend hS
  exact gather_slice _ _ _ _ (by rw [length_padded]; exact hend) fun j h1 h2 =>
    paddedByte_of_streamByte hl (h2.trans_le hend) fun b => hS j b h1 h2

theorem getElem?_streamBlock {v : Variant} {k : Nat} (S : List Byte) (blk : Nat) (hk : k < blockBytes v) :
    (streamBlock v S blk)[k]? = (padded v S)[blk * blockBytes v + k]? := by
  rw [streamBlock, slice, List.getElem?_take_of_lt hk, List.getElem?_drop]

/-- R184: FILL of a block whose stream bytes are readable. -/
theorem fillsBlock_of_streamByte {s : State} {blk t : Nat} {S : List Byte} (hs : s.seq = ⟨.fill, blk, t⟩)
    (hl : S.length = passLen s.internal.var s s.internal.pass) (hb : blk < blockCount s.internal.var S.length)
    (hS : ∀ j b, blk * blockBytes s.internal.var ≤ j → j < (blk + 1) * blockBytes s.internal.var → S[j]? = some b →
      streamByte s.internal.var s j = .ok b) : fillsBlock s blk (padded s.internal.var S) := by
  have hgather := gather_streamBlock hl hb hS
  have hstep : engineStep s =
      .next (advance { s with internal := { s.internal with BLK := streamBlock s.internal.var S blk } }) := by
    simp only [engineStep, microFill, hs, hgather]
  refine ⟨_, hstep, ?_, rfl, (gather_ok hgather).1, fun k => getElem?_streamBlock S blk⟩
  rw [advance_seq, hs, nextSeq]

/-- R64, R65, R66: where the bytes of a space up to a length within its bound are those of a list, each of them is readable. -/
theorem memRead_of_getElem? {sp : Space} {s : State} {x : List Byte} (hc : x.length ≤ spaceCap sp s)
    (hread : ∀ j, j < x.length → Memory.read (spaceOf sp s) j = x[j]?) {j : Nat} {b : Byte} (hj : x[j]? = some b) :
    memRead sp j s = .ok b := by
  have hlt : j < x.length := (List.getElem?_eq_some_iff.1 hj).1
  exact (memRead_ok_iff sp j s b).2 ⟨hlt.trans_le hc, (hread j hlt).trans hj⟩

theorem memRead_of_holdsMessage {s : State} {m : List Byte} (h : holdsMessage s m) {j : Nat} {b : Byte} (hj : m[j]? = some b) :
    memRead .msg j s = .ok b := by
  obtain ⟨hl, hc, hread⟩ := h
  exact memRead_of_getElem? (sp := .msg) (hl ▸ hc) hread hj

theorem memRead_of_holdsKey {s : State} {k : List Byte} (h : holdsKey s k) {j : Nat} {b : Byte} (hj : k[j]? = some b) :
    memRead .key j s = .ok b := by
  obtain ⟨hl, hc, hread⟩ := h
  exact memRead_of_getElem? (sp := .key) (hl ▸ hc) hread hj

/-- R213, R216: the bytes of the derived key xor a pad, with `R` behind it. -/
theorem paddedKeyByte_of_append {v : Variant} {pad : Byte} {s : State} {rest : Nat → Except Refusal Byte} {R : List Byte}
    (hKP : s.internal.KP.length = blockBytes v) (hrest : ∀ i b, R[i]? = some b → rest i = .ok b) {j : Nat} {b : Byte}
    (hj : (xorByte pad s.internal.KP ++ R)[j]? = some b) : paddedKeyByte v pad s rest j = .ok b := by
  have hlen : (xorByte pad s.internal.KP).length = blockBytes v := (length_xorByte _ _).trans hKP
  rw [paddedKeyByte]
  split
  case isTrue hlt =>
    rw [List.getElem?_append_left (hlen ▸ hlt), List.getElem?_eq_getElem (hlen ▸ hlt), ← List.getD_eq_getElem _ 0,
      getD_xorByte _ _ (hKP ▸ hlt)] at hj
    exact congrArg Except.ok (Option.some.inj hj)
  case isFalse hge =>
    rw [List.getElem?_append_right (hlen ▸ Nat.not_lt.1 hge), hlen] at hj
    exact hrest _ b hj

/-- R190, R216: the stream of each of the four passes is readable. -/
theorem streamByte_of_holdsStream {s : State} {S : List Byte} (h : holdsStream s S) :
    S.length = passLen s.internal.var s s.internal.pass ∧ ∀ j b, S[j]? = some b → streamByte s.internal.var s j = .ok b := by
  rw [holdsStream] at h
  simp only [streamByte]
  cases hp : s.internal.pass <;> rw [hp] at h
  case plain => exact ⟨h.1, fun _ _ => memRead_of_holdsMessage h⟩
  case keyHash => exact ⟨h.1, fun _ _ => memRead_of_holdsKey h⟩
  case innerPass =>
    obtain ⟨hKP, m, hm, rfl⟩ := h
    refine ⟨?_, fun _ _ => paddedKeyByte_of_append hKP fun _ _ => memRead_of_holdsMessage hm⟩
    rw [List.length_append, length_xorByte, hKP, hm.1, passLen]
  case outerPass =>
    obtain ⟨hKP, hINNER, rfl⟩ := h
    refine ⟨?_, fun _ _ => paddedKeyByte_of_append hKP fun i b hb => ?_⟩
    · rw [List.length_append, length_xorByte, hKP, hINNER, passLen]
    · rw [List.getD_eq_getElem?_getD, hb, Option.getD_some]

/-- Settles O55: INIT by its two widths; FILL gathers the block of the padded stream, for which the streams of the four passes
are readable. -/
theorem initAndFill : Obligations.InitAndFill := by
  refine ⟨fun s blk t h hs hi => ⟨_, engineStep_init_narrow hs hi, rfl, rfl, advance_seq_of_init hs⟩,
    fun s blk t h hs hi => ⟨_, engineStep_init_wide hs hi, rfl, rfl, advance_seq_of_init hs⟩,
    fun s blk t S => fillsBlock_of_streamByte, fun s S => streamByte_of_holdsStream, fun s blk t m hs hp hm hb => ?_⟩
  have hstream : holdsStream s m := by
    rw [holdsStream, hp]
    exact hm
  obtain ⟨hl, hbytes⟩ := streamByte_of_holdsStream hstream
  exact fillsBlock_of_streamByte hs hl hb fun j b _ _ => hbytes j b

/-! R97, R190, R245, R246: the ends of a command. -/

/-- R97, R245: a command whose variant is not enabled. -/
theorem exec_of_not_enabled {op : Operation} {v : Variant} {s : State} (he : isEnabled s.params v = false) :
    exec (instrOf op v) s = .next (raise .unsupportedVariant s) := by
  rw [exec_eq_finish, operationOf_instrOf, variantOf_instrOf, commandResult, if_pos he]
  rfl

/-- R182, R215: a command one of whose streams is too long. -/
theorem exec_of_commandTooLong {op : Operation} {v : Variant} {s : State} (he : isEnabled s.params v = true)
    (ht : commandTooLong op v s = true) : exec (instrOf op v) s = .next (raise .messageTooLong s) := by
  rw [exec_eq_finish, operationOf_instrOf, variantOf_instrOf, commandResult, he, ht]
  rfl

/-- R246: a command that ends in the error entry. -/
theorem fails_of_exec {i : Instr} {s : State} {e : Err} (h : exec i s = .next (raise e s)) :
    ∃ t, exec i s = .next t ∧ failedWith t e ∧ commandFrame s t :=
  ⟨_, h, failedWith_raise e s, commandFrame_raise e s⟩

section
variable {v : Variant} {s : State}

/-- R190: `HASH(v)` of a message that is held and not too long. -/
theorem exec_hash_of_holdsMessage {m : List Byte} (he : isEnabled s.params v = true) (hm : holdsMessage s m)
    (hlt : m.length < 2 ^ 58) : exec (instrOf .hash v) s = .next (succeed (digestOf v m) s) := by
  obtain ⟨hfits, hmsg⟩ := (holdsMessage_iff s m).1 hm
  rw [hm.1] at hlt
  exact exec_of_commandDigest he (commandTooLong_hash_of_lt v hlt) ((commandFits_hash s).2 hfits) (by rw [commandDigest, hmsg]; rfl)

/-- R190: what `HASH(v)` leaves when it succeeds. -/
theorem hash_delivers {m : List Byte} (he : isEnabled s.params v = true) (hm : holdsMessage s m) (hlt : m.length < 2 ^ 58) :
    ∃ t, exec (instrOf .hash v) s = .next t ∧ t.status = 0b100#3 ∧ t.digestLen = BitVec.ofNat 7 (digestBytes v) ∧
      delivers t (digestOf v m) ∧ commandFrame s t := by
  have hl := length_digestOf v m
  exact ⟨_, exec_hash_of_holdsMessage he hm hlt, rfl, by rw [succeed_digestLen, hl],
    delivers_succeed s (hl ▸ digestBytes_lt v), commandFrame_succeed _ s⟩

/-- R97: what `HASH(v)` leaves when its variant is not enabled. -/
theorem hash_not_enabled (he : isEnabled s.params v = false) :
    ∃ t, exec (instrOf .hash v) s = .next t ∧ failedWith t .unsupportedVariant ∧ commandFrame s t :=
  fails_of_exec (exec_of_not_enabled he)

/-- R182: what `HASH(v)` leaves when the message is too long. -/
theorem hash_tooLong (he : isEnabled s.params v = true) (hm : 2 ^ 58 ≤ msgBytes s) :
    ∃ t, exec (instrOf .hash v) s = .next t ∧ failedWith t .messageTooLong ∧ commandFrame s t :=
  fails_of_exec (exec_of_commandTooLong he (by rw [commandTooLong_hash, tooLong_iff]; exact hm))

/-- R24, R61: with `MSG_LEN` zero the message is empty, whatever `MSG` holds. -/
theorem holdsMessage_nil (h : s.msgLen = 0#64) : holdsMessage s [] := by
  have hl : msgBytes s = 0 := by rw [msgBytes, h]; rfl
  exact ⟨hl.symm, hl ▸ Nat.zero_le _, nofun⟩

end

/-- R180, R190: `HASH(v)` of a message that is held ends as `Digest_v` says. -/
theorem exec_hash_digestFn {v : Variant} {s : State} {m : List Byte} (he : isEnabled s.params v = true) (hm : holdsMessage s m) :
    ∃ t, exec (instrOf .hash v) s = .next t ∧ commandFrame s t ∧
      match digestFn v m with
      | .ok dg => dg.length = digestBytes v ∧ delivers t dg
      | .error e => failedWith t e := by
  rw [digestFn_eq]
  split_ifs with hlong
  · obtain ⟨t, ht, hfail, hframe⟩ := hash_tooLong (v := v) he (hm.1 ▸ hlong)
    exact ⟨t, ht, hframe, hfail⟩
  · obtain ⟨t, ht, _, _, hdel, hframe⟩ := hash_delivers (v := v) he hm (Nat.not_le.1 hlong)
    exact ⟨t, ht, hframe, length_digestOf v m, hdel⟩

/-- Settles O18: the ends of `HASH(v)` above; that nothing else has an influence is R48, proved of all commands. -/
theorem hashRefinesDigest : Obligations.HashRefinesDigest := by
  intro v s
  have hends {m : List Byte} (he : isEnabled s.params v = true) (hm : holdsMessage s m) (hlt : m.length < 2 ^ 58) :
      ∃ t, exec (instrOf .hash v) s = .next t ∧ delivers t (digestOf v m) ∧ commandFrame s t := by
    obtain ⟨t, ht, _, _, hresult⟩ := hash_delivers he hm hlt
    exact ⟨t, ht, hresult⟩
  refine ⟨encode_instrOf .hash v, hash_not_enabled, fun he hm => hash_tooLong he (by omega), fun m => exec_hash_digestFn,
    fun m he hm hlen => hends he hm (by omega), fun he h0 => hends he (holdsMessage_nil h0) (Nat.two_pow_pos 58),
    fun k n x st dl d t ht => ?_, hash_outsideRules v⟩
  refine exec_sameInputs ?_ ht
  rw [operationOf_instrOf]
  exact ⟨rfl, rfl, fun _ _ => rfl, nofun⟩

/-! R191 to R196: the six commands. The examples are evaluated in the kernel. -/

/-- Settles O12: `HASH(v)` of SHA-224; the rest is the variant's row and two examples. -/
theorem hashSha224Command : Obligations.HashSha224Command :=
  ⟨rfl, rfl, rfl, rfl, rfl, rfl, rfl, fun _ _ => hash_delivers (v := .sha224), fun _ => hash_not_enabled (v := .sha224),
    fun _ => hash_tooLong (v := .sha224), hash_outsideRules .sha224, by decide +kernel, by decide +kernel⟩

/-- Settles O13: `HASH(v)` of SHA-256; the rest is the variant's row and two examples. -/
theorem hashSha256Command : Obligations.HashSha256Command :=
  ⟨rfl, rfl, rfl, rfl, rfl, rfl, rfl, fun _ _ => hash_delivers (v := .sha256), fun _ => hash_not_enabled (v := .sha256),
    fun _ => hash_tooLong (v := .sha256), hash_outsideRules .sha256, by decide +kernel, by decide +kernel⟩

/-- Settles O14: `HASH(v)` of SHA-384; the rest is the variant's row and an example. -/
theorem hashSha384Command : Obligations.HashSha384Command :=
  ⟨rfl, rfl, rfl, rfl, rfl, rfl, rfl, fun _ _ => hash_delivers (v := .sha384), fun _ => hash_not_enabled (v := .sha384),
    fun _ => hash_tooLong (v := .sha384), hash_outsideRules .sha384, by decide +kernel⟩

/-- Settles O15: `HASH(v)` of SHA-512; the rest is the variant's row and an example. -/
theorem hashSha512Command : Obligations.HashSha512Command :=
  ⟨rfl, rfl, rfl, rfl, rfl, rfl, rfl, fun _ _ => hash_delivers (v := .sha512), fun _ => hash_not_enabled (v := .sha512),
    fun _ => hash_tooLong (v := .sha512), hash_outsideRules .sha512, by decide +kernel⟩

/-- R15: the first bytes of an encoding are the encoding of the high part of the number. -/
theorem take_beBytes (j k v : Nat) : (beBytes (j + k) v).take j = beBytes j (v / 2 ^ (8 * k)) := by
  have hbyte : ∀ i ∈ List.range j, beByte (j + k) v i = beByte j (v / 2 ^ (8 * k)) i := by
    intro i hi
    have hexp : 8 * (j + k - 1 - i) = 8 * k + 8 * (j - 1 - i) := by
      have := List.mem_range.1 hi
      omega
    rw [beByte, beByte, hexp, Nat.pow_add, Nat.div_div_eq_div_mul]
  rw [beBytes, beBytes, ← List.map_take, List.take_range, Nat.min_eq_left (Nat.le_add_right j k), List.map_congr_left hbyte]

theorem toNat_high_half (x : BitVec 64) : (x.extractLsb' 32 32).toNat = x.toNat / 2 ^ (8 * 4) := by
  have := x.isLt
  rw [BitVec.extractLsb'_toNat, Nat.shiftRight_eq_div_pow, Nat.mod_eq_of_lt (by omega)]

/-- R186: three words of 64 bits are 24 bytes; behind them stands the fourth. -/
theorem drop_take_outputBytes (H : Eight 64) : ((outputBytes H).take 28).drop 24 = (beBytes (4 + 4) H.r3.toNat).take 4 := rfl

/-- R195: the last word of a digest of SHA-512/224 is cut in half. -/
theorem digestOf_sha512_224_drop (m : List Byte) : (digestOf .sha512_224 m).drop 24 = beBytes 4
    ((foldBlocks core64 .sha512_224 m h0Sha512_224 (blockCount .sha512_224 m.length)).r3.extractLsb' 32 32).toNat := by
  rw [toNat_high_half, ← take_beBytes]
  exact drop_take_outputBytes _

/-- Settles O16: `HASH(v)` of SHA-512/224, with the half word at the end of its digest; the rest is the variant's row and an
example. -/
theorem hashSha512_224Command : Obligations.HashSha512_224Command :=
  ⟨rfl, rfl, rfl, rfl, rfl, rfl, rfl, fun _ _ => hash_delivers (v := .sha512_224), digestOf_sha512_224_drop,
    fun _ => hash_not_enabled (v := .sha512_224), fun _ => hash_tooLong (v := .sha512_224), hash_outsideRules .sha512_224,
    by decide +kernel⟩

/-- Settles O17: `HASH(v)` of SHA-512/256; the rest is the variant's row and an example. -/
theorem hashSha512_256Command : Obligations.HashSha512_256Command :=
  ⟨rfl, rfl, rfl, rfl, rfl, rfl, rfl, fun _ _ => hash_delivers (v := .sha512_256), fun _ => hash_not_enabled (v := .sha512_256),
    fun _ => hash_tooLong (v := .sha512_256), hash_outsideRules .sha512_256, by decide +kernel⟩

end Sys2Proof.Machine

/-! PROOFS. The HMAC engine (44_hmac_engine.md): the derived key and the pads (R212, R213), `HMAC(v)` from decoding to end (R217),
which the six commands (R218 to R223) are with one variant each, keys with the same derived key (R224, R225), and the passes (R214,
R216). -/

namespace Sys2Proof.Machine

/-! R212, R213: the derived key and the pads. -/

section
variable {v : Variant} {k : List Byte}

theorem derivedKey_of_lt (h : blockBytes v < k.length) :
    derivedKey v k = digestOf v k ++ zeros (blockBytes v - digestBytes v) := if_pos h

theorem derivedKey_of_le (h : k.length ≤ blockBytes v) : derivedKey v k = k ++ zeros (blockBytes v - k.length) :=
  if_neg (Nat.not_lt.2 h)

/-- R212: a key of `B` bytes is used as it is. -/
theorem derivedKey_of_length_eq (h : k.length = blockBytes v) : derivedKey v k = k := by
  rw [derivedKey_of_le h.le, h, Nat.sub_self]
  exact List.append_nil k

theorem derivedKey_nil (v : Variant) : derivedKey v [] = zeros (blockBytes v) := derivedKey_of_le (Nat.zero_le _)

/-- R224: a long key and its digest have the same derived key. -/
theorem derivedKey_digestOf (h : blockBytes v < k.length) : derivedKey v (digestOf v k) = derivedKey v k := by
  rw [derivedKey_of_lt h, derivedKey_of_le ((length_digestOf v k).trans_le (digestBytes_le v)), length_digestOf]

/-- R225: zeros at the end of a short key are zeros of the derived key anyway. -/
theorem derivedKey_append_zeros {j : Nat} (h : k.length + j ≤ blockBytes v) : derivedKey v (k ++ zeros j) = derivedKey v k := by
  have hlen : (k ++ zeros j).length = k.length + j := by rw [List.length_append, length_zeros]
  have hzeros : zeros j ++ zeros (blockBytes v - (k.length + j)) = zeros (blockBytes v - k.length) := by
    rw [zeros, zeros, zeros, List.replicate_append_replicate]
    congr 1
    omega
  rw [derivedKey_of_le (hlen.trans_le h), derivedKey_of_le ((Nat.le_add_right _ j).trans h), hlen, List.append_assoc, hzeros]

/-- R212, R214: of the key, HMAC uses the derived key alone. -/
theorem hmacOf_congr {k' : List Byte} (h : derivedKey v k' = derivedKey v k) (m : List Byte) : hmacOf v k m = hmacOf v k' m := by
  rw [hmacOf, hmacOf, h]

theorem hmacOf_digestOf (h : blockBytes v < k.length) (m : List Byte) : hmacOf v k m = hmacOf v (digestOf v k) m :=
  hmacOf_congr (derivedKey_digestOf h) m

theorem hmacOf_append_zeros {j : Nat} (h : k.length + j ≤ blockBytes v) (m : List Byte) :
    hmacOf v k m = hmacOf v (k ++ zeros j) m := hmacOf_congr (derivedKey_append_zeros h) m

end

/-- R213: the empty key gives pads of one repeated byte. -/
theorem xorByte_zeros (c : Byte) (n : Nat) : xorByte c (zeros n) = List.replicate n c := by
  rw [xorByte, zeros, List.map_replicate, BitVec.zero_xor]

theorem getElem?_xorByte (c : Byte) {K : List Byte} {j : Nat} (h : j < K.length) :
    (xorByte c K)[j]? = some (K.getD j 0 ^^^ c) := by
  rw [← getD_xorByte c K h, List.getD_eq_getElem?_getD, List.getElem?_eq_getElem ((length_xorByte c K).symm ▸ h),
    Option.getD_some]

/-- Settles O26: the two branches of the derived key, both of `B` bytes, and the pads as maps over its bytes. -/
theorem derivedKeyAndPads : Obligations.DerivedKeyAndPads := by
  refine ⟨length_derivedKey, fun v k => derivedKey_of_lt, fun v k => derivedKey_of_le, fun v k => derivedKey_of_length_eq,
    fun v => ?_, fun v k j hj => ?_, by decide⟩
  · rw [derivedKey_nil]
    exact ⟨rfl, xorByte_zeros _ _, xorByte_zeros _ _⟩
  · rw [← length_derivedKey v k] at hj
    exact ⟨getElem?_xorByte _ hj, getElem?_xorByte _ hj⟩

/-! R215, R217: `HMAC(v)`. -/

/-- R212, R215: in bytes, either stream is too long from the same limit on, since a key that reaches it is longer than a block. -/
theorem commandTooLong_hmac_iff (v : Variant) (s : State) :
    commandTooLong .hmac v s = true ↔ 2 ^ 58 ≤ keyBytes s ∨ 2 ^ 58 ≤ blockBytes v + msgBytes s := by
  rw [commandTooLong_hmac, tooLong_iff, tooLong_iff]
  rcases blockBytes_cases v with h | h <;> omega

/-- R215, R217: `Hmac_v` fails exactly on the keys and messages that are too long. -/
theorem hmacFn_eq (v : Variant) (k m : List Byte) : hmacFn v k m =
    if 2 ^ 58 ≤ k.length ∨ 2 ^ 58 ≤ blockBytes v + m.length then .error .messageTooLong else .ok (hmacOf v k m) := by
  rw [hmacFn]
  refine if_congr ?_ rfl rfl
  rw [Bool.or_eq_true, Bool.and_eq_true, decide_eq_true_iff, tooLong_iff, tooLong_iff]
  rcases blockBytes_cases v with h | h <;> omega

section
variable {v : Variant} {s : State} {k m : List Byte}

/-- R217: `HMAC(v)` of a key and a message that are held and not too long. -/
theorem exec_hmac_of_holds (he : isEnabled s.params v = true) (hk : holdsKey s k) (hm : holdsMessage s m)
    (hkl : k.length < 2 ^ 58) (hml : m.length < 2 ^ 58 - blockBytes v) :
    exec (instrOf .hmac v) s = .next (succeed (hmacOf v k m) s) := by
  obtain ⟨hkf, hkey⟩ := (holdsKey_iff s k).1 hk
  obtain ⟨hmf, hmsg⟩ := (holdsMessage_iff s m).1 hm
  rw [hk.1] at hkl
  rw [hm.1] at hml
  exact exec_of_commandDigest he (commandTooLong_hmac_of_lt hkl (by omega)) ((commandFits_hmac s).2 ⟨hmf, hkf⟩)
    (by rw [commandDigest, hkey, hmsg]; rfl)

/-- R217: what `HMAC(v)` leaves when it succeeds. -/
theorem hmac_delivers (he : isEnabled s.params v = true) (hk : holdsKey s k) (hm : holdsMessage s m)
    (hkl : k.length < 2 ^ 58) (hml : m.length < 2 ^ 58 - blockBytes v) :
    ∃ t, exec (instrOf .hmac v) s = .next t ∧ t.status = 0b100#3 ∧ t.digestLen = BitVec.ofNat 7 (digestBytes v) ∧
      delivers t (hmacOf v k m) ∧ commandFrame s t := by
  have hl := length_hmacOf v k m
  exact ⟨_, exec_hmac_of_holds he hk hm hkl hml, rfl, by rw [succeed_digestLen, hl],
    delivers_succeed s (hl ▸ digestBytes_lt v), commandFrame_succeed _ s⟩

/-- R97: what `HMAC(v)` leaves when its variant is not enabled. -/
theorem hmac_not_enabled (he : isEnabled s.params v = false) :
    ∃ t, exec (instrOf .hmac v) s = .next t ∧ failedWith t .unsupportedVariant ∧ commandFrame s t :=
  fails_of_exec (exec_of_not_enabled he)

/-- R215: what `HMAC(v)` leaves when the key or the message is too long. -/
theorem hmac_tooLong (he : isEnabled s.params v = true) (h : 2 ^ 58 ≤ keyBytes s ∨ 2 ^ 58 - blockBytes v ≤ msgBytes s) :
    ∃ t, exec (instrOf .hmac v) s = .next t ∧ failedWith t .messageTooLong ∧ commandFrame s t :=
  fails_of_exec (exec_of_commandTooLong he ((commandTooLong_hmac_iff v s).2 (by omega)))

/-- R25, R62: with `KEY_LEN` zero the key is empty, whatever `KEY` holds. -/
theorem holdsKey_nil (h : s.keyLen = 0#64) : holdsKey s [] := by
  have hl : keyBytes s = 0 := by rw [keyBytes, h]; rfl
  exact ⟨hl.symm, hl ▸ Nat.zero_le _, nofun⟩

/-- R217: `HMAC(v)` of a key and a message that are held ends as `Hmac_v` says. -/
theorem exec_hmac_hmacFn (he : isEnabled s.params v = true) (hk : holdsKey s k) (hm : holdsMessage s m) :
    ∃ t, exec (instrOf .hmac v) s = .next t ∧ commandFrame s t ∧
      match hmacFn v k m with
      | .ok dg => dg.length = digestBytes v ∧ delivers t dg
      | .error e => failedWith t e := by
  rw [hmacFn_eq]
  split_ifs with hlong
  · rw [hk.1, hm.1] at hlong
    obtain ⟨t, ht, hfail, hframe⟩ := hmac_tooLong (v := v) he (by omega)
    exact ⟨t, ht, hframe, hfail⟩
  · obtain ⟨t, ht, _, _, hdel, hframe⟩ := hmac_delivers (v := v) he hk hm (by omega) (by omega)
    exact ⟨t, ht, hframe, length_hmacOf v k m, hdel⟩

end

/-- Settles O25: the ends of `HMAC(v)` above; that nothing else has an influence is R48, proved of all commands. -/
theorem hmacRefinesConstruction : Obligations.HmacRefinesConstruction := by
  intro v s
  refine ⟨encode_instrOf .hmac v, hmac_not_enabled, fun he hlong => hmac_tooLong he (by omega), fun k m => exec_hmac_hmacFn,
    fun he hk0 hm0 => ?_, fun x st dl d t ht => ?_, hmac_outsideRules v⟩
  · obtain ⟨t, ht, _, _, hresult⟩ := hmac_delivers he (holdsKey_nil hk0) (holdsMessage_nil hm0) (Nat.two_pow_pos 58)
      (by rcases blockBytes_cases v with h | h <;> simp [h])
    exact ⟨t, ht, hresult⟩
  · refine exec_sameInputs ?_ ht
    exact ⟨rfl, rfl, fun _ _ => rfl, fun _ => ⟨rfl, fun _ _ => rfl⟩⟩

/-! R218 to R223: the six commands. The examples are evaluated in the kernel. -/

/-- Settles O19: `HMAC(v)` of SHA-224; the rest is the variant's row and an example. -/
theorem hmacSha224Command : Obligations.HmacSha224Command :=
  ⟨rfl, rfl, rfl, fun _ _ _ => hmac_delivers (v := .sha224), fun _ => hmac_not_enabled (v := .sha224),
    fun _ => hmac_tooLong (v := .sha224), fun _ m h => hmacOf_digestOf (v := .sha224) h m, hmac_outsideRules .sha224,
    by decide +kernel⟩

/-- Settles O20: `HMAC(v)` of SHA-256; the rest is the variant's row and an example. -/
theorem hmacSha256Command : Obligations.HmacSha256Command :=
  ⟨rfl, rfl, rfl, fun _ _ _ => hmac_delivers (v := .sha256), fun _ => hmac_not_enabled (v := .sha256),
    fun _ => hmac_tooLong (v := .sha256), fun _ m h => hmacOf_digestOf (v := .sha256) h m, hmac_outsideRules .sha256,
    by decide +kernel⟩

/-- Settles O21: `HMAC(v)` of SHA-384; the rest is the variant's row and an example. -/
theorem hmacSha384Command : Obligations.HmacSha384Command :=
  ⟨rfl, rfl, rfl, fun _ _ _ => hmac_delivers (v := .sha384), fun _ => hmac_not_enabled (v := .sha384),
    fun _ => hmac_tooLong (v := .sha384), fun _ m h => hmacOf_digestOf (v := .sha384) h m, hmac_outsideRules .sha384,
    by decide +kernel⟩

/-- Settles O22: `HMAC(v)` of SHA-512; the rest is the variant's row and an example. -/
theorem hmacSha512Command : Obligations.HmacSha512Command :=
  ⟨rfl, rfl, rfl, fun _ _ _ => hmac_delivers (v := .sha512), fun _ => hmac_not_enabled (v := .sha512),
    fun _ => hmac_tooLong (v := .sha512), fun _ m h => hmacOf_digestOf (v := .sha512) h m, hmac_outsideRules .sha512,
    by decide +kernel⟩

/-- Settles O23: `HMAC(v)` of SHA-512/224; the rest is the variant's row and an example. -/
theorem hmacSha512_224Command : Obligations.HmacSha512_224Command :=
  ⟨rfl, rfl, rfl, fun _ _ _ => hmac_delivers (v := .sha512_224), fun _ => hmac_not_enabled (v := .sha512_224),
    fun _ => hmac_tooLong (v := .sha512_224), fun _ m h => hmacOf_digestOf (v := .sha512_224) h m,
    hmac_outsideRules .sha512_224, by decide +kernel⟩

/-- Settles O24: `HMAC(v)` of SHA-512/256; the rest is the variant's row and an example. -/
theorem hmacSha512_256Command : Obligations.HmacSha512_256Command :=
  ⟨rfl, rfl, rfl, fun _ _ _ => hmac_delivers (v := .sha512_256), fun _ => hmac_not_enabled (v := .sha512_256),
    fun _ => hmac_tooLong (v := .sha512_256), fun _ m h => hmacOf_digestOf (v := .sha512_256) h m,
    hmac_outsideRules .sha512_256, by decide +kernel⟩

/-! R224, R225: two engines whose keys have the same derived key. -/

/-- R26, R28: the host sees the same result of two commands that succeed with the same digest. -/
theorem sameResult_of_succeed {i : Instr} {s s' : State} {dg : List Byte} (hl : dg.length < 128)
    (h : exec i s = .next (succeed dg s)) (h' : exec i s' = .next (succeed dg s')) :
    ∃ t t', exec i s = .next t ∧ exec i s' = .next t' ∧ sameResult t t' ∧ delivers t dg :=
  ⟨_, _, h, h', ⟨rfl, rfl, fun _ => rfl⟩, delivers_succeed s hl⟩

theorem length_hmacOf_lt (v : Variant) (k m : List Byte) : (hmacOf v k m).length < 128 :=
  length_hmacOf v k m ▸ digestBytes_lt v

/-- R212: a key that is not hashed is within the length limit. -/
theorem lt_limit_of_le_blockBytes {v : Variant} {n : Nat} (h : n ≤ blockBytes v) : n < 2 ^ 58 := by
  rcases blockBytes_cases v with hv | hv <;> omega

/-- Settles O27: both keys have the same derived key, and the digest of the key is within every limit. -/
theorem longKeyEqualsItsDigest : Obligations.LongKeyEqualsItsDigest := by
  refine ⟨fun v k m h => hmacOf_digestOf h m, fun v k m s s' h hkl hml he he' hm hm' hk hk' => ?_⟩
  have hdl : (digestOf v k).length < 2 ^ 58 :=
    lt_limit_of_le_blockBytes ((length_digestOf v k).trans_le (digestBytes_le v))
  refine sameResult_of_succeed (length_hmacOf_lt v k m) (exec_hmac_of_holds he hk hm hkl hml) ?_
  rw [hmacOf_digestOf h]
  exact exec_hmac_of_holds he' hk' hm' hdl hml

/-- Settles O28: both keys have the same derived key, and neither is longer than a block. -/
theorem trailingZerosOfAShortKey : Obligations.TrailingZerosOfAShortKey := by
  refine ⟨fun v k m j h => hmacOf_append_zeros h m, fun v m => hmacOf_append_zeros (k := []) (Nat.zero_add _).le m,
    fun v k m j s s' h hml he he' hm hm' hk hk' => ?_⟩
  have hzl : (k ++ zeros j).length = k.length + j := by rw [List.length_append, length_zeros]
  refine sameResult_of_succeed (length_hmacOf_lt v k m)
    (exec_hmac_of_holds he hk hm (lt_limit_of_le_blockBytes ((Nat.le_add_right _ j).trans h)) hml) ?_
  rw [hmacOf_append_zeros h]
  exact exec_hmac_of_holds he' hk' hm' (lt_limit_of_le_blockBytes (hzl.trans_le h)) hml

/-! R189, R214, R216: the passes. -/

/-- R212, R214: the passes of an HMAC command. -/
theorem commandPasses_hmac_of_lt {v : Variant} {s : State} (h : blockBytes v < keyBytes s) :
    commandPasses .hmac v s = [.keyHash, .innerPass, .outerPass] := if_pos (decide_eq_true h)

theorem commandPasses_hmac_of_le {v : Variant} {s : State} (h : keyBytes s ≤ blockBytes v) :
    commandPasses .hmac v s = [.innerPass, .outerPass] := by
  rw [commandPasses, longKey, decide_eq_false (Nat.not_lt.2 h)]
  rfl

theorem firstPass_hmac (v : Variant) (s : State) :
    firstPass .hmac v s = if blockBytes v < keyBytes s then .keyHash else .innerPass :=
  if_congr decide_eq_true_iff rfl rfl

/-- R100: an accepted command is the run of the engine from its start. -/
theorem exec_of_enabled {op : Operation} {v : Variant} {s : State} (he : isEnabled s.params v = true) :
    exec (instrOf op v) s = runEngine (opsOfCommand op v s) (startCommand op v s) := by
  rw [exec_instrOf, runCommand, if_pos he]

/-- R148, R216: behind the block of the padded key the padding, at least, takes another block. -/
theorem two_le_blockCount (v : Variant) (n : Nat) : 2 ≤ blockCount v (blockBytes v + n) := by
  have h : 1 ≤ (blockBytes v + n + lenBytes v) / blockBytes v :=
    (Nat.le_div_iff_mul_le (blockBytes_pos v)).2 (by omega)
  rw [blockCount_eq]
  omega

theorem blockCount_outerPass (v : Variant) : blockCount v (blockBytes v + digestBytes v) = 2 := by cases v <;> rfl

/-- R145, R184: behind the stream of the pass in progress stands the padding for its length. -/
theorem paddedByte_of_le {v : Variant} {s : State} {j : Nat} (h : passLen v s s.internal.pass ≤ j) :
    paddedByte v s j = .ok (padByte v (passLen v s s.internal.pass) j) := if_neg (Nat.not_lt.2 h)

theorem length_truncBytes {w : Nat} (d : Nat) (H : Eight w) : (truncBytes d H).length = d := by
  rw [truncBytes, List.length_map, List.length_range]

/-- R187: TRUNC takes `D` bytes. -/
theorem length_resultBytes (s : State) : (resultBytes s).length = digestBytes s.internal.var := by
  cases h : wordClass s.internal.var
  · rw [resultBytes_narrow h, length_truncBytes]
  · rw [resultBytes_wide h, length_truncBytes]

section
variable {v : Variant} {s : State}

/-! R216: the stream of each pass of an HMAC command. -/

theorem streamByte_keyHash (hp : s.internal.pass = .keyHash) (j : Nat) : streamByte v s j = memRead .key j s := by
  rw [streamByte, hp]

theorem streamByte_innerPass (hp : s.internal.pass = .innerPass) (j : Nat) :
    streamByte v s j = paddedKeyByte v 0x36#8 s (fun i => memRead .msg i s) j := by
  rw [streamByte, hp]

theorem streamByte_outerPass (hp : s.internal.pass = .outerPass) (j : Nat) :
    streamByte v s j = paddedKeyByte v 0x5c#8 s (fun i => .ok (s.internal.INNER.getD i 0)) j := by
  rw [streamByte, hp]

/-! R212, R214: TRUNC at the end of each pass of an HMAC command. -/

variable {blk t : Nat}

theorem engineStep_trunc (hs : s.seq = ⟨.trunc, blk, t⟩) : engineStep s = .next (microTrunc s) := by
  rw [engineStep, hs]

theorem microTrunc_keyHash (hp : s.internal.pass = .keyHash) :
    microTrunc s = beginPass .innerPass { s with internal := { s.internal with
      KP := resultBytes s ++ zeros (blockBytes s.internal.var - digestBytes s.internal.var) } } := by
  rw [microTrunc, hp]

theorem microTrunc_innerPass (hp : s.internal.pass = .innerPass) :
    microTrunc s = beginPass .outerPass { s with internal := { s.internal with INNER := resultBytes s } } := by
  rw [microTrunc, hp]

theorem microTrunc_outerPass (hp : s.internal.pass = .outerPass) : microTrunc s = succeed (resultBytes s) s := by
  rw [microTrunc, hp]

end

/-- Settles O29: the passes by the length of the key, their streams byte by byte, and TRUNC by the pass it ends. -/
theorem hmacPassesAndStreams : Obligations.HmacPassesAndStreams := by
  refine ⟨fun v s => commandPasses_hmac_of_lt, fun v s => commandPasses_hmac_of_le, fun v s => ⟨rfl, firstPass_hmac v s⟩,
    fun v s => exec_of_enabled, fun v s => ⟨rfl, rfl, rfl, two_le_blockCount v _, blockCount_outerPass v⟩,
    fun v s j hp => streamByte_innerPass hp j, fun v s j hp => streamByte_outerPass hp j, fun v s j hp => streamByte_keyHash hp j,
    fun v s j => paddedByte_of_le, fun s blk t hs hp => ?_, fun s blk t hs hp => ?_, fun s blk t hs hp => ?_, by decide⟩ <;>
    rw [engineStep_trunc hs]
  · exact ⟨_, rfl, by rw [microTrunc_keyHash hp]; exact ⟨rfl, rfl, rfl⟩⟩
  · exact ⟨_, rfl, by rw [microTrunc_innerPass hp]; exact ⟨rfl, rfl, rfl, rfl⟩⟩
  · rw [microTrunc_outerPass hp]
    exact ⟨_, rfl, delivers_succeed s (length_resultBytes s ▸ digestBytes_lt _), commandFrame_succeed _ s⟩

end Sys2Proof.Machine

/-! PROOFS. The exceptions (60_exceptions.md): which of the two errors a command raises (R242, R243, R245), on what that depends
(R247), what the error entry writes (R246), and that an engine with nothing to do holds its state (R258). -/

namespace Sys2Proof.Machine

/-! R241, R246: the error entry is the one end of a command that records the error. -/

/-- R241: each error has its own code. -/
theorem failedWith_unique {t : State} {e e' : Err} (h : failedWith t e) (h' : failedWith t e') : e = e' := by
  have hcode := h.1.symm.trans h'.1
  cases e <;> cases e'
  case messageTooLong.messageTooLong | unsupportedVariant.unsupportedVariant => rfl
  all_goals exact absurd hcode (by decide)

/-- R241, R246: the error entry of `e'` records `e'` and no other error. -/
theorem failedWith_raise_iff {e e' : Err} {s : State} : failedWith (raise e' s) e ↔ e = e' :=
  ⟨fun h => failedWith_unique h (failedWith_raise e' s), fun h => h ▸ failedWith_raise e s⟩

/-- R27: a success records no error. -/
theorem not_failedWith_succeed (dg : List Byte) (s : State) (e : Err) : ¬ failedWith (succeed dg s) e := by
  rintro ⟨hstatus, _⟩
  cases e <;> exact absurd hstatus (by rw [succeed_status]; decide)

/-- R96, R246: `CMD` of a word that failed with `e` left the error entry of `e`. -/
theorem eq_raise_of_transact_cmd {c : Nat} {s t : State} {e : Err} (h : transact (.cmd c) s = .next t)
    (hf : failedWith t e) : t = raise e s := by
  rcases commandTransaction_next h with ⟨e', rfl⟩ | ⟨_, dg, _, _, rfl⟩
  · rw [failedWith_raise_iff.1 hf]
  · exact absurd hf (not_failedWith_succeed dg s e)

theorem eq_raise_of_exec {i : Instr} {s t : State} {e : Err} (h : exec i s = .next t) (hf : failedWith t e) :
    t = raise e s :=
  eq_raise_of_transact_cmd ((commandTransaction_encode i s).trans h) hf

/-- R246: that something fails is that it ends in the error entry, when that is its one end which records the error. -/
theorem fails_iff {o : Outcome} {s : State} {e : Err} (h : ∀ t, o = .next t → failedWith t e → t = raise e s) :
    (∃ t, o = .next t ∧ failedWith t e) ↔ o = .next (raise e s) :=
  ⟨fun ⟨t, ht, hf⟩ => h t ht hf ▸ ht, fun ho => ⟨_, ho, failedWith_raise e s⟩⟩

/-- R32: the error entry has the frame of a command. -/
theorem fails_frame_iff {o : Outcome} {s : State} {e : Err} (h : ∀ t, o = .next t → failedWith t e → t = raise e s) :
    (∃ t, o = .next t ∧ failedWith t e ∧ commandFrame s t) ↔ o = .next (raise e s) :=
  ⟨fun ⟨t, ht, hf, _⟩ => h t ht hf ▸ ht, fun ho => ⟨_, ho, failedWith_raise e s, commandFrame_raise e s⟩⟩

/-- Settles O34: the fields of `raise`, and a command that failed is in that state. -/
theorem errorEntryWrites : Obligations.ErrorEntryWrites := by
  intro e s
  obtain ⟨hstatus, hlen, _⟩ := failedWith_raise e s
  exact ⟨hstatus, hlen, rfl, fun j => readTransaction_of_le (sp := .digest) (s := raise e s) j.zero_le, commandFrame_raise e s,
    fun _ _ => eq_raise_of_exec⟩

/-! R242, R243, R245: when a command ends in the error entry. -/

/-- R241: the code of the error that a command raised. -/
theorem statusErr_raise (e : Err) (s : State) : statusErr (raise e s).status = Err.code e := by cases e <;> rfl

/-- R241: the ends of a command are told apart by what they record. -/
theorem finish_eq_raise_iff {s : State} {x : Except Refusal (Except Err (List Byte))} {e : Err} :
    finish s x = .next (raise e s) ↔ x = .ok (.error e) := by
  refine ⟨fun h => ?_, fun h => h ▸ rfl⟩
  match x with
  | .error r => cases h
  | .ok (.error e') =>
    have hraise : raise e' s = raise e s := Host.Outcome.next.inj h
    rw [failedWith_raise_iff.1 (hraise ▸ failedWith_raise e s : failedWith (raise e' s) e)]
  | .ok (.ok dg) =>
    have hraise : succeed dg s = raise e s := Host.Outcome.next.inj h
    exact absurd (hraise ▸ failedWith_raise e s) (not_failedWith_succeed dg s e)

/-- Past its checks a command raises no error: it has a digest or no step. -/
theorem commandResult_ne_error {op : Operation} {v : Variant} {s : State} (he : isEnabled s.params v = true)
    (ht : commandTooLong op v s = false) (e : Err) : commandResult op v s ≠ .ok (.error e) := by
  rw [commandResult, he, ht, if_neg (by decide), if_neg (by decide)]
  split
  · cases commandDigest op v s <;> nofun
  · nofun

/-- R242, R243, R245: the errors of a command; the variant is tested first. -/
theorem commandResult_eq_error_iff {op : Operation} {v : Variant} {s : State} {e : Err} :
    commandResult op v s = .ok (.error e) ↔
      (isEnabled s.params v = false ∧ e = .unsupportedVariant) ∨
      (isEnabled s.params v = true ∧ commandTooLong op v s = true ∧ e = .messageTooLong) := by
  cases he : isEnabled s.params v with
  | false =>
    rw [commandResult, if_pos he]
    simpa using eq_comm
  | true =>
    cases ht : commandTooLong op v s with
    | true =>
      rw [commandResult, he, if_neg (by decide), if_pos ht]
      simpa using eq_comm
    | false => simpa using commandResult_ne_error he ht e

/-- R97, R243, R245: a variant that is not enabled decides it. -/
theorem exec_unsupportedVariant_iff {i : Instr} {s : State} :
    exec i s = .next (raise .unsupportedVariant s) ↔ isEnabled s.params (variantOf i) = false := by
  rw [exec_eq_finish, finish_eq_raise_iff, commandResult_eq_error_iff]
  simp

/-- R182, R215, R245: with the variant enabled, a stream that is too long decides it. -/
theorem exec_messageTooLong_iff {i : Instr} {s : State} :
    exec i s = .next (raise .messageTooLong s) ↔
      isEnabled s.params (variantOf i) = true ∧ commandTooLong (operationOf i) (variantOf i) s = true := by
  rw [exec_eq_finish, finish_eq_raise_iff, commandResult_eq_error_iff]
  simp

/-- R182, R215, R242: the same of an operation and an enabled variant. -/
theorem exec_instrOf_tooLong_iff {op : Operation} {v : Variant} {s : State} (he : isEnabled s.params v = true) :
    (∃ t, exec (instrOf op v) s = .next t ∧ failedWith t .messageTooLong ∧ commandFrame s t) ↔
      commandTooLong op v s = true := by
  rw [fails_frame_iff fun _ => eq_raise_of_exec, exec_messageTooLong_iff, operationOf_instrOf, variantOf_instrOf, and_iff_right he]

/-- Settles O35: the streams of a command that can be too long, in bytes; a block is 64 or 128 bytes by the word width. -/
theorem messageTooLongExactly : Obligations.MessageTooLongExactly := by
  refine ⟨fun v s he => ?_, fun v s he hv => ?_, fun v s he hv => ?_⟩ <;> rw [exec_instrOf_tooLong_iff he]
  · rw [commandTooLong_hash, tooLong_iff]
  · rw [commandTooLong_hmac_iff, (sizes_of_narrow hv).1]
    omega
  · rw [commandTooLong_hmac_iff, (sizes_of_wide hv).1]
    omega

/-- R96, R97, R243: the words that raise UnsupportedVariant: a reserved word always, a command's when its variant is not enabled. -/
theorem transact_cmd_unsupportedVariant_iff (c : BitVec 4) (s : State) :
    transact (.cmd c.toNat) s = .next (raise .unsupportedVariant s) ↔
      6 ≤ (varField c).toNat ∨ ∃ v, variantOfCode (varField c) = some v ∧ v ∉ s.params.enabled := by
  rcases decode_cases c with ⟨i, rfl, hi⟩ | ⟨op, x, rfl, hx, hr⟩
  · have hcode : variantOfCode (varField (encode i)) = some (variantOf i) := variantOfCode_eq_some_iff.2 (fields_encode i).2
    have hlow : ¬ 6 ≤ (varField (encode i)).toNat := by rw [← variantOfCode_eq_none_iff, hcode]; nofun
    rw [transact_cmd_of_decodeWord (decodeWord_encode i), exec_unsupportedVariant_iff, ← Bool.not_eq_true, isEnabled_iff, hcode]
    simp [hlow]
  · rw [transact, commandTransaction, decodeWord_toNat, hr, varField_append]
    exact iff_of_true rfl (.inl hx)

/-- R96: the four reserved words. -/
theorem six_le_varField_iff (c : BitVec 4) :
    6 ≤ (varField c).toNat ↔ c = 0x6#4 ∨ c = 0x7#4 ∨ c = 0xE#4 ∨ c = 0xF#4 := by
  revert c
  decide

/-- Settles O36: by the words that raise the error; with all six enabled the reserved words are left, and for a command's word
neither the operation nor anything but the parameters has a part in it. -/
theorem unsupportedVariantExactly : Obligations.UnsupportedVariantExactly := by
  refine ⟨fun c s => ?_, fun c s hall => ?_, fun v s s' hp => ?_⟩
  · rw [fails_frame_iff fun _ => eq_raise_of_transact_cmd, transact_cmd_unsupportedVariant_iff]
  · rw [fails_iff fun _ => eq_raise_of_transact_cmd, transact_cmd_unsupportedVariant_iff, ← six_le_varField_iff]
    exact or_iff_left fun ⟨v, _, hv⟩ => hv (hall v)
  · rw [fails_iff fun _ => eq_raise_of_exec, fails_iff fun _ => eq_raise_of_exec, exec_unsupportedVariant_iff,
      exec_unsupportedVariant_iff, variantOf_instrOf, variantOf_instrOf, hp]

/-- Settles O37: a variant that is not enabled decides it whatever the lengths are, and `0x6` is a reserved word. -/
theorem unsupportedVariantWins : Obligations.UnsupportedVariantWins :=
  ⟨fun _ s he _ => ⟨_, exec_unsupportedVariant_iff.2 he, statusErr_raise _ s, failedWith_raise .unsupportedVariant s⟩,
    fun s _ => ⟨_, (transact_cmd_unsupportedVariant_iff 0x6#4 s).2 (.inl (by decide)), statusErr_raise _ s⟩⟩

/-! R247: on what an error depends. -/

theorem isEnabled_congr {p p' : Params} (h : p'.enabled = p.enabled) (v : Variant) : isEnabled p' v = isEnabled p v := by
  rw [isEnabled, isEnabled, h]

theorem commandTooLong_congr {s s' : State} (hm : s'.msgLen = s.msgLen) (hk : s'.keyLen = s.keyLen) (op : Operation) (v : Variant) :
    commandTooLong op v s' = commandTooLong op v s := by
  have hml : msgBytes s' = msgBytes s := congrArg BitVec.toNat hm
  have hkl : keyBytes s' = keyBytes s := congrArg BitVec.toNat hk
  cases op
  · rw [commandTooLong_hash, commandTooLong_hash, hml]
  · rw [Bool.eq_iff_iff, commandTooLong_hmac_iff, commandTooLong_hmac_iff, hml, hkl]

/-- Settles O38: what decides each of the errors reads `ENABLED` and the lengths alone. -/
theorem errorsDependOnLengthsAlone : Obligations.ErrorsDependOnLengthsAlone := by
  intro i s s' e hp hm hk h
  cases e with
  | messageTooLong =>
    rw [exec_messageTooLong_iff] at h ⊢
    rwa [isEnabled_congr hp, commandTooLong_congr hm hk]
  | unsupportedVariant =>
    rw [exec_unsupportedVariant_iff] at h ⊢
    rwa [isEnabled_congr hp]

/-! R258, R275: steps without a transaction. -/

/-- R258: with no transaction pending an idle engine holds its state. -/
theorem step_of_pending_nil {s : State} (hi : s.seq.phase = .idle) (hp : s.pending = []) : step s = .next s := by
  rw [step, hostStep, if_pos hi, hp]

/-- R275: while a command runs the host has no move. -/
theorem step_of_running {s : State} (hi : s.seq.phase ≠ .idle) : step s = .refused .commandRunning := if_neg hi

/-- Settles O4: the two branches of the step that take no transaction. -/
theorem idleHoldsAndRunningBlocks : Obligations.IdleHoldsAndRunningBlocks :=
  ⟨fun _ => step_of_pending_nil, fun _ => step_of_running⟩

end Sys2Proof.Machine
